-- ==== Sys2Proof/Word.lean ====
section
/-! DEFINITION. The widths of the block's values (00_scope.md R5, R7): every value is an unsigned bit vector. -/

namespace Sys2Proof

/-- An 8-bit value: a base page, a frame element, a byte of the command buffer, a byte of a command line. -/
abbrev Byte := BitVec 8

/-- A 16-bit value: a pin word, a direction mask, a port offset, one half of a data word. -/
abbrev Half := BitVec 16

/-- A 32-bit value: a physical address, a register offset, a data word of the bus. -/
abbrev Word := BitVec 32

end Sys2Proof
end

