-- ==== Sys2Proof/Config.lean ====
section
/-! DEFINITION. The configuration record `Cfg` of 00_scope.md R5, and the draws (free values) of the outside world as
opaque constants. A field that R5 calls OPEN has no value here. -/

namespace Sys2Proof

/-- An inclusive range of 32-bit physical addresses. -/
structure AddrRange where
  first : Word
  last  : Word
deriving DecidableEq, Repr

/-- R5 `READ_LANE`: which half of a read-pins data word holds the pin word (30_encoding.md R53). -/
inductive ReadLane where
  | low
  | high
deriving DecidableEq, Repr

/-- R5 `OUTPUT_READBACK`: what READ_PINS returns for an output pin (40_port_ops.md R77). -/
inductive OutputReadback where
  | draw
  | latch
deriving DecidableEq, Repr

/-- One row of a merge function given as data: the result for one pair of halves. -/
structure MergeRow where
  hi     : Half
  lo     : Half
  result : Half
deriving DecidableEq, Repr

/-- R5 `PAIRED_WRITE_MERGE`: `refuse`, or a function of two 16-bit halves. The function is plain data: the rows it
lists, and one half as the result of every pair they do not list. Every function of two halves can be written so
(DESIGN CHOICE, log 4; safe: no function is left out). -/
inductive PairedWrite where
  | refuse
  | merge (rows : List MergeRow) (otherwise : ReadLane)
deriving DecidableEq, Repr

/-- The implementation parameters of 00_scope.md R5. A default is the one R5's table gives. `accessibleRanges` is the
predicate `Accessible` as data: the addresses some range holds (DESIGN CHOICE, log 3; safe: every set of 32-bit
addresses is a finite union of ranges). `READY_PATTERN` is derived and stands in Machine/Operands.lean. -/
structure Cfg where
  portWindow       : Byte
  offReadPins      : Half
  offSetBase       : Half
  offSetDirections : Half
  offWritePins     : Half
  txBit            : Fin 4
  rtsBit           : Fin 16
  ctsBit           : Fin 16
  dirMask          : Half
  idlePattern      : Half
  encStart         : Byte
  encZero          : Byte
  encOne           : Byte
  encStop          : Byte
  bitPeriodUs      : Nat := 50
  bitJitterUs      : Option Nat := none
  settleMs         : Nat := 200
  hsTimeoutMs      : Nat := 2000
  basePageReset    : Byte
  accessibleRanges : List AddrRange
  readLane         : ReadLane := .low
  outputReadback   : OutputReadback := .draw
  pairedWrite      : PairedWrite := .refuse
deriving DecidableEq, Repr

/-- What the outside world gives one bus access: its access time δ (40_port_ops.md R80), the levels the peer drives at
that moment (`Sample()`, 10_state.md R19), and the bits that are draws: those of pins that read as a draw (R71), those
of the half of a read-pins word that carries no pins (R53), and the word a read outside the port window returns (R67). -/
structure BusDraw where
  delta     : Nat
  sample    : Half
  floating  : Half
  otherHalf : Half
  outside   : Word
deriving DecidableEq, Repr, Inhabited

/-- The outside world's coming draws, plain data of the model's own (log 5): what the next bus accesses, delay
overshoots and clock readings are given, first one first. A draw taken from an empty list is the opaque constant below
at `drawn`, which then moves on. -/
structure Env where
  bus    : List BusDraw
  delays : List Nat
  clock  : List Nat
  drawn  : Nat
deriving DecidableEq, Repr

/-- Free value: the draw of a bus access that `Env` lists none for (R19, R53, R67, R71, R80; log 5). -/
opaque Config.busDraw : Nat → BusDraw

/-- Free value: the overshoot ε of a delay that `Env` lists none for (42_line_init.md R105; log 5). -/
opaque Config.delayDraw : Nat → Nat

/-- Free value: the advance δ of a clock reading that `Env` lists none for (42_line_init.md R106; log 5). -/
opaque Config.clockDraw : Nat → Nat

/-- Free value: `Now` at reset (10_state.md R25 and 70_reset_and_hazards.md R125: a draw; log 6). -/
opaque Config.nowAtReset : Nat

end Sys2Proof
end

