-- ==== Sys2Proof/Syntax.lean ====
section
/-! DEFINITION. The operations of the block as data: one constructor per row of spec/opcode_table.json (00_scope.md R2,
30_encoding.md R64). -/

namespace Sys2Proof

/-- The two forms of DELAY: `delay_us n` and `delay_ms n` (42_line_init.md R105). -/
inductive TimeUnit where
  | us
  | ms
deriving DecidableEq, Repr

/-- An operation with its operands. -/
inductive Instr where
  /-- REG_READ, `rdreg <off32>` (40_port_ops.md R68). -/
  | regRead (off : Word)
  /-- REG_WRITE, `wrreg <off32>, <v32>` (R69). -/
  | regWrite (off value : Word)
  /-- READ_PINS, `rdpins` (R71). -/
  | readPins
  /-- WRITE_PINS, `wrpins <d16>` (R72). -/
  | writePins (d : Half)
  /-- WRITE_PINS2, `wrpins2 <hi16>, <lo16>` (R73). -/
  | writePins2 (hi lo : Half)
  /-- SET_DIRECTIONS, `setdir <m16>` (R75). -/
  | setDirections (m : Half)
  /-- SET_BASE, `setbase <p8>` (R76). -/
  | setBase (p : Byte)
  /-- ENCODE_BYTE, `encode <b8>` (41_frame_encoder.md R83). -/
  | encodeByte (b : Byte)
  /-- EMIT_ELEMENT, `emit <e8>` (R84). -/
  | emitElement (e : Byte)
  /-- EMIT_FRAME, `frame <b8>` (R85). -/
  | emitFrame (b : Byte)
  /-- CTS_CHECK, `ctscheck` (R88). -/
  | ctsCheck
  /-- RESTORE_IDLE, `idle` (R89). -/
  | restoreIdle
  /-- TRANSMIT, `tx [<b8>, ...]` (R91): the command buffer is its operand (10_state.md R28). -/
  | transmit (buf : List Byte)
  /-- LINE_INIT, `init` (42_line_init.md R96). -/
  | lineInit
  /-- DELAY, `delay_us <n>` or `delay_ms <n>` (R105). -/
  | delay (unit : TimeUnit) (n : Nat)
  /-- NOW, `now` (R106). -/
  | now
deriving DecidableEq, Repr

end Sys2Proof
end

