-- ==== Sys2Proof/WellFormed.lean ====
section
/-! DEFINITION. The named well-formedness checks of a configuration (00_scope.md R6). An operation needs no check of its
own: its operands are typed at the widths the rules give them, and every value of those widths is legal. -/

namespace Sys2Proof

/-- The named checks of R6, in R6's order. -/
inductive ConfigCheck where
  | wfOffsetsDistinct
  | wfPinsDistinct
  | wfTxOutput
  | wfCtsInput
  | wfRtsOutput
  | wfIdleTxHigh
  | wfIdleRtsDeasserted
  | wfEncHighNibble
  | wfEncOneBit
  | wfBitPeriod
deriving DecidableEq, Repr

/-- Every check, in R6's order. -/
def ConfigCheck.all : List ConfigCheck :=
  [.wfOffsetsDistinct, .wfPinsDistinct, .wfTxOutput, .wfCtsInput, .wfRtsOutput, .wfIdleTxHigh,
   .wfIdleRtsDeasserted, .wfEncHighNibble, .wfEncOneBit, .wfBitPeriod]

/-- Whether a configuration passes one check (R6). -/
def ConfigCheck.passes (cfg : Cfg) : ConfigCheck → Bool
  | .wfOffsetsDistinct   =>
      [cfg.offReadPins, cfg.offSetBase, cfg.offSetDirections, cfg.offWritePins].Nodup
  | .wfPinsDistinct      => [cfg.txBit.val, cfg.rtsBit.val, cfg.ctsBit.val].Nodup
  | .wfTxOutput          => cfg.dirMask.getLsbD cfg.txBit
  | .wfCtsInput          => !cfg.dirMask.getLsbD cfg.ctsBit
  | .wfRtsOutput         => cfg.dirMask.getLsbD cfg.rtsBit
  | .wfIdleTxHigh        => cfg.idlePattern.getLsbD cfg.txBit
  | .wfIdleRtsDeasserted => cfg.idlePattern.getLsbD cfg.rtsBit
  | .wfEncHighNibble     => cfg.encOne.extractLsb 7 4 == cfg.encZero.extractLsb 7 4
  | .wfEncOneBit         => cfg.encOne ^^^ cfg.encZero == 1#8 <<< cfg.txBit.val
  | .wfBitPeriod         => decide (0 < cfg.bitPeriodUs)

/-- The first check of R6 that a configuration fails (60_exceptions.md R112 names the failing check; that it is the
first in R6's order when several fail is a DESIGN CHOICE, log 16; safe). -/
def Cfg.failing (cfg : Cfg) : Option ConfigCheck :=
  ConfigCheck.all.find? (fun c => !c.passes cfg)

/-- A configuration is well-formed when no check fails (R6). -/
def Cfg.wf (cfg : Cfg) : Bool := cfg.failing.isNone

/-- EXCFG of 95_test_vectors.md section 0: EXAMPLE ONLY, not hardware values. It shows that well-formed configurations
exist, and the model's tests use it; no meaning does. -/
def Cfg.excfg : Cfg where
  portWindow       := 0x40
  offReadPins      := 0x0010
  offSetBase       := 0x0020
  offSetDirections := 0x0030
  offWritePins     := 0x0040
  txBit            := 0
  rtsBit           := 1
  ctsBit           := 2
  dirMask          := 0x0003
  idlePattern      := 0x0003
  encStart         := 0x02
  encZero          := 0x02
  encOne           := 0x03
  encStop          := 0x03
  basePageReset    := 0x12
  accessibleRanges := [⟨0x12000000, 0x12FFFFFF⟩, ⟨0x34000000, 0x34FFFFFF⟩]

/-- A configuration together with the fact that it is well-formed. The default only shows that one exists. -/
structure Board where
  cfg : Cfg := Cfg.excfg
  ok  : cfg.wf = true := by decide
deriving Inhabited

/-- Free value: the configuration of the board the machine is reset on. No source gives its OPEN fields (R5), so
nothing is known of it but that it is well-formed (R112 gives no operation of another one a meaning; log 2). -/
opaque Config.board : Board

end Sys2Proof
end

