-- ==== Sys2Proof/Machine/State.lean ====
section
/-! DEFINITION. The state of the block (10_state.md), the reasons a step can stop, and the state after reset
(70_reset_and_hazards.md R125). -/

namespace Sys2Proof.Machine

/-- The direction of a bus transaction (30_encoding.md R51). -/
inductive Dir where
  | read
  | write
deriving DecidableEq, Repr

/-- The faults of the block: there is one (60_exceptions.md R107, R109). -/
inductive Fault where
  /-- FatalAddress(a): raised by any operation that makes a bus access, when `Accessible(a)` is false. Safe: the spec
  ends the run there (R108). -/
  | fatalAddress (a : Word)
deriving DecidableEq, Repr

/-- The refusals (R111, R112): the spec gives these no meaning and ends the run. Safe: nothing is claimed of a run
past one. -/
inductive Refusal where
  /-- No operation of this model: every instruction has its meaning. Kept because the host's interface names it. -/
  | notModelled (mnemonic : String)
  /-- UndefinedPort(a, dir): an access inside the port window at an undefined offset, a read of a write-only port or a
  write to read-pins (30_encoding.md R61). Safe. -/
  | undefinedPort (a : Word) (dir : Dir)
  /-- UnequalHalves(off, hi, lo): a write to write-pins or set-directions with unequal halves when the configuration
  gives no merge function (R62). Safe. -/
  | unequalHalves (off hi lo : Half)
  /-- BadBaseData(data): a write to set-base that is not a page in both halves, when the configuration gives no merge
  function (R54). Safe. -/
  | badBaseData (data : Word)
  /-- Unmodelled(name): a command line that is no operation or form of the opcode table; raised by `step` (R111). Safe. -/
  | unmodelled (name : List Byte)
  /-- BadConfig(check): the configuration fails a check of 00_scope.md R6; raised before any operation (R112). Safe. -/
  | badConfig (check : ConfigCheck)
deriving DecidableEq, Repr

/-- The encoded frame of one byte: exactly ten 8-bit elements (10_state.md R23, 30_encoding.md R56). -/
structure Frame where
  start : Byte
  bit0  : Byte
  bit1  : Byte
  bit2  : Byte
  bit3  : Byte
  bit4  : Byte
  bit5  : Byte
  bit6  : Byte
  bit7  : Byte
  stop  : Byte
deriving DecidableEq, Repr

/-- The position of the frame-encoder sequencer (10_state.md R22). -/
inductive TxPhase where
  | txIdle
  | txCheck (j sent : Nat)
  | txElement (j k sent : Nat)
  | txHold (j k sent : Nat)
  | txRestore (sent : Nat)
  | txDone (sent : Nat)
deriving DecidableEq, Repr

/-- The state of the line-initialisation sequencer (10_state.md R24). -/
inductive InitState where
  | unconfigured
  | directionsSet
  | idleHigh
  | readyAsserted
  | settling
  | idleSettled
  | polling (t0 : Nat)
  | ready
  | timedOut
deriving DecidableEq, Repr

/-- An observable event (10_state.md R27). -/
inductive Event where
  /-- A completed bus access: its completion time, direction, address and data. -/
  | access (t : Nat) (dir : Dir) (addr data : Word)
  /-- A completed write to the write-pins port: its completion time and the new `OutLatch`. -/
  | pins (t : Nat) (latch : Half)
deriving DecidableEq, Repr

/-- What an operation returns to the host (60_exceptions.md R121; log 13). -/
inductive Returned where
  | nothing
  | word (v : Word)
  | encoded (f : Frame)
  | clear (b : Bool)
  | sent (n : Nat)
  | ready (b : Bool)
  | time (t : Nat)
deriving DecidableEq, Repr

/-- The state of the block (10_state.md R13), and four fields of the model's own: the configuration (log 1), the
host's command lines still to be issued (log 9), the values returned so far (log 13) and the outside world's draws
(log 5). -/
structure State where
  cfg         : Cfg
  devBasePage : Byte
  ctxBasePage : Byte
  dirMask     : Option Half
  outLatch    : Option Half
  txPhase     : TxPhase
  frame       : Option Frame
  initState   : InitState
  now         : Nat
  fault       : Option Fault
  refused     : Option Refusal
  trace       : List Event
  host        : List (List Byte)
  returns     : List Returned
  env         : Env
deriving DecidableEq, Repr

/-- The state after reset (70_reset_and_hazards.md R125) under a configuration, at a reading of the clock. -/
def State.resetWith (cfg : Cfg) (now : Nat) : State where
  cfg         := cfg
  devBasePage := cfg.basePageReset
  ctxBasePage := cfg.basePageReset
  dirMask     := none
  outLatch    := none
  txPhase     := .txIdle
  frame       := none
  initState   := .unconfigured
  now         := now
  fault       := none
  refused     := none
  trace       := []
  host        := []
  returns     := []
  env         := ⟨[], [], [], 0⟩

/-- The machine right after reset: on a board of which nothing is known but that its configuration is well-formed
(log 2), at a clock reading that is a draw (log 6). -/
def State.reset : State := State.resetWith Config.board.cfg Config.nowAtReset

/-- The result of a part of an operation: done with a value, or stopped. Unlike the host's outcome it keeps the state
at the stop, with `Fault` or `Refused` set (10_state.md R26, 60_exceptions.md R110; log 14). -/
inductive Run (α : Type) where
  | done (a : α) (s : State)
  | fault (r : Fault) (s : State)
  | refused (r : Refusal) (s : State)
deriving DecidableEq, Repr

end Sys2Proof.Machine
end

