-- ==== Sys2Proof/Machine/Operands.lean ====
section
/-! DEFINITION. Addresses and data words: how an operation's operands become a bus transaction (20_memory.md R34 to R37,
30_encoding.md R51 to R54, R58, R60), and how a transaction is decoded (R66). -/

namespace Sys2Proof

/-- The platform's check on a physical address (00_scope.md R10, 20_memory.md R38). -/
def Cfg.accessible (cfg : Cfg) (a : Word) : Bool :=
  cfg.accessibleRanges.any (fun r => r.first.toNat ≤ a.toNat && a.toNat ≤ r.last.toNat)

/-- `READY_PATTERN = IDLE_PATTERN & ~(1 << RTS_BIT)` (R5, R60). -/
def Cfg.readyPattern (cfg : Cfg) : Half := cfg.idlePattern &&& ~~~(1#16 <<< cfg.rtsBit.val)

/-- The half of a pair that a lane names. -/
def ReadLane.pick : ReadLane → Half → Half → Half
  | .low, _, lo => lo
  | .high, hi, _ => hi

/-- The merge function of two halves that a configuration gives (30_encoding.md R62), or none under `refuse`. -/
def PairedWrite.result : PairedWrite → Half → Half → Option Half
  | .refuse, _, _ => none
  | .merge rows otherwise, hi, lo =>
      match rows.find? (fun r => r.hi == hi && r.lo == lo) with
      | some r => some r.result
      | none   => some (otherwise.pick hi lo)

end Sys2Proof

namespace Sys2Proof.Machine

/-! ### Addresses -/

/-- `addressOf(p, o) = (zext_32(p) << 24) | (o & 0x00FFFFFF)` (R35). -/
def addressOf (p : Byte) (o : Word) : Word := (p.setWidth 32 <<< 24) ||| (o &&& 0x00FFFFFF)

/-- The register offset of a port: `(zext_24(PORT_WINDOW) << 16) | zext_24(off)` (R36). -/
def portReg (cfg : Cfg) (off : Half) : Word :=
  ((cfg.portWindow.setWidth 24 <<< 16 ||| off.setWidth 24 : BitVec 24)).setWidth 32

/-- The physical address of a register offset: every access uses the context's page (R35). -/
def State.regAddress (s : State) (o : Word) : Word := addressOf s.ctxBasePage o

/-- The physical address of a port (R36). -/
def State.portAddress (s : State) (off : Half) : Word := s.regAddress (portReg s.cfg off)

/-- The page, window and offset fields of an address (R51). -/
def pageOf (a : Word) : Byte := a.extractLsb' 24 8
def windowOf (a : Word) : Byte := a.extractLsb' 16 8
def offsetOf (a : Word) : Half := a.extractLsb' 0 16

/-! ### Data words -/

/-- `{dataHigh, dataLow}` (R52). -/
def pairWord (hi lo : Half) : Word := hi ++ lo

/-- The two halves of a data word (R52). -/
def highHalf (data : Word) : Half := data.extractLsb' 16 16
def lowHalf (data : Word) : Half := data.extractLsb' 0 16

/-- The same-halves form `{d, d}` (R52). -/
def sameWord (d : Half) : Word := pairWord d d

/-- The data word of a write to set-base: `{zext_16(p), zext_16(p)}` (R54). -/
def baseWord (p : Byte) : Word := sameWord (p.setWidth 16)

/-- The data word of a read-pins read: the pin word in the half that `READ_LANE` names, the other half a draw (R53). -/
def readWord (cfg : Cfg) (pins other : Half) : Word :=
  match cfg.readLane with
  | .low  => pairWord other pins
  | .high => pairWord pins other

/-- The pin word of a read-pins data word (R53). -/
def pinWordOf (cfg : Cfg) (data : Word) : Half := cfg.readLane.pick (highHalf data) (lowHalf data)

/-- The pin word that carries a frame element: `zext_16(e)` (R58). -/
def elementWord (e : Byte) : Half := e.setWidth 16

/-- Microseconds of a DELAY operand (42_line_init.md R105). -/
def microseconds : TimeUnit → Nat → Nat
  | .us, n => n
  | .ms, n => n * 1000

/-! ### The decode of a bus transaction -/

/-- What a bus transaction is to the block (R66). -/
inductive BusOp where
  | outside
  | readPins
  | writePins
  | writePins2
  | setDirections
  | setBase
  | undefinedPort
deriving DecidableEq, Repr

/-- Whether an address lies in the device's port window: `[31:16] = {DevBasePage, PORT_WINDOW}` (R37, R61). -/
def inWindow (cfg : Cfg) (dev : Byte) (a : Word) : Bool :=
  pageOf a == dev && windowOf a == cfg.portWindow

/-- The decode of one bus transaction (R66): the first matching row of the port map (R55). -/
def busDecode (cfg : Cfg) (dev : Byte) (a : Word) (dir : Dir) (data : Word) : BusOp :=
  if inWindow cfg dev a then
    match dir with
    | .read => if offsetOf a = cfg.offReadPins then .readPins else .undefinedPort
    | .write =>
        if offsetOf a = cfg.offWritePins then
          (if highHalf data = lowHalf data then .writePins else .writePins2)
        else if offsetOf a = cfg.offSetDirections then .setDirections
        else if offsetOf a = cfg.offSetBase then .setBase
        else .undefinedPort
  else .outside

end Sys2Proof.Machine
end

