-- ==== Sys2Proof/Machine/Flags.lean ====
section
/-! DEFINITION. What the block's bits mean. The block has no condition codes (10_state.md R14, R21): its one status bit is
the CTS sense of a pin word. The line levels (R20) and the pin word a read returns (40_port_ops.md R71, R77) are functions
of the port state. -/

namespace Sys2Proof.Machine

/-- `cts_clear(w) = (w[CTS_BIT] = 0)` (10_state.md R21; the polarity is the spec's decision D15). -/
def ctsClear (cfg : Cfg) (w : Half) : Bool := !w.getLsbD cfg.ctsBit

/-- The level of a line (R20). -/
inductive Line where
  | undefined
  | driven (level : Bool)
  | outside
deriving DecidableEq, Repr

/-- `Line(i)`: the direction masking (R20, R74, R78). -/
def State.line (s : State) (i : Fin 16) : Line :=
  match s.dirMask with
  | none => .undefined
  | some m =>
      if m.getLsbD i then
        (match s.outLatch with
         | none   => .undefined
         | some l => .driven (l.getLsbD i))
      else .outside

/-- The bits READ_PINS gives the output pins: a draw, or the latch where the configuration says so and both registers
hold a value (R71, R77). -/
def State.outputBits (s : State) (d : BusDraw) : Half :=
  match s.cfg.outputReadback, s.outLatch with
  | .latch, some l => l
  | _, _ => d.floating

/-- The pin word of a read-pins read (R71): an input pin gives the sample, an output pin `outputBits`; before
SET_DIRECTIONS every bit is a draw. -/
def State.pinWord (s : State) (d : BusDraw) : Half :=
  match s.dirMask with
  | none   => d.floating
  | some m => (d.sample &&& ~~~m) ||| (s.outputBits d &&& m)

end Sys2Proof.Machine
end

