-- ==== Sys2Proof/Machine/Ops.lean ====
section
/-! DEFINITION. The shared operations: sequencing, the stops, the draws, the clock, and the one bus access every operation
runs (40_port_ops.md R67). -/

namespace Sys2Proof.Machine

/-! ### Sequencing and stops -/

/-- Run a second part after a first that is done; a stop ends the operation there (00_scope.md R8, 60_exceptions.md
R110, R117). -/
def Run.bind {α β : Type} : Run α → (α → State → Run β) → Run β
  | .done a s, k => k a s
  | .fault r s, _ => .fault r s
  | .refused r s, _ => .refused r s

/-- Change the value of a part that is done. -/
def Run.map {α β : Type} (x : Run α) (f : α → β) : Run β := x.bind fun a s => .done (f a) s

/-- The state a part ends in, done or stopped. -/
def Run.endState {α : Type} : Run α → State
  | .done _ s => s
  | .fault _ s => s
  | .refused _ s => s

/-- Raise a fault: `Fault` is set and the run stops; nothing else changes (60_exceptions.md R107, R110, R116). -/
def State.raiseFault {α : Type} (s : State) (r : Fault) : Run α := .fault r { s with fault := some r }

/-- Refuse: `Refused` is set and the run stops; nothing else changes (R111). -/
def State.refuse {α : Type} (s : State) (r : Refusal) : Run α := .refused r { s with refused := some r }

/-- The host's outcome of an operation: a value returned is appended to the values returned so far; `none` means that
the operation is still under way (LINE_INIT while it polls). The reason of a stop is the outcome (00_scope.md R9). -/
def Run.outcome : Run (Option Returned) → Host.Outcome State Fault Refusal
  | .done (some v) s => .next { s with returns := s.returns ++ [v] }
  | .done none s => .next s
  | .fault r _ => .fault r
  | .refused r _ => .refused r

/-- The guard before anything runs: no step is enabled once `Fault` or `Refused` is set (10_state.md R26, 60_exceptions.md
R108), and no operation of an ill-formed configuration has a meaning (R112). -/
def State.guarded (s : State) (k : Host.Outcome State Fault Refusal) : Host.Outcome State Fault Refusal :=
  match s.fault with
  | some r => .fault r
  | none =>
      match s.refused with
      | some r => .refused r
      | none =>
          match s.cfg.failing with
          | some c => .refused (.badConfig c)
          | none   => k

/-- The outcome of an operation at a state: the guard, then the operation. -/
def State.conclude (s : State) (op : State → Run (Option Returned)) : Host.Outcome State Fault Refusal :=
  s.guarded (op s).outcome

/-! ### Draws and the clock -/

/-- The draws of the next bus access (log 5). -/
def State.busDraw (s : State) : BusDraw :=
  match s.env.bus with
  | d :: _ => d
  | []     => Config.busDraw s.env.drawn

/-- The draws left after a bus access. -/
def Env.afterBus (e : Env) : Env :=
  match e.bus with
  | _ :: ds => { e with bus := ds }
  | []      => { e with drawn := e.drawn + 1 }

/-- The draws left after a delay. -/
def Env.afterDelay (e : Env) : Env :=
  match e.delays with
  | _ :: ds => { e with delays := ds }
  | []      => { e with drawn := e.drawn + 1 }

/-- The draws left after a clock reading. -/
def Env.afterClock (e : Env) : Env :=
  match e.clock with
  | _ :: ds => { e with clock := ds }
  | []      => { e with drawn := e.drawn + 1 }

/-- The overshoot ε of the next delay: a draw, at most `BIT_JITTER_US` when that is bounded (42_line_init.md R105;
log 8). -/
def State.overshoot (s : State) : Nat :=
  let e := match s.env.delays with
    | e :: _ => e
    | []     => Config.delayDraw s.env.drawn
  match s.cfg.bitJitterUs with
  | none   => e
  | some j => min e j

/-- The advance δ of the next clock reading (R106). -/
def State.clockAdvance (s : State) : Nat :=
  match s.env.clock with
  | d :: _ => d
  | []     => Config.clockDraw s.env.drawn

/-- Wait at least `n` microseconds: `Now <- Now + n + ε` (R105). -/
def State.delayed (s : State) (n : Nat) : State :=
  { s with now := s.now + n + s.overshoot, env := Env.afterDelay s.env }

/-- Read the clock: `Now <- Now + δ`, and `Now` is the reading (R106). -/
def State.clockRead (s : State) : State :=
  { s with now := s.now + s.clockAdvance, env := Env.afterClock s.env }

/-! ### The bus access -/

/-- The completion of a bus access: `Now` advances by δ, and the access is recorded (40_port_ops.md R67, R80;
10_state.md R27). -/
def State.complete (s : State) (a : Word) (dir : Dir) (data : Word) : State :=
  { s with
    now   := s.now + s.busDraw.delta
    env   := Env.afterBus s.env
    trace := s.trace ++ [.access (s.now + s.busDraw.delta) dir a data] }

/-- The effect of a write to write-pins: the latch, and the `Pins` event after the access's own (R72, R74, R27;
log 19). -/
def State.latchPins (s : State) (v : Half) : State :=
  { s with outLatch := some v, trace := s.trace ++ [.pins s.now v] }

/-- The effect of a write to set-directions (R75). -/
def State.setMask (s : State) (m : Half) : State := { s with dirMask := some m }

/-- The effect of a write to set-base on the device (R76, R54). -/
def State.setDevPage (s : State) (p : Byte) : State := { s with devBasePage := p }

/-- The effect of SET_BASE on the context (R76, 10_state.md R16). -/
def State.setCtxPage (s : State) (p : Byte) : State := { s with ctxBasePage := p }

/-! ### The sequencers -/

/-- The frame-encoder sequencer moves (10_state.md R22). -/
def State.inTx (s : State) (p : TxPhase) : State := { s with txPhase := p }

/-- The line-initialisation sequencer moves (10_state.md R24). -/
def State.inInit (s : State) (p : InitState) : State := { s with initState := p }

/-! ### The transaction -/

/-- The value a 16-bit port takes from two halves: the common value, or the merge function's (30_encoding.md R62). -/
def mergedHalf (cfg : Cfg) (hi lo : Half) : Option Half :=
  if hi = lo then some lo else cfg.pairedWrite.result hi lo

/-- The page the device takes from the data of a write to set-base (R54): the page that both halves carry, or the merge
function's low byte (log 17). -/
def mergedPage (cfg : Cfg) (hi lo : Half) : Option Byte :=
  if hi = lo ∧ hi.extractLsb' 8 8 = 0 then some (lo.extractLsb' 0 8)
  else (cfg.pairedWrite.result hi lo).map (fun v => v.extractLsb' 0 8)

/-- Every bus access of the block (R67): `Accessible`, then the decode, then the data check of the port's effect, then
the effect at the completion time (60_exceptions.md R114). The result of a write is 0. -/
def access (a : Word) (dir : Dir) (data : Word) (s : State) : Run Word :=
  if s.cfg.accessible a then
    match busDecode s.cfg s.devBasePage a dir data with
    | .outside =>
        (match dir with
         | .read  => .done s.busDraw.outside (s.complete a .read s.busDraw.outside)
         | .write => .done 0 (s.complete a .write data))
    | .undefinedPort => s.refuse (.undefinedPort a dir)
    | .readPins =>
        let w := readWord s.cfg (s.pinWord s.busDraw) s.busDraw.otherHalf
        .done w (s.complete a .read w)
    | .writePins => .done 0 ((s.complete a .write data).latchPins (lowHalf data))
    | .writePins2 =>
        (match mergedHalf s.cfg (highHalf data) (lowHalf data) with
         | some v => .done 0 ((s.complete a .write data).latchPins v)
         | none   => s.refuse (.unequalHalves s.cfg.offWritePins (highHalf data) (lowHalf data)))
    | .setDirections =>
        (match mergedHalf s.cfg (highHalf data) (lowHalf data) with
         | some v => .done 0 ((s.complete a .write data).setMask v)
         | none   => s.refuse (.unequalHalves s.cfg.offSetDirections (highHalf data) (lowHalf data)))
    | .setBase =>
        (match mergedPage s.cfg (highHalf data) (lowHalf data) with
         | some p => .done 0 ((s.complete a .write data).setDevPage p)
         | none   => s.refuse (.badBaseData data))
  else s.raiseFault (.fatalAddress a)

end Sys2Proof.Machine
end

