-- ==== Sys2Proof/Machine/Ports.lean ====
section
/-! DEFINITION. The register and port operations (40_port_ops.md): REG_READ, REG_WRITE, READ_PINS, WRITE_PINS, WRITE_PINS2,
SET_DIRECTIONS, SET_BASE. Each has what it performs, with the state at a stop, and its meaning as an instruction. -/

namespace Sys2Proof.Machine

/-! ### The register layer and the generic port forms -/

/-- `readRegister(offset)` (R68). -/
def regRead (o : Word) (s : State) : Run Word := access (s.regAddress o) .read 0 s

/-- `writeRegister(offset, value)` (R69). -/
def regWrite (o v : Word) (s : State) : Run Word := access (s.regAddress o) .write v s

/-- `readPort(off)` (R70). -/
def readPort (off : Half) (s : State) : Run Word := regRead (portReg s.cfg off) s

/-- `writePort16(off, hi, lo)` (R70). -/
def writePort16 (off hi lo : Half) (s : State) : Run Word := regWrite (portReg s.cfg off) (pairWord hi lo) s

/-- `writePort16Same(off, d)` (R70). -/
def writePort16Same (off d : Half) (s : State) : Run Word := writePort16 off d d s

/-! ### The named operations -/

/-- READ_PINS (R71): the data word. -/
def readPins (s : State) : Run Word := readPort s.cfg.offReadPins s

/-- WRITE_PINS (R72). -/
def writePins (d : Half) (s : State) : Run Word := writePort16Same s.cfg.offWritePins d s

/-- SET_DIRECTIONS (R75). -/
def setDirections (m : Half) (s : State) : Run Word := writePort16Same s.cfg.offSetDirections m s

/-- SET_BASE (R76): the write is addressed with the old page; the context follows only after it. -/
def setBase (p : Byte) (s : State) : Run Word :=
  (writePort16Same s.cfg.offSetBase (p.setWidth 16) s).bind fun w s' => .done w (s'.setCtxPage p)

/-! ### What each instruction performs -/

/-- REG_READ (R68). -/
def performRegRead (o : Word) (s : State) : Run (Option Returned) :=
  (regRead o s).map fun w => some (.word w)

/-- REG_WRITE (R69). -/
def performRegWrite (o v : Word) (s : State) : Run (Option Returned) :=
  (regWrite o v s).map fun _ => some .nothing

/-- READ_PINS (R71). -/
def performReadPins (s : State) : Run (Option Returned) :=
  (readPins s).map fun w => some (.word w)

/-- WRITE_PINS (R72). -/
def performWritePins (d : Half) (s : State) : Run (Option Returned) :=
  (writePins d s).map fun _ => some .nothing

/-- WRITE_PINS2 (R73). -/
def performWritePins2 (hi lo : Half) (s : State) : Run (Option Returned) :=
  (writePort16 s.cfg.offWritePins hi lo s).map fun _ => some .nothing

/-- SET_DIRECTIONS (R75). -/
def performSetDirections (m : Half) (s : State) : Run (Option Returned) :=
  (setDirections m s).map fun _ => some .nothing

/-- SET_BASE (R76). -/
def performSetBase (p : Byte) (s : State) : Run (Option Returned) :=
  (setBase p s).map fun _ => some .nothing

/-! ### The meanings -/

/-- REG_READ. -/
def execRegRead (o : Word) (s : State) : Host.Outcome State Fault Refusal := s.conclude (performRegRead o)

/-- REG_WRITE. -/
def execRegWrite (o v : Word) (s : State) : Host.Outcome State Fault Refusal := s.conclude (performRegWrite o v)

/-- READ_PINS. -/
def execReadPins (s : State) : Host.Outcome State Fault Refusal := s.conclude performReadPins

/-- WRITE_PINS. -/
def execWritePins (d : Half) (s : State) : Host.Outcome State Fault Refusal := s.conclude (performWritePins d)

/-- WRITE_PINS2. -/
def execWritePins2 (hi lo : Half) (s : State) : Host.Outcome State Fault Refusal :=
  s.conclude (performWritePins2 hi lo)

/-- SET_DIRECTIONS. -/
def execSetDirections (m : Half) (s : State) : Host.Outcome State Fault Refusal :=
  s.conclude (performSetDirections m)

/-- SET_BASE. -/
def execSetBase (p : Byte) (s : State) : Host.Outcome State Fault Refusal := s.conclude (performSetBase p)

end Sys2Proof.Machine
end

