-- ==== Sys2Proof/Machine/Timing.lean ====
section
/-! DEFINITION. The timing primitives DELAY and NOW (42_line_init.md R105, R106). -/

namespace Sys2Proof.Machine

/-- DELAY (R105): no bus transaction, no fault. -/
def performDelay (unit : TimeUnit) (n : Nat) (s : State) : Run (Option Returned) :=
  .done (some .nothing) (s.delayed (microseconds unit n))

/-- NOW (R106): the reading after the clock's advance. -/
def performNow (s : State) : Run (Option Returned) := .done (some (.time s.clockRead.now)) s.clockRead

/-- DELAY. -/
def execDelay (unit : TimeUnit) (n : Nat) (s : State) : Host.Outcome State Fault Refusal :=
  s.conclude (performDelay unit n)

/-- NOW. -/
def execNow (s : State) : Host.Outcome State Fault Refusal := s.conclude performNow

end Sys2Proof.Machine
end

