-- ==== Sys2Proof/Machine/Encoder.lean ====
section
/-! DEFINITION. The frame encoder and the transmitter (41_frame_encoder.md): ENCODE_BYTE, EMIT_ELEMENT, EMIT_FRAME,
CTS_CHECK, RESTORE_IDLE, TRANSMIT. -/

namespace Sys2Proof.Machine

/-! ### Encoding -/

/-- The element of a data bit: `ENC_ONE` or `ENC_ZERO` (30_encoding.md R56). -/
def bitElement (cfg : Cfg) (b : Byte) (i : Nat) : Byte := if b.getLsbD i then cfg.encOne else cfg.encZero

/-- The encoded frame of a byte (R56, R83): start, data bits 0 to 7, stop. -/
def frameOf (cfg : Cfg) (b : Byte) : Frame where
  start := cfg.encStart
  bit0  := bitElement cfg b 0
  bit1  := bitElement cfg b 1
  bit2  := bitElement cfg b 2
  bit3  := bitElement cfg b 3
  bit4  := bitElement cfg b 4
  bit5  := bitElement cfg b 5
  bit6  := bitElement cfg b 6
  bit7  := bitElement cfg b 7
  stop  := cfg.encStop

/-- The elements of a frame in emission order, k = 0..9 (R56). -/
def Frame.elements (f : Frame) : List Byte :=
  [f.start, f.bit0, f.bit1, f.bit2, f.bit3, f.bit4, f.bit5, f.bit6, f.bit7, f.stop]

/-- ENCODE_BYTE's effect: `Frame <- f` (R83). -/
def State.encoded (s : State) (b : Byte) : State := { s with frame := some (frameOf s.cfg b) }

/-- The frame discarded once its byte is sent: it is not kept after the byte (10_state.md R23). -/
def State.frameDropped (s : State) : State := { s with frame := none }

/-! ### Emission -/

/-- EMIT_ELEMENT (R84): the pin write, then one bit period. -/
def emitElement (e : Byte) (s : State) : Run Unit :=
  (writePins (elementWord e) s).bind fun _ s' => .done () (s'.delayed s'.cfg.bitPeriodUs)

/-- The sequencer's mark before element k is written, inside TRANSMIT only (10_state.md R22). -/
def State.atElement (s : State) (pos : Option (Nat × Nat)) (k : Nat) : State :=
  match pos with
  | some (j, sent) => s.inTx (.txElement j k sent)
  | none => s

/-- The sequencer's mark while element k's delay is under way, inside TRANSMIT only (R22). -/
def State.atHold (s : State) (pos : Option (Nat × Nat)) (k : Nat) : State :=
  match pos with
  | some (j, sent) => s.inTx (.txHold j k sent)
  | none => s

/-- Emit elements in order, the first of them being element k: each is written and held for a bit period (R84, R85).
`pos` is the byte index and count of a TRANSMIT; EMIT_FRAME has none. -/
def emitElements (pos : Option (Nat × Nat)) : Nat → List Byte → State → Run Unit
  | _, [], s => .done () s
  | k, e :: es, s =>
      (writePins (elementWord e) (s.atElement pos k)).bind fun _ s' =>
        emitElements pos (k + 1) es ((s'.atHold pos k).delayed s'.cfg.bitPeriodUs)

/-- ENCODE_BYTE, then the ten elements of the frame it stored (R85); then the frame is discarded (R23, R91; that it is in an
EMIT_FRAME of the host's too is log 21). -/
def emitFrame (pos : Option (Nat × Nat)) (b : Byte) (s : State) : Run Unit :=
  (emitElements pos 0 (frameOf s.cfg b).elements (s.encoded b)).bind fun _ s' => .done () s'.frameDropped

/-! ### Flow control and the transmit loop -/

/-- CTS_CHECK (R88): one READ_PINS; true when the CTS sense of its pin word is clear. -/
def ctsCheck (s : State) : Run Bool :=
  (readPins s).bind fun w s' => .done (ctsClear s'.cfg (pinWordOf s'.cfg w)) s'

/-- RESTORE_IDLE (R89): the idle pattern, no delay. -/
def restoreIdle (s : State) : Run Word := writePins s.cfg.idlePattern s

/-- The byte loop of TRANSMIT (R91), from byte j with `sent` bytes sent: the count at which it ends. -/
def transmitLoop : List Byte → Nat → Nat → State → Run Nat
  | [], _, sent, s => .done sent s
  | b :: bs, j, sent, s =>
      (ctsCheck (s.inTx (.txCheck j sent))).bind fun clear s1 =>
        if clear then
          (emitFrame (some (j, sent)) b s1).bind fun _ s2 =>
            transmitLoop bs (j + 1) (sent + 1) s2
        else .done sent s1

/-- TRANSMIT (R91): the loop, then the idle restore whether the buffer was exhausted or cut short (R93). -/
def transmit (buf : List Byte) (s : State) : Run Nat :=
  (transmitLoop buf 0 0 s).bind fun sent s1 =>
    (restoreIdle (s1.inTx (.txRestore sent))).bind fun _ s2 =>
      .done sent (s2.inTx (.txDone sent))

/-! ### What each instruction performs -/

/-- ENCODE_BYTE (R83). -/
def performEncodeByte (b : Byte) (s : State) : Run (Option Returned) :=
  .done (some (.encoded (frameOf s.cfg b))) (s.encoded b)

/-- EMIT_ELEMENT (R84). -/
def performEmitElement (e : Byte) (s : State) : Run (Option Returned) :=
  (emitElement e s).map fun _ => some .nothing

/-- EMIT_FRAME (R85). -/
def performEmitFrame (b : Byte) (s : State) : Run (Option Returned) :=
  (emitFrame none b s).map fun _ => some .nothing

/-- CTS_CHECK (R88). -/
def performCtsCheck (s : State) : Run (Option Returned) :=
  (ctsCheck s).map fun b => some (.clear b)

/-- RESTORE_IDLE (R89). -/
def performRestoreIdle (s : State) : Run (Option Returned) :=
  (restoreIdle s).map fun _ => some .nothing

/-- TRANSMIT (R91, R92). -/
def performTransmit (buf : List Byte) (s : State) : Run (Option Returned) :=
  (transmit buf s).map fun n => some (.sent n)

/-! ### The meanings -/

/-- ENCODE_BYTE. -/
def execEncodeByte (b : Byte) (s : State) : Host.Outcome State Fault Refusal := s.conclude (performEncodeByte b)

/-- EMIT_ELEMENT. -/
def execEmitElement (e : Byte) (s : State) : Host.Outcome State Fault Refusal := s.conclude (performEmitElement e)

/-- EMIT_FRAME. -/
def execEmitFrame (b : Byte) (s : State) : Host.Outcome State Fault Refusal := s.conclude (performEmitFrame b)

/-- CTS_CHECK. -/
def execCtsCheck (s : State) : Host.Outcome State Fault Refusal := s.conclude performCtsCheck

/-- RESTORE_IDLE. -/
def execRestoreIdle (s : State) : Host.Outcome State Fault Refusal := s.conclude performRestoreIdle

/-- TRANSMIT. -/
def execTransmit (buf : List Byte) (s : State) : Host.Outcome State Fault Refusal := s.conclude (performTransmit buf)

end Sys2Proof.Machine
end

