-- ==== Sys2Proof/Machine/LineInit.lean ====
section
/-! DEFINITION. LINE_INIT (42_line_init.md R96 to R104). The poll loop has no bound of its own (R103), so the operation
takes several steps: one from its start to the first reading t0, then one for each iteration of the loop, while
`InitState` is `Polling(t0)` (DESIGN CHOICE, log 15; safe). -/

namespace Sys2Proof.Machine

/-- Step 4 (R100): the settle delay, while RTS is asserted. -/
def State.settle (s : State) : State := (s.inInit .settling).delayed (microseconds .ms s.cfg.settleMs)

/-- Steps 1 to 5 and the reading of t0 (R96 to R102): the handshake's writes, the settle delay, the start of polling.
The value is t0. -/
def lineInitStart (s : State) : Run Nat :=
  (setDirections s.cfg.dirMask s).bind fun _ s =>
  (writePins s.cfg.idlePattern (s.inInit .directionsSet)).bind fun _ s =>
  (writePins s.cfg.readyPattern (s.inInit .idleHigh)).bind fun _ s =>
  (writePins s.cfg.idlePattern (s.inInit .readyAsserted).settle).bind fun _ s =>
  let s := (s.inInit .idleSettled).clockRead
  .done s.now (s.inInit (.polling s.now))

/-- One iteration of the poll loop (R102): the clock first, then the pins. `some true` is Ready, `some false` is
TimedOut, `none` means that polling goes on. -/
def pollOnce (t0 : Nat) (s : State) : Run (Option Bool) :=
  let s := s.clockRead
  if t0 + microseconds .ms s.cfg.hsTimeoutMs ≤ s.now then .done (some false) (s.inInit .timedOut)
  else
    (ctsCheck s).bind fun clear s =>
      if clear then .done (some true) (s.inInit .ready) else .done none s

/-- LINE_INIT (R96): the next step of the operation. In `Polling(t0)` it is under way and goes on; in every other state
it starts at its first step (R96; 92_eei_decisions.md D42). -/
def performLineInit (s : State) : Run (Option Returned) :=
  match s.initState with
  | .polling t0 => (pollOnce t0 s).map fun r => r.map Returned.ready
  | _ => (lineInitStart s).map fun _ => none

/-- LINE_INIT. -/
def execLineInit (s : State) : Host.Outcome State Fault Refusal := s.conclude performLineInit

end Sys2Proof.Machine
end

