-- ==== Sys2Proof/Machine/Dispatch.lean ====
section
/-! DEFINITION. One arm per operation of spec/opcode_table.json, in the table's order. -/

namespace Sys2Proof.Machine

def exec (i : Instr) (s : State) : Host.Outcome State Fault Refusal :=
  match i with
  -- register accesses (40_port_ops.md section 2)
  | .regRead off => Sys2Proof.Machine.execRegRead off s
  | .regWrite off value => Sys2Proof.Machine.execRegWrite off value s
  -- port accesses (40_port_ops.md section 3)
  | .readPins => Sys2Proof.Machine.execReadPins s
  | .writePins d => Sys2Proof.Machine.execWritePins d s
  | .writePins2 hi lo => Sys2Proof.Machine.execWritePins2 hi lo s
  | .setDirections m => Sys2Proof.Machine.execSetDirections m s
  | .setBase p => Sys2Proof.Machine.execSetBase p s
  -- the frame encoder (41_frame_encoder.md)
  | .encodeByte b => Sys2Proof.Machine.execEncodeByte b s
  | .emitElement e => Sys2Proof.Machine.execEmitElement e s
  | .emitFrame b => Sys2Proof.Machine.execEmitFrame b s
  | .ctsCheck => Sys2Proof.Machine.execCtsCheck s
  | .restoreIdle => Sys2Proof.Machine.execRestoreIdle s
  | .transmit buf => Sys2Proof.Machine.execTransmit buf s
  -- line initialisation and timing (42_line_init.md)
  | .lineInit => Sys2Proof.Machine.execLineInit s
  | .delay unit n => Sys2Proof.Machine.execDelay unit n s
  | .now => Sys2Proof.Machine.execNow s

end Sys2Proof.Machine
end

