-- ==== Sys2Proof/Decode.lean ====
section
/-! DEFINITION. The host's command lines (30_encoding.md R64): decoding one line of bytes, total and rejecting by name,
and the encoder. A line is ASCII text. The spelling details R64 does not fix (which bytes are white space, the case of
hexadecimal digits) are DESIGN CHOICES, log 10. -/

namespace Sys2Proof

/-! ### Characters -/

/-- A byte of a name or a number: a letter, a digit or an underscore. -/
def isWordByte (c : Byte) : Bool :=
  (0x30 ≤ c.toNat && c.toNat ≤ 0x39) || (0x41 ≤ c.toNat && c.toNat ≤ 0x5A) ||
    (0x61 ≤ c.toNat && c.toNat ≤ 0x7A) || c.toNat == 0x5F

/-- White space inside a line: space, tab, carriage return, line feed. -/
def isBlankByte (c : Byte) : Bool :=
  c.toNat == 0x20 || c.toNat == 0x09 || c.toNat == 0x0D || c.toNat == 0x0A

/-- The value of a decimal digit. -/
def decimalValue (c : Byte) : Option Nat :=
  if 0x30 ≤ c.toNat && c.toNat ≤ 0x39 then some (c.toNat - 0x30) else none

/-- The value of a hexadecimal digit, in either case. -/
def hexValue (c : Byte) : Option Nat :=
  if 0x30 ≤ c.toNat && c.toNat ≤ 0x39 then some (c.toNat - 0x30)
  else if 0x61 ≤ c.toNat && c.toNat ≤ 0x66 then some (c.toNat - 0x57)
  else if 0x41 ≤ c.toNat && c.toNat ≤ 0x46 then some (c.toNat - 0x37)
  else none

/-! ### Tokens -/

/-- A token of a command line. -/
inductive Token where
  | word (text : List Byte)
  | comma
  | leftBracket
  | rightBracket
  | other (c : Byte)
deriving DecidableEq, Repr

/-- The token of a byte that is neither part of a word nor white space. -/
def symbolToken (c : Byte) : Token :=
  if c.toNat = 0x2C then .comma
  else if c.toNat = 0x5B then .leftBracket
  else if c.toNat = 0x5D then .rightBracket
  else .other c

/-- The word read so far (its bytes last one first), as no token or one. -/
def wordToken (acc : List Byte) : List Token :=
  if acc.isEmpty then [] else [.word acc.reverse]

/-- The tokens of a line. `;` starts a comment (R64); `acc` is the word being read, last byte first. -/
def lexLine : List Byte → List Byte → List Token
  | [], acc => wordToken acc
  | c :: cs, acc =>
      if isWordByte c then lexLine cs (c :: acc)
      else if c.toNat = 0x3B then wordToken acc
      else if isBlankByte c then wordToken acc ++ lexLine cs []
      else wordToken acc ++ symbolToken c :: lexLine cs []

/-! ### Numbers -/

/-- The number a list of digits spells in a base, `n` being the value of the digits before them. -/
def digitsValue (value : Byte → Option Nat) (base : Nat) : List Byte → Nat → Option Nat
  | [], n => some n
  | c :: cs, n =>
      match value c with
      | some v => digitsValue value base cs (base * n + v)
      | none   => none

/-- A number: hexadecimal with `0x`, or decimal (R64). -/
def numberOf : List Byte → Option Nat
  | [] => none
  | [c] => digitsValue decimalValue 10 [c] 0
  | z :: x :: cs =>
      if z.toNat = 0x30 ∧ x.toNat = 0x78 then
        (if cs.isEmpty then none else digitsValue hexValue 16 cs 0)
      else digitsValue decimalValue 10 (z :: x :: cs) 0

/-- An operand of a fixed width. A number that does not fit is no operand of the form. -/
def operandOf (w : Nat) (text : List Byte) : Option (BitVec w) :=
  match numberOf text with
  | some n => if n < 2 ^ w then some (BitVec.ofNat w n) else none
  | none   => none

/-- The rest of a command buffer after its first byte: `, <b8>` any number of times, then `]`. -/
def bufferRest : List Token → Option (List Byte)
  | [.rightBracket] => some []
  | .comma :: .word t :: ts =>
      match operandOf 8 t, bufferRest ts with
      | some b, some bs => some (b :: bs)
      | _, _ => none
  | _ => none

/-- A command buffer `[<b8>, ...]`, which may be empty (R64, R91). -/
def bufferOf : List Token → Option (List Byte)
  | [.leftBracket, .rightBracket] => some []
  | .leftBracket :: .word t :: ts =>
      match operandOf 8 t, bufferRest ts with
      | some b, some bs => some (b :: bs)
      | _, _ => none
  | _ => none

/-! ### Command names -/

/-- The command names of R64's table. DELAY has two. -/
inductive Keyword where
  | rdreg | wrreg | rdpins | wrpins | wrpins2 | setdir | setbase | delayUs | delayMs | now
  | encode | ctscheck | emit | frame | idle | tx | init
deriving DecidableEq, Repr

/-- Every command name. -/
def Keyword.all : List Keyword :=
  [.rdreg, .wrreg, .rdpins, .wrpins, .wrpins2, .setdir, .setbase, .delayUs, .delayMs, .now,
   .encode, .ctscheck, .emit, .frame, .idle, .tx, .init]

/-- The spelling of a command name, in ASCII (R64). -/
def Keyword.text : Keyword → List Byte
  | .rdreg    => [0x72, 0x64, 0x72, 0x65, 0x67]
  | .wrreg    => [0x77, 0x72, 0x72, 0x65, 0x67]
  | .rdpins   => [0x72, 0x64, 0x70, 0x69, 0x6E, 0x73]
  | .wrpins   => [0x77, 0x72, 0x70, 0x69, 0x6E, 0x73]
  | .wrpins2  => [0x77, 0x72, 0x70, 0x69, 0x6E, 0x73, 0x32]
  | .setdir   => [0x73, 0x65, 0x74, 0x64, 0x69, 0x72]
  | .setbase  => [0x73, 0x65, 0x74, 0x62, 0x61, 0x73, 0x65]
  | .delayUs  => [0x64, 0x65, 0x6C, 0x61, 0x79, 0x5F, 0x75, 0x73]
  | .delayMs  => [0x64, 0x65, 0x6C, 0x61, 0x79, 0x5F, 0x6D, 0x73]
  | .now      => [0x6E, 0x6F, 0x77]
  | .encode   => [0x65, 0x6E, 0x63, 0x6F, 0x64, 0x65]
  | .ctscheck => [0x63, 0x74, 0x73, 0x63, 0x68, 0x65, 0x63, 0x6B]
  | .emit     => [0x65, 0x6D, 0x69, 0x74]
  | .frame    => [0x66, 0x72, 0x61, 0x6D, 0x65]
  | .idle     => [0x69, 0x64, 0x6C, 0x65]
  | .tx       => [0x74, 0x78]
  | .init     => [0x69, 0x6E, 0x69, 0x74]

/-- The command name a word spells. -/
def keywordOf (text : List Byte) : Option Keyword :=
  Keyword.all.find? (fun k => k.text == text)

/-! ### Decoding a line -/

/-- The operation a command name and its operands stand for (R64's table, row by row); none for a form the table does
not have. -/
def operationOf : Keyword → List Token → Option Instr
  | .rdreg, [.word o] => (operandOf 32 o).map .regRead
  | .wrreg, [.word o, .comma, .word v] =>
      match operandOf 32 o, operandOf 32 v with
      | some o, some v => some (.regWrite o v)
      | _, _ => none
  | .rdpins, [] => some .readPins
  | .wrpins, [.word d] => (operandOf 16 d).map .writePins
  | .wrpins2, [.word hi, .comma, .word lo] =>
      match operandOf 16 hi, operandOf 16 lo with
      | some hi, some lo => some (.writePins2 hi lo)
      | _, _ => none
  | .setdir, [.word m] => (operandOf 16 m).map .setDirections
  | .setbase, [.word p] => (operandOf 8 p).map .setBase
  | .delayUs, [.word n] => (numberOf n).map (.delay .us)
  | .delayMs, [.word n] => (numberOf n).map (.delay .ms)
  | .now, [] => some .now
  | .encode, [.word b] => (operandOf 8 b).map .encodeByte
  | .ctscheck, [] => some .ctsCheck
  | .emit, [.word e] => (operandOf 8 e).map .emitElement
  | .frame, [.word b] => (operandOf 8 b).map .emitFrame
  | .idle, [] => some .restoreIdle
  | .tx, ts => (bufferOf ts).map .transmit
  | .init, [] => some .lineInit
  | _, _ => none

/-- What a command line is. -/
inductive Decoded where
  /-- An operation of the table. -/
  | op (i : Instr)
  /-- No operation: an empty line, or only a comment. -/
  | blank
  /-- An operation or a form that the table does not name (60_exceptions.md R111, `Unmodelled(name)`): the line's
  first word, empty when the line begins with no word. -/
  | unmodelled (name : List Byte)
deriving DecidableEq, Repr

/-- Decode one command line. -/
def decode (line : List Byte) : Decoded :=
  match lexLine line [] with
  | [] => .blank
  | .word name :: args =>
      match keywordOf name with
      | some k =>
          match operationOf k args with
          | some i => .op i
          | none   => .unmodelled name
      | none => .unmodelled name
  | _ => .unmodelled []

/-! ### The encoder -/

/-- A hexadecimal digit, in lower case. -/
def hexDigit (n : Nat) : Byte :=
  if n < 10 then BitVec.ofNat 8 (0x30 + n) else BitVec.ofNat 8 (0x57 + n)

/-- The hexadecimal digits of `n` in front of `acc`; the first argument bounds their number. -/
def hexDigitsOnto : Nat → Nat → List Byte → List Byte
  | 0, _, acc => acc
  | fuel + 1, n, acc =>
      if n / 16 = 0 then hexDigit (n % 16) :: acc
      else hexDigitsOnto fuel (n / 16) (hexDigit (n % 16) :: acc)

/-- A number as `0x` and its hexadecimal digits without leading zeros (R64; that the encoder never writes decimal is a
DESIGN CHOICE, log 11; safe). -/
def numberText (n : Nat) : List Byte :=
  0x30 :: 0x78 :: hexDigitsOnto (n + 1) n []

/-- The bytes of a command buffer after its first: each with `, ` before it, then `]`. -/
def bufferRestText : List Byte → List Byte
  | [] => [0x5D]
  | b :: bs => 0x2C :: 0x20 :: (numberText b.toNat ++ bufferRestText bs)

/-- A command buffer's text. -/
def bufferText : List Byte → List Byte
  | [] => [0x5B, 0x5D]
  | b :: bs => 0x5B :: (numberText b.toNat ++ bufferRestText bs)

/-- A command with one operand. -/
def unaryText (k : Keyword) (n : Nat) : List Byte := k.text ++ 0x20 :: numberText n

/-- A command with two operands. -/
def binaryText (k : Keyword) (m n : Nat) : List Byte :=
  k.text ++ 0x20 :: (numberText m ++ 0x2C :: 0x20 :: numberText n)

/-- The command line of an operation, written from R64's table. -/
def encode : Instr → List Byte
  | .regRead o       => unaryText .rdreg o.toNat
  | .regWrite o v    => binaryText .wrreg o.toNat v.toNat
  | .readPins        => Keyword.rdpins.text
  | .writePins d     => unaryText .wrpins d.toNat
  | .writePins2 h l  => binaryText .wrpins2 h.toNat l.toNat
  | .setDirections m => unaryText .setdir m.toNat
  | .setBase p       => unaryText .setbase p.toNat
  | .encodeByte b    => unaryText .encode b.toNat
  | .emitElement e   => unaryText .emit e.toNat
  | .emitFrame b     => unaryText .frame b.toNat
  | .ctsCheck        => Keyword.ctscheck.text
  | .restoreIdle     => Keyword.idle.text
  | .transmit buf    => Keyword.tx.text ++ 0x20 :: bufferText buf
  | .lineInit        => Keyword.init.text
  | .delay .us n     => unaryText .delayUs n
  | .delay .ms n     => unaryText .delayMs n
  | .now             => Keyword.now.text

/-! ### The opcode table's words -/

/-- The command line of a word of spec/opcode_table.json. The table numbers the bits of a 32-bit bus address: a port
row or a register row gives `page` in bits 31..24 and the 24-bit register offset below. The page is the context's own,
so it is no operand (R51: "operand[31:24] ignored"). Above the address the model lays the data word in bits 63..32 and
the direction in bit 64, 1 for a write (DESIGN CHOICE, log 12). A row without bits gives an empty line. -/
def tableLine (nbits w : Nat) : List Byte :=
  if nbits = 0 then []
  else
    let bits := w % 2 ^ nbits
    let off : Word := BitVec.ofNat 32 (bits % 2 ^ 24)
    if (bits / 2 ^ 64) % 2 = 1 then encode (.regWrite off (BitVec.ofNat 32 (bits / 2 ^ 32)))
    else encode (.regRead off)

/-- The instruction the decoder reads from a word of spec/opcode_table.json. -/
def decodeTableWord (nbits w : Nat) : Option Instr :=
  match decode (tableLine nbits w) with
  | .op i => some i
  | _     => none

end Sys2Proof
end

