-- ==== Sys2Proof/Machine/Fetch.lean ====
section
/-! DEFINITION. Where the next operation comes from: the block fetches nothing (20_memory.md R47); the host issues command
lines, one at a time (60_exceptions.md R121; log 9). -/

namespace Sys2Proof.Machine

/-- What the host does next. -/
inductive HostNext where
  /-- No command line: the block waits (70_reset_and_hazards.md R126). -/
  | waits
  /-- The next command line, decoded, and the lines after it. -/
  | line (d : Decoded) (rest : List (List Byte))
deriving DecidableEq, Repr

/-- The host's next command line. -/
def State.hostNext (s : State) : HostNext :=
  match s.host with
  | [] => .waits
  | l :: rest => .line (decode l) rest

/-- The state with one command line taken from the host. -/
def State.issued (s : State) (rest : List (List Byte)) : State := { s with host := rest }

/-- Put a word of the opcode table, as a command line, in front of what the host issues. -/
def State.pushTableWord (s : State) (nbits w : Nat) : State := { s with host := tableLine nbits w :: s.host }

end Sys2Proof.Machine
end

