-- ==== Sys2Proof/Machine/Step.lean ====
section
/-! DEFINITION. One step of the machine. -/

namespace Sys2Proof.Machine

/-- One step. Nothing runs once `Fault` or `Refused` is set or when the configuration is ill-formed. A LINE_INIT that is
polling goes on, since no operation may start while another is running (70_reset_and_hazards.md R137). Otherwise the
host's next command line is taken: an operation runs, a line without one is passed over, and any other line is refused
as `Unmodelled(name)` (60_exceptions.md R111). With no line left the block waits, unchanged (R126). -/
def step (s : State) : Host.Outcome State Fault Refusal :=
  match s.initState with
  | .polling _ => exec .lineInit s
  | _ =>
      match s.hostNext with
      | .waits => s.guarded (.next s)
      | .line (.op i) rest => exec i (s.issued rest)
      | .line .blank rest => s.guarded (.next (s.issued rest))
      | .line (.unmodelled name) _ => s.guarded (.refused (.unmodelled name))

/-- `s` with the instruction of a word of spec/opcode_table.json as the host's next command line. The next step runs it
in every state in which a step issues an operation: one with neither `Fault` nor `Refused` set, a well-formed
configuration and no LINE_INIT under way, the reset state among them. -/
def State.withFetchWord (s : State) (nbits w : Nat) : State := s.pushTableWord nbits w

end Sys2Proof.Machine
end

