-- ==== Sys2Proof/Machine/Perform.lean ====
section
/-! DEFINITION. What an operation and a step perform, with the state at a stop: the same meanings `exec` and `step` run,
before the host's outcome drops that state (10_state.md R26, 60_exceptions.md R110, R111; log 14). -/

namespace Sys2Proof.Machine

/-- What operation `i` performs at `s`, one step of it. -/
def perform (i : Instr) (s : State) : Run (Option Returned) :=
  match i with
  | .regRead o       => performRegRead o s
  | .regWrite o v    => performRegWrite o v s
  | .readPins        => performReadPins s
  | .writePins d     => performWritePins d s
  | .writePins2 h l  => performWritePins2 h l s
  | .setDirections m => performSetDirections m s
  | .setBase p       => performSetBase p s
  | .encodeByte b    => performEncodeByte b s
  | .emitElement e   => performEmitElement e s
  | .emitFrame b     => performEmitFrame b s
  | .ctsCheck        => performCtsCheck s
  | .restoreIdle     => performRestoreIdle s
  | .transmit buf    => performTransmit buf s
  | .lineInit        => performLineInit s
  | .delay u n       => performDelay u n s
  | .now             => performNow s

/-- The guard before a step, with the state at its stop: a run that is stopped stays as it is (10_state.md R26), and a
configuration that fails a check sets `Refused` (60_exceptions.md R112, R111). -/
def State.entered {α : Type} (s : State) (k : Run α) : Run α :=
  match s.fault with
  | some r => .fault r s
  | none =>
      match s.refused with
      | some r => .refused r s
      | none =>
          match s.cfg.failing with
          | some c => s.refuse (.badConfig c)
          | none   => k

/-- What a step performs, with the state at a stop. A command line that the table does not have sets `Refused` to
`Unmodelled(name)` (R111); the line is taken from the host, as that of an operation is (log 14). -/
def performStep (s : State) : Run (Option Returned) :=
  s.entered
    (match s.initState with
     | .polling _ => perform .lineInit s
     | _ =>
         match s.hostNext with
         | .waits => .done none s
         | .line (.op i) rest => perform i (s.issued rest)
         | .line .blank rest => .done none (s.issued rest)
         | .line (.unmodelled name) rest => (s.issued rest).refuse (.unmodelled name))

end Sys2Proof.Machine
end

