-- ==== Sys2Proof/Safety.lean ====
section
/-! DEFINITION. The terms that claims about the machine use: when it runs, what it can reach, what it has recorded, how its
pin writes are spaced, and the invariant its steps keep. -/

namespace Sys2Proof.Machine

/-! ### When an operation runs -/

/-- A step is enabled: nothing has stopped the machine (10_state.md R26) and its configuration is well-formed (R112). -/
abbrev State.Enabled (s : State) : Prop := s.fault = none ∧ s.refused = none ∧ s.cfg.failing = none

/-- The context addresses the device: the two copies of the page agree (10_state.md R16). -/
abbrev State.Addressed (s : State) : Prop := s.ctxBasePage = s.devBasePage

/-- The address of a port at the context's page is accessible (20_memory.md R38). -/
abbrev State.Reaches (s : State) (off : Half) : Prop := s.cfg.accessible (s.portAddress off) = true

/-- A LINE_INIT is under way: its sequencer is polling (10_state.md R24). -/
def State.polling (s : State) : Bool :=
  match s.initState with
  | .polling _ => true
  | _ => false

/-! ### The clock's progress -/

/-- The block waits for the host: no LINE_INIT is under way and no command line is left (70_reset_and_hazards.md R126). The
step then answers the same state and is no step of a run (log 22). -/
abbrev State.Waits (s : State) : Prop := s.polling = false ∧ s.host = []

/-- The run from `s` is infinite: it never stops, and it never comes to wait for the host. -/
def State.RunsForever (s : State) : Prop := ∀ k, ∃ t : State, Sys2Proof.core.run k s = .next t ∧ ¬ t.Waits

/-- `clock_progress` of the run from `s` (42_line_init.md R106): if it is infinite, `Now` is unbounded in it. -/
def State.ClockProgress (s : State) : Prop :=
  s.RunsForever → ∀ bound, ∃ (k : Nat) (t : State), Sys2Proof.core.run k s = .next t ∧ bound ≤ t.now

/-- The fairness assumption `clock_progress` (R106, 60_exceptions.md R121; decision D26): in every infinite run, `Now` is
unbounded. It is an assumption on the outside world's draws. No meaning uses it; a claim that the poll loop ends takes it as
a premise, of its own run or of every run. -/
def ClockProgress : Prop := ∀ s : State, s.ClockProgress

/-! ### What an operation is given and what it emits -/

/-- The word READ_PINS returns: the pin word in its lane at the device's page, a draw elsewhere (R71, R67). -/
def State.readPinsWord (s : State) : Word :=
  if s.ctxBasePage = s.devBasePage then readWord s.cfg (s.pinWord s.busDraw) s.busDraw.otherHalf
  else s.busDraw.outside

/-- The elements of a byte's frame as the table of 30_encoding.md R56 lists them: start, eight data bits with the least
significant first, stop. -/
def frameTable (cfg : Cfg) (b : Byte) : List Byte :=
  cfg.encStart :: (List.range 8).map (fun i => if b.getLsbD i then cfg.encOne else cfg.encZero) ++ [cfg.encStop]

/-- The pin words of a byte's frame: each element zero-extended (R58; the widening is the spec's decision D8). -/
def frameWords (cfg : Cfg) (b : Byte) : List Half := (frameTable cfg b).map fun e => e.setWidth 16

/-! ### What is recorded -/

/-- The time of an event. -/
def Event.time : Event → Nat
  | .access t _ _ _ => t
  | .pins t _ => t

/-- The `Pins` events of a trace: times and pin words (10_state.md R27). -/
def pinsEvents (trace : List Event) : List (Nat × Half) :=
  trace.filterMap fun e => match e with
    | .pins t l => some (t, l)
    | .access .. => none

/-- The data words of the read accesses of a trace. -/
def readsOf (trace : List Event) : List Word :=
  trace.filterMap fun e => match e with
    | .access _ .read _ d => some d
    | _ => none

/-- The bus accesses of a trace. -/
def accessesOf (trace : List Event) : List Event :=
  trace.filter fun e => match e with
    | .access .. => true
    | .pins .. => false

/-- The TX waveform: the sequence of `(t, OutLatch[TX_BIT])` at the `Pins` events (R27). -/
def txWaveform (cfg : Cfg) (trace : List Event) : List (Nat × Bool) :=
  (pinsEvents trace).map fun p => (p.1, p.2.getLsbD cfg.txBit)

/-- What a state recorded after an earlier one. -/
def newEvents (before after : State) : List Event := after.trace.drop before.trace.length

/-- The word of the last `Pins` event, if there is one. -/
def lastPins (trace : List Event) : Option Half := (pinsEvents trace).getLast?.map (·.2)

/-- Times that stand at least `d` apart, one after the other. -/
def spacedBy (d : Nat) : List Nat → Prop
  | a :: b :: rest => a + d ≤ b ∧ spacedBy d (b :: rest)
  | _ => True

/-! ### The invariant -/

/-- What every step keeps: the latch is the last pin word recorded, the record is in time order and no later than the
clock, everything recorded was accessible, and between two steps nothing has stopped, the transmitter rests, and the
line-initialisation sequencer rests or polls from a time that has passed. -/
structure State.Inv (s : State) : Prop where
  latch     : s.outLatch = lastPins s.trace
  ordered   : (s.trace.map Event.time).Pairwise (· ≤ ·)
  past      : ∀ e ∈ s.trace, e.time ≤ s.now
  issued    : ∀ t dir a d, Event.access t dir a d ∈ s.trace → s.cfg.accessible a = true
  runs      : s.fault = none ∧ s.refused = none
  txRests   : s.txPhase = .txIdle ∨ ∃ n, s.txPhase = .txDone n
  initRests : s.initState = .unconfigured ∨ s.initState = .ready ∨ s.initState = .timedOut ∨
    ∃ t0, s.initState = .polling t0 ∧ t0 ≤ s.now

end Sys2Proof.Machine
end

