-- ==== Sys2Proof/Certificates/Slice0/Obligations.lean ====
section
/-! DEFINITION. The statements about the model. Each docstring names the rule of spec/ it rests on; where a statement
rests on a decision the spec marks as its own, or on a choice of the model, the docstring says so. -/

open Sys2Proof Sys2Proof.Machine

/-! ### Decoding the host's command lines -/

/-- Decoding an encoded operation gives it back, for every operation and every operand (30_encoding.md R64; the syntax is
the spec's decision D28, the spelling the model's, log 10 and log 11). -/
def Obligations.DecodingAnEncodedOperationGivesItBack : Prop :=
  ∀ i : Instr, decode (encode i) = .op i

/-- A few lines in the syntax of 30_encoding.md R64 (D28), byte by byte: `wrreg 0x00400020, 0x00340034`, `tx [0x41, 0x54]`,
`delay_us 50`, `idle  ; c` with a comment, and `tx []`. That a line is ASCII bytes and which bytes separate is the model's
choice (log 10). -/
def Obligations.SampleCommandLinesDecode : Prop :=
  decode [0x77, 0x72, 0x72, 0x65, 0x67, 0x20, 0x30, 0x78, 0x30, 0x30, 0x34, 0x30, 0x30, 0x30, 0x32, 0x30, 0x2C, 0x20,
      0x30, 0x78, 0x30, 0x30, 0x33, 0x34, 0x30, 0x30, 0x33, 0x34] = .op (.regWrite 0x00400020 0x00340034) ∧
  decode [0x74, 0x78, 0x20, 0x5B, 0x30, 0x78, 0x34, 0x31, 0x2C, 0x20, 0x30, 0x78, 0x35, 0x34, 0x5D] =
    .op (.transmit [0x41, 0x54]) ∧
  decode [0x64, 0x65, 0x6C, 0x61, 0x79, 0x5F, 0x75, 0x73, 0x20, 0x35, 0x30] = .op (.delay .us 50) ∧
  decode [0x69, 0x64, 0x6C, 0x65, 0x20, 0x20, 0x3B, 0x20, 0x63] = .op .restoreIdle ∧
  decode [0x74, 0x78, 0x20, 0x5B, 0x5D] = .op (.transmit [])

/-- A line whose first word is no command name of R64's table is `Unmodelled` under that name, whatever white space stands
before it and whatever follows it: nothing, or any line that goes on with a byte of no word (60_exceptions.md R111; the
refusal is the spec's decision D22, the lexical form the model's, log 10). -/
def Obligations.UnknownCommandNamesAreUnmodelled : Prop :=
  ∀ (blanks name rest : List Byte), (∀ c ∈ blanks, isBlankByte c = true) → name ≠ [] →
    (∀ c ∈ name, isWordByte c = true) → (∀ c ∈ rest.head?, isWordByte c = false) → (∀ k : Keyword, k.text ≠ name) →
    decode (blanks ++ name ++ rest) = .unmodelled name

/-! ### The step -/

/-- A step runs the decoded operation: with no LINE_INIT under way, a step at a state whose first command line decodes
to `i` is `exec i` at that state without the line (60_exceptions.md R121, 70_reset_and_hazards.md R137; the queue of
lines is the model's, log 9). -/
def Obligations.StepRunsTheDecodedOperation : Prop :=
  ∀ (s : State) (line : List Byte) (rest : List (List Byte)) (i : Instr),
    s.polling = false → s.host = line :: rest → decode line = .op i → step s = exec i { s with host := rest }

/-- What a step does when the host gives it no operation: it waits unchanged without a line, passes over a line without
an operation, and refuses a line the table does not have (70_reset_and_hazards.md R126, 60_exceptions.md R111). The queue of
lines is the model's (log 9), a line without an operation is its choice (log 10), and that a waiting step leaves the whole
state as it is, `Now` included, is its deduction (log 20). -/
def Obligations.StepWithoutAnOperation : Prop :=
  ∀ s : State, s.Enabled → s.polling = false →
    (s.host = [] → step s = .next s) ∧
    (∀ line rest, s.host = line :: rest → decode line = .blank → step s = .next { s with host := rest }) ∧
    (∀ line rest name, s.host = line :: rest → decode line = .unmodelled name → step s = .refused (.unmodelled name))

/-- While LINE_INIT polls, a step goes on with it, whatever the host has queued (70_reset_and_hazards.md R137; that one
step is one iteration is the model's choice, log 15). -/
def Obligations.StepContinuesAPollingLineInit : Prop :=
  ∀ s : State, s.polling = true → step s = exec .lineInit s

/-- A stopped machine stays stopped: with `Fault` set every step and every operation answers that fault, and with only
`Refused` set that refusal (10_state.md R26, 60_exceptions.md R108; the spec's decision D30). -/
def Obligations.StoppedMachineStaysStopped : Prop :=
  ∀ s : State,
    (∀ r, s.fault = some r → step s = .fault r ∧ ∀ i, exec i s = .fault r) ∧
    (∀ r, s.fault = none → s.refused = some r → step s = .refused r ∧ ∀ i, exec i s = .refused r)

/-- An ill-formed configuration is refused before anything runs (60_exceptions.md R112, decisions D5 and D7; which of
several failing checks is named is the model's choice, log 16). -/
def Obligations.IllFormedConfigurationIsRefused : Prop :=
  ∀ (s : State) (c : ConfigCheck), s.fault = none → s.refused = none → s.cfg.failing = some c →
    c.passes s.cfg = false ∧ step s = .refused (.badConfig c) ∧ ∀ i, exec i s = .refused (.badConfig c)

/-- A configuration is well-formed exactly when the ten facts of 00_scope.md R6 hold (decisions D2, D4, D5, D7). -/
def Obligations.WellFormedMeansTheTenChecks : Prop :=
  ∀ cfg : Cfg, cfg.failing = none ↔
    (cfg.offReadPins ≠ cfg.offSetBase ∧ cfg.offReadPins ≠ cfg.offSetDirections ∧ cfg.offReadPins ≠ cfg.offWritePins ∧
      cfg.offSetBase ≠ cfg.offSetDirections ∧ cfg.offSetBase ≠ cfg.offWritePins ∧
      cfg.offSetDirections ≠ cfg.offWritePins) ∧
    (cfg.txBit.val ≠ cfg.rtsBit.val ∧ cfg.txBit.val ≠ cfg.ctsBit.val ∧ cfg.rtsBit.val ≠ cfg.ctsBit.val) ∧
    cfg.dirMask.getLsbD cfg.txBit = true ∧ cfg.dirMask.getLsbD cfg.ctsBit = false ∧
    cfg.dirMask.getLsbD cfg.rtsBit = true ∧ cfg.idlePattern.getLsbD cfg.txBit = true ∧
    cfg.idlePattern.getLsbD cfg.rtsBit = true ∧
    (∀ k, 4 ≤ k → k < 8 → cfg.encOne.getLsbD k = cfg.encZero.getLsbD k) ∧
    (∀ k, k < 8 → (cfg.encOne.getLsbD k ≠ cfg.encZero.getLsbD k ↔ k = cfg.txBit.val)) ∧
    0 < cfg.bitPeriodUs

/-- Every meaning is the guard, then what its operation performs: the statements about `perform`, which keeps the state
at a stop, are statements about `exec` (00_scope.md R9; log 14). -/
def Obligations.MeaningIsGuardedPerformance : Prop :=
  ∀ (i : Instr) (s : State), exec i s = s.guarded (perform i s).outcome

/-- Every step answers the outcome of what it performs, so that statements about `performStep`, which keeps the state at a
stop, are statements about `step` (00_scope.md R9; log 14). -/
def Obligations.StepIsTheOutcomeOfItsPerformance : Prop :=
  ∀ s : State, step s = (performStep s).outcome

/-- A stop of a step is set in the state it leaves, and ends the run: a fault sets `Fault`, a refusal sets `Refused`, and
every step from that state answers it (60_exceptions.md R107, R108, R111, R112, 10_state.md R26). A line the table does not
have sets `Refused` to `Unmodelled(name)` and changes nothing else but the line's place in the queue (log 9, log 14); an
ill-formed configuration sets it to `BadConfig(check)` and changes nothing else. -/
def Obligations.StopsAreSetInTheState : Prop :=
  ∀ s : State,
    (∀ r t, performStep s = .fault r t → t.fault = some r ∧ step t = .fault r) ∧
    (∀ r t, performStep s = .refused r t → t.refused = some r ∧ step t = .refused r) ∧
    (s.Enabled → s.polling = false → ∀ line rest name, s.host = line :: rest → decode line = .unmodelled name →
      performStep s = .refused (.unmodelled name) { s with host := rest, refused := some (.unmodelled name) }) ∧
    (∀ c, s.fault = none → s.refused = none → s.cfg.failing = some c →
      performStep s = .refused (.badConfig c) { s with refused := some (.badConfig c) })

/-! ### Addresses and transactions -/

/-- The address law (20_memory.md R35): the page above the low 24 bits of the offset, the offset's upper byte
discarded; and every access an operation records is at the page the context held when the operation began. -/
def Obligations.AddressesAreThePageOverTheOffset : Prop :=
  (∀ (p : Byte) (o : Word), addressOf p o = (p.setWidth 32 <<< 24) ||| (o &&& 0x00FFFFFF#32) ∧
    addressOf p o = p ++ o.extractLsb' 0 24 ∧
    ∀ o' : Word, o'.extractLsb' 0 24 = o.extractLsb' 0 24 → addressOf p o' = addressOf p o) ∧
  (∀ (s : State) (o : Word), s.regAddress o = addressOf s.ctxBasePage o) ∧
  (∀ (i : Instr) (s : State) (t : Nat) (dir : Dir) (a d : Word),
    Event.access t dir a d ∈ newEvents s (perform i s).endState → ∃ o, a = addressOf s.ctxBasePage o)

/-- A port's register offset and physical address (20_memory.md R36). -/
def Obligations.PortAddressFields : Prop :=
  ∀ (s : State) (off : Half),
    portReg s.cfg off =
      (((s.cfg.portWindow.setWidth 24 <<< 16) ||| off.setWidth 24 : BitVec 24)).setWidth 32 ∧
    s.portAddress off = addressOf s.ctxBasePage (portReg s.cfg off) ∧
    s.portAddress off = s.ctxBasePage ++ (s.cfg.portWindow ++ off)

/-- The decode of a bus transaction (30_encoding.md R66, with the port map R55 and the refusals R61, decision D22): outside
the device's window nothing is the block's; inside it, each legal pair of offset and direction is its port's, and every
other pair is no port. -/
def Obligations.BusTransactionsDecodeByThePortMap : Prop :=
  ∀ (cfg : Cfg) (dev : Byte) (a : Word) (dir : Dir) (data : Word), cfg.failing = none →
    let inside := a.extractLsb' 24 8 = dev ∧ a.extractLsb' 16 8 = cfg.portWindow
    let off : Half := a.extractLsb' 0 16
    let op := busDecode cfg dev a dir data
    (¬ inside → op = .outside) ∧
    (inside → dir = .read → off = cfg.offReadPins → op = .readPins) ∧
    (inside → dir = .write → off = cfg.offWritePins →
      op = if highHalf data = lowHalf data then .writePins else .writePins2) ∧
    (inside → dir = .write → off = cfg.offSetDirections → op = .setDirections) ∧
    (inside → dir = .write → off = cfg.offSetBase → op = .setBase) ∧
    (inside → dir = .read → off ≠ cfg.offReadPins → op = .undefinedPort) ∧
    (inside → dir = .write → off ≠ cfg.offWritePins → off ≠ cfg.offSetDirections → off ≠ cfg.offSetBase →
      op = .undefinedPort)

/-- An access that fails the check issues nothing and faults with its address; one that is done issued exactly one
transaction, recorded at its address, in its direction and at the new clock (20_memory.md R38, 40_port_ops.md R67 and
R80; the access time is the spec's decision D41). -/
def Obligations.OneAccessIsCheckedAndIssuedOnce : Prop :=
  ∀ (a : Word) (dir : Dir) (data : Word) (s : State),
    (s.cfg.accessible a = false →
      access a dir data s = .fault (.fatalAddress a) { s with fault := some (.fatalAddress a) }) ∧
    (∀ w t, access a dir data s = .done w t →
      s.cfg.accessible a = true ∧ t.now = s.now + s.busDraw.delta ∧
      accessesOf (newEvents s t) = [.access t.now dir a (match dir with | .read => w | .write => data)]) ∧
    (∀ r t, access a dir data s = .refused r t → s.cfg.accessible a = true ∧ t = { s with refused := some r })

/-! ### Register and port operations -/

/-- REG_READ (40_port_ops.md R68, R65, R67; decisions D22, D40): outside the port window it returns a draw and changes
only the clock, the draws, the record and the returns; at read-pins it is READ_PINS; at any other offset of the window it
is refused. -/
def Obligations.RegReadCompletes : Prop :=
  ∀ (o : Word) (s : State), s.Enabled → s.cfg.accessible (s.regAddress o) = true →
    (inWindow s.cfg s.devBasePage (s.regAddress o) = false →
      exec (.regRead o) s = .next { s with
        now := s.now + s.busDraw.delta
        env := Env.afterBus s.env
        trace := s.trace ++ [.access (s.now + s.busDraw.delta) .read (s.regAddress o) s.busDraw.outside]
        returns := s.returns ++ [.word s.busDraw.outside] }) ∧
    (inWindow s.cfg s.devBasePage (s.regAddress o) = true → offsetOf (s.regAddress o) = s.cfg.offReadPins →
      exec (.regRead o) s = exec .readPins s) ∧
    (inWindow s.cfg s.devBasePage (s.regAddress o) = true → offsetOf (s.regAddress o) ≠ s.cfg.offReadPins →
      exec (.regRead o) s = .refused (.undefinedPort (s.regAddress o) .read))

/-- REG_WRITE (40_port_ops.md R69, R65, R81; decisions D11, D22, D23, D40): outside the port window it changes no state of
the block; at write-pins it is WRITE_PINS2 of its halves; at set-directions equal halves set the mask; at set-base a page
in both halves moves the device's page and not the context's (log 17); at read-pins or an undefined offset it is refused. -/
def Obligations.RegWriteCompletes : Prop :=
  ∀ (o v : Word) (s : State), s.Enabled → s.cfg.accessible (s.regAddress o) = true →
    let a := s.regAddress o
    let t := s.now + s.busDraw.delta
    let inside := inWindow s.cfg s.devBasePage a = true
    (¬ inside → exec (.regWrite o v) s = .next { s with
        now := t
        env := Env.afterBus s.env
        trace := s.trace ++ [.access t .write a v]
        returns := s.returns ++ [.nothing] }) ∧
    (inside → offsetOf a = s.cfg.offWritePins →
      exec (.regWrite o v) s = exec (.writePins2 (highHalf v) (lowHalf v)) s) ∧
    (inside → offsetOf a = s.cfg.offSetDirections → highHalf v = lowHalf v →
      exec (.regWrite o v) s = .next { s with
        dirMask := some (lowHalf v)
        now := t
        env := Env.afterBus s.env
        trace := s.trace ++ [.access t .write a v]
        returns := s.returns ++ [.nothing] }) ∧
    (∀ p : Byte, inside → offsetOf a = s.cfg.offSetBase → v = baseWord p →
      exec (.regWrite o v) s = .next { s with
        devBasePage := p
        now := t
        env := Env.afterBus s.env
        trace := s.trace ++ [.access t .write a v]
        returns := s.returns ++ [.nothing] }) ∧
    (inside → offsetOf a ≠ s.cfg.offWritePins → offsetOf a ≠ s.cfg.offSetDirections → offsetOf a ≠ s.cfg.offSetBase →
      exec (.regWrite o v) s = .refused (.undefinedPort a .write))

/-- Data that a port does not take as it stands (30_encoding.md R54, R62; decisions D11, D23): unequal halves at
set-directions, and anything but a page in both halves at set-base, are refused without a merge function; with one the
port takes the merged half, or its low byte (log 17). -/
def Obligations.RawWritesWithUnusualData : Prop :=
  ∀ (o v : Word) (s : State), s.Enabled → s.cfg.accessible (s.regAddress o) = true →
    inWindow s.cfg s.devBasePage (s.regAddress o) = true →
    let a := s.regAddress o
    let t := s.now + s.busDraw.delta
    (offsetOf a = s.cfg.offSetDirections → highHalf v ≠ lowHalf v →
      (s.cfg.pairedWrite = .refuse →
        exec (.regWrite o v) s = .refused (.unequalHalves s.cfg.offSetDirections (highHalf v) (lowHalf v))) ∧
      (∀ m, s.cfg.pairedWrite.result (highHalf v) (lowHalf v) = some m →
        exec (.regWrite o v) s = .next { s with
          dirMask := some m
          now := t
          env := Env.afterBus s.env
          trace := s.trace ++ [.access t .write a v]
          returns := s.returns ++ [.nothing] })) ∧
    (offsetOf a = s.cfg.offSetBase → (∀ p : Byte, v ≠ baseWord p) →
      (s.cfg.pairedWrite = .refuse → exec (.regWrite o v) s = .refused (.badBaseData v)) ∧
      (∀ m, s.cfg.pairedWrite.result (highHalf v) (lowHalf v) = some m →
        exec (.regWrite o v) s = .next { s with
          devBasePage := m.extractLsb' 0 8
          now := t
          env := Env.afterBus s.env
          trace := s.trace ++ [.access t .write a v]
          returns := s.returns ++ [.nothing] }))

/-- READ_PINS (40_port_ops.md R71, 30_encoding.md R53; decisions D12, D31): it completes and changes nothing but the clock,
the draws, the record and the returns; at the device's page the word carries the pin word in its lane, elsewhere it is a
draw. -/
def Obligations.ReadPinsCompletes : Prop :=
  ∀ s : State, s.Enabled → s.Reaches s.cfg.offReadPins →
    ∃ w : Word, exec .readPins s = .next { s with
        now := s.now + s.busDraw.delta
        env := Env.afterBus s.env
        trace := s.trace ++ [.access (s.now + s.busDraw.delta) .read (s.portAddress s.cfg.offReadPins) w]
        returns := s.returns ++ [.word w] } ∧
      (s.Addressed → s.cfg.readLane = .low → lowHalf w = s.pinWord s.busDraw ∧ highHalf w = s.busDraw.otherHalf) ∧
      (s.Addressed → s.cfg.readLane = .high → highHalf w = s.pinWord s.busDraw ∧ lowHalf w = s.busDraw.otherHalf) ∧
      (¬ s.Addressed → w = s.busDraw.outside)

/-- The bits of the pin word (40_port_ops.md R71, R77; decision D13): an input pin gives the sample, an output pin a draw,
or the latched bit where the configuration reads the latch back; without a mask, or without a latch, a draw. -/
def Obligations.PinWordBits : Prop :=
  ∀ (s : State) (d : BusDraw) (i : Fin 16),
    (s.dirMask = none → (s.pinWord d).getLsbD i = d.floating.getLsbD i) ∧
    (∀ m, s.dirMask = some m → m.getLsbD i = false → (s.pinWord d).getLsbD i = d.sample.getLsbD i) ∧
    (∀ m, s.dirMask = some m → m.getLsbD i = true →
      (s.cfg.outputReadback = .draw → (s.pinWord d).getLsbD i = d.floating.getLsbD i) ∧
      (s.cfg.outputReadback = .latch → s.outLatch = none → (s.pinWord d).getLsbD i = d.floating.getLsbD i) ∧
      (∀ l, s.cfg.outputReadback = .latch → s.outLatch = some l → (s.pinWord d).getLsbD i = l.getLsbD i))

/-- WRITE_PINS (40_port_ops.md R72, 10_state.md R27; decision D14): at the device's page the latch takes the word, and the
access and the `Pins` event are recorded, the access first (that order is the model's choice, log 19); elsewhere only the
access is. Nothing else changes. -/
def Obligations.WritePinsCompletes : Prop :=
  ∀ (d : Half) (s : State), s.Enabled → s.Reaches s.cfg.offWritePins →
    let t := s.now + s.busDraw.delta
    let a := s.portAddress s.cfg.offWritePins
    (s.Addressed → exec (.writePins d) s = .next { s with
        outLatch := some d
        now := t
        env := Env.afterBus s.env
        trace := s.trace ++ [.access t .write a (d ++ d), .pins t d]
        returns := s.returns ++ [.nothing] }) ∧
    (¬ s.Addressed → exec (.writePins d) s = .next { s with
        now := t
        env := Env.afterBus s.env
        trace := s.trace ++ [.access t .write a (d ++ d)]
        returns := s.returns ++ [.nothing] })

/-- WRITE_PINS2 (40_port_ops.md R73; decision D11): with equal halves it is WRITE_PINS; with unequal halves at the device's
page it is refused without a merge function and latches the merged half with one; elsewhere only the access is
recorded. That the access stands before its `Pins` event is the model's choice (log 19). -/
def Obligations.WritePins2Completes : Prop :=
  ∀ (hi lo : Half) (s : State), s.Enabled → s.Reaches s.cfg.offWritePins →
    let t := s.now + s.busDraw.delta
    let a := s.portAddress s.cfg.offWritePins
    (hi = lo → exec (.writePins2 hi lo) s = exec (.writePins lo) s) ∧
    (hi ≠ lo → s.Addressed → s.cfg.pairedWrite = .refuse →
      exec (.writePins2 hi lo) s = .refused (.unequalHalves s.cfg.offWritePins hi lo)) ∧
    (∀ v, hi ≠ lo → s.Addressed → s.cfg.pairedWrite.result hi lo = some v →
      exec (.writePins2 hi lo) s = .next { s with
        outLatch := some v
        now := t
        env := Env.afterBus s.env
        trace := s.trace ++ [.access t .write a (hi ++ lo), .pins t v]
        returns := s.returns ++ [.nothing] }) ∧
    (¬ s.Addressed → exec (.writePins2 hi lo) s = .next { s with
        now := t
        env := Env.afterBus s.env
        trace := s.trace ++ [.access t .write a (hi ++ lo)]
        returns := s.returns ++ [.nothing] })

/-- SET_DIRECTIONS (40_port_ops.md R75; decision D14): at the device's page the mask takes the word, any word; elsewhere
only the access is recorded. Nothing else changes. -/
def Obligations.SetDirectionsCompletes : Prop :=
  ∀ (m : Half) (s : State), s.Enabled → s.Reaches s.cfg.offSetDirections →
    let t := s.now + s.busDraw.delta
    let a := s.portAddress s.cfg.offSetDirections
    (s.Addressed → exec (.setDirections m) s = .next { s with
        dirMask := some m
        now := t
        env := Env.afterBus s.env
        trace := s.trace ++ [.access t .write a (m ++ m)]
        returns := s.returns ++ [.nothing] }) ∧
    (¬ s.Addressed → exec (.setDirections m) s = .next { s with
        now := t
        env := Env.afterBus s.env
        trace := s.trace ++ [.access t .write a (m ++ m)]
        returns := s.returns ++ [.nothing] })

/-- SET_BASE (40_port_ops.md R76, 30_encoding.md R54, 70_reset_and_hazards.md R131; decisions D23, D35, D36): the write is at
the old page; at the device's page both copies take the new one (that no merge function touches it is log 17), elsewhere only
the context's does. -/
def Obligations.SetBaseCompletes : Prop :=
  ∀ (p : Byte) (s : State), s.Enabled → s.Reaches s.cfg.offSetBase →
    let t := s.now + s.busDraw.delta
    let a := s.portAddress s.cfg.offSetBase
    let data : Word := (p.setWidth 16 : Half) ++ (p.setWidth 16 : Half)
    (s.Addressed → exec (.setBase p) s = .next { s with
        devBasePage := p
        ctxBasePage := p
        now := t
        env := Env.afterBus s.env
        trace := s.trace ++ [.access t .write a data]
        returns := s.returns ++ [.nothing] }) ∧
    (¬ s.Addressed → exec (.setBase p) s = .next { s with
        ctxBasePage := p
        now := t
        env := Env.afterBus s.env
        trace := s.trace ++ [.access t .write a data]
        returns := s.returns ++ [.nothing] })

/-- The output function (10_state.md R20, 40_port_ops.md R74, R78; decisions D14, D34): without a mask every line is
undefined; an output pin has the latch's level, undefined without a latch; an input pin is the outside world's, whatever
the latch holds. -/
def Obligations.LinesFollowTheMask : Prop :=
  ∀ (s : State) (i : Fin 16),
    (s.dirMask = none → s.line i = .undefined) ∧
    (∀ m, s.dirMask = some m → m.getLsbD i = false → s.line i = .outside) ∧
    (∀ m, s.dirMask = some m → m.getLsbD i = true → s.outLatch = none → s.line i = .undefined) ∧
    (∀ m l, s.dirMask = some m → m.getLsbD i = true → s.outLatch = some l → s.line i = .driven (l.getLsbD i))

/-! ### The frame encoder -/

/-- The encoded frame (30_encoding.md R56): ten elements, the start element, for each bit of the byte the one or the zero
pattern with the least significant bit first, the stop element. -/
def Obligations.FrameHasTheTableElements : Prop :=
  ∀ (cfg : Cfg) (b : Byte),
    (frameOf cfg b).elements.length = 10 ∧
    (frameOf cfg b).elements[0]? = some cfg.encStart ∧
    (∀ i, i < 8 → (frameOf cfg b).elements[i + 1]? = some (if b.getLsbD i = true then cfg.encOne else cfg.encZero)) ∧
    (frameOf cfg b).elements[9]? = some cfg.encStop

/-- ENCODE_BYTE (41_frame_encoder.md R83): it completes for every byte, stores the frame of R56 and returns it, and
changes nothing else. -/
def Obligations.EncodeByteCompletes : Prop :=
  ∀ (b : Byte) (s : State), s.Enabled →
    ∃ f : Frame, exec (.encodeByte b) s = .next { s with frame := some f, returns := s.returns ++ [.encoded f] } ∧
      f.elements = frameTable s.cfg b

/-- Under a well-formed configuration the TX levels of a frame determine its byte (41_frame_encoder.md R95, 30_encoding.md
R57; decision D7). -/
def Obligations.TxLevelsDetermineTheByte : Prop :=
  ∀ (cfg : Cfg) (b b' : Byte), cfg.failing = none →
    (frameTable cfg b).map (fun e => e.getLsbD cfg.txBit) = (frameTable cfg b').map (fun e => e.getLsbD cfg.txBit) →
    b = b'

/-- EMIT_ELEMENT (41_frame_encoder.md R84, 42_line_init.md R105; decisions D8, D18, D19): the zero-extended element is
written as by WRITE_PINS, then at least a bit period passes; nothing else changes. That the access stands before its `Pins`
event is the model's choice (log 19). -/
def Obligations.EmitElementCompletes : Prop :=
  ∀ (e : Byte) (s : State), s.Enabled → s.Reaches s.cfg.offWritePins →
    let t := s.now + s.busDraw.delta
    let a := s.portAddress s.cfg.offWritePins
    let d : Half := e.setWidth 16
    (s.Addressed → ∃ t', t + s.cfg.bitPeriodUs ≤ t' ∧ exec (.emitElement e) s = .next { s with
        outLatch := some d
        now := t'
        env := Env.afterDelay (Env.afterBus s.env)
        trace := s.trace ++ [.access t .write a (d ++ d), .pins t d]
        returns := s.returns ++ [.nothing] }) ∧
    (¬ s.Addressed → ∃ t', t + s.cfg.bitPeriodUs ≤ t' ∧ exec (.emitElement e) s = .next { s with
        now := t'
        env := Env.afterDelay (Env.afterBus s.env)
        trace := s.trace ++ [.access t .write a (d ++ d)]
        returns := s.returns ++ [.nothing] })

/-- EMIT_FRAME (41_frame_encoder.md R85, R87; decisions D8, D19): ten writes, no read, and at the device's page the ten
elements in order, each standing at least a bit period; the frame is discarded after its byte (10_state.md R23; log 21);
nothing else changes. -/
def Obligations.EmitFrameCompletes : Prop :=
  ∀ (b : Byte) (s : State), s.Enabled → s.Reaches s.cfg.offWritePins →
    ∃ t : State, exec (.emitFrame b) s = .next t ∧
      t.frame = none ∧
      t.returns = s.returns ++ [.nothing] ∧
      (accessesOf (newEvents s t)).length = 10 ∧ readsOf (newEvents s t) = [] ∧
      (s.Addressed → t.outLatch = some (s.cfg.encStop.setWidth 16) ∧
        (pinsEvents (newEvents s t)).map (·.2) = frameWords s.cfg b ∧
        spacedBy s.cfg.bitPeriodUs ((pinsEvents (newEvents s t)).map (·.1) ++ [t.now])) ∧
      (¬ s.Addressed → t.outLatch = s.outLatch ∧ pinsEvents (newEvents s t) = []) ∧
      s.now + 10 * s.cfg.bitPeriodUs ≤ t.now ∧ s.trace <+: t.trace ∧
      t.cfg = s.cfg ∧ t.devBasePage = s.devBasePage ∧ t.ctxBasePage = s.ctxBasePage ∧ t.dirMask = s.dirMask ∧
      t.txPhase = s.txPhase ∧ t.initState = s.initState ∧ t.fault = s.fault ∧ t.refused = s.refused ∧ t.host = s.host

/-- A frame's emission does not look at the pins: whatever the peer drives while it lasts, the frame is the same
(41_frame_encoder.md R90). The listed draws may be changed in everything but the access times; that the coming draws are a
list is the model's form of a draw (log 5). -/
def Obligations.EmissionIgnoresThePeer : Prop :=
  ∀ (b : Byte) (s : State) (g : BusDraw → BusDraw), (∀ d, (g d).delta = d.delta) → 10 ≤ s.env.bus.length →
    exec (.emitFrame b) { s with env := { s.env with bus := s.env.bus.map g } } =
      match exec (.emitFrame b) s with
      | .next t => .next { t with env := { t.env with bus := t.env.bus.map g } }
      | .fault r => .fault r
      | .refused r => .refused r

/-- CTS_CHECK (41_frame_encoder.md R88, 10_state.md R21; decisions D15, D39): it is one READ_PINS, of the same word and the
same effects, and the answer is whether the CTS bit of that word's pin word is 0, whatever the mask; nothing else changes.
Where CTS is an input of the device addressed, that bit is the peer's. -/
def Obligations.CtsCheckCompletes : Prop :=
  ∀ s : State, s.Enabled → s.Reaches s.cfg.offReadPins →
    let w := s.readPinsWord
    let read (v : Returned) : State := { s with
      now := s.now + s.busDraw.delta
      env := Env.afterBus s.env
      trace := s.trace ++ [.access (s.now + s.busDraw.delta) .read (s.portAddress s.cfg.offReadPins) w]
      returns := s.returns ++ [v] }
    exec .readPins s = .next (read (.word w)) ∧
      exec .ctsCheck s = .next (read (.clear (!(pinWordOf s.cfg w).getLsbD s.cfg.ctsBit))) ∧
      (¬ s.Addressed → w = s.busDraw.outside) ∧
      (s.Addressed → ∀ m, s.dirMask = some m → m.getLsbD s.cfg.ctsBit = false →
        (pinWordOf s.cfg w).getLsbD s.cfg.ctsBit = s.busDraw.sample.getLsbD s.cfg.ctsBit)

/-- RESTORE_IDLE (41_frame_encoder.md R89): it is WRITE_PINS of the idle pattern, in every state and with every outcome;
it completes where write-pins is accessible; after it, at the device's page (70_reset_and_hazards.md R131), the latch holds
the idle pattern, and the TX and RTS lines are high (00_scope.md R6) where the mask makes them outputs (10_state.md R20). -/
def Obligations.RestoreIdleCompletes : Prop :=
  ∀ s : State, exec .restoreIdle s = exec (.writePins s.cfg.idlePattern) s ∧
    (s.Enabled → s.Reaches s.cfg.offWritePins →
      ∃ t : State, exec .restoreIdle s = .next t ∧ t.now = s.now + s.busDraw.delta ∧ t.dirMask = s.dirMask ∧
        (s.Addressed → t.outLatch = some s.cfg.idlePattern ∧
          ∀ m, s.dirMask = some m →
            (m.getLsbD s.cfg.txBit = true → t.line (s.cfg.txBit.castLE (by decide)) = .driven true) ∧
            (m.getLsbD s.cfg.rtsBit = true → t.line s.cfg.rtsBit = .driven true)))

/-! ### TRANSMIT -/

/-- TRANSMIT completes (41_frame_encoder.md R91, R92, R93, 30_encoding.md R63; decision D37): it returns the number of
checks that found CTS clear before the first that did not; a byte whose check fails is not sent; the transactions are
those R63 counts; the latch ends at the idle pattern; the frame is discarded after each byte (R91, 10_state.md R23); and
nothing else changes. -/
def Obligations.TransmitCompletesWithItsCount : Prop :=
  ∀ (buf : List Byte) (s : State), s.Enabled → s.Reaches s.cfg.offWritePins →
    (buf = [] ∨ s.Reaches s.cfg.offReadPins) →
    ∃ (t : State) (n : Nat), exec (.transmit buf) s = .next t ∧ t.returns = s.returns ++ [.sent n] ∧ n ≤ buf.length ∧
      t.txPhase = .txDone n ∧ t.frame = (if n = 0 then s.frame else none) ∧
      (accessesOf (newEvents s t)).length = n * 11 + (if n < buf.length then 1 else 0) + 1 ∧
      (readsOf (newEvents s t)).map (fun w => ctsClear s.cfg (pinWordOf s.cfg w)) =
        List.replicate n true ++ (if n < buf.length then [false] else []) ∧
      (s.Addressed → t.outLatch = some s.cfg.idlePattern) ∧ (¬ s.Addressed → t.outLatch = s.outLatch) ∧
      s.trace <+: t.trace ∧ t.cfg = s.cfg ∧ t.devBasePage = s.devBasePage ∧ t.ctxBasePage = s.ctxBasePage ∧
      t.dirMask = s.dirMask ∧ t.initState = s.initState ∧ t.fault = s.fault ∧ t.refused = s.refused ∧ t.host = s.host

/-- What TRANSMIT emits (41_frame_encoder.md R93, R95; decision D8): at the device's page the pin words are the frames of
the bytes it counts, in order, and then the idle pattern; so the TX waveform is their levels and then a high level, and the
TX line is high at the end where the mask makes it an output. -/
def Obligations.TransmitEmitsTheFramesItCounts : Prop :=
  ∀ (buf : List Byte) (s t : State), s.Addressed → exec (.transmit buf) s = .next t →
    ∃ n, t.returns = s.returns ++ [.sent n] ∧
      (pinsEvents (newEvents s t)).map (·.2) = (buf.take n).flatMap (frameWords s.cfg) ++ [s.cfg.idlePattern] ∧
      (txWaveform s.cfg (newEvents s t)).map (·.2) =
        (buf.take n).flatMap (fun b => (frameTable s.cfg b).map (fun e => e.getLsbD s.cfg.txBit)) ++ [true] ∧
      ∀ m, s.dirMask = some m → m.getLsbD s.cfg.txBit = true →
        t.line (s.cfg.txBit.castLE (by decide)) = .driven true

/-- Every level of a TRANSMIT's waveform but the last stands at least a bit period; and at every page, the device's or
another, the whole takes at least ten bit periods a byte sent (41_frame_encoder.md R87, R95, 10_state.md R27,
70_reset_and_hazards.md R133, R138; decisions D18, D19). -/
def Obligations.TransmitHoldsEveryElement : Prop :=
  ∀ (buf : List Byte) (s t : State), exec (.transmit buf) s = .next t →
    (s.Addressed → spacedBy s.cfg.bitPeriodUs ((txWaveform s.cfg (newEvents s t)).map (·.1))) ∧
    ∀ n, t.returns = s.returns ++ [.sent n] → s.now + n * (10 * s.cfg.bitPeriodUs) ≤ t.now

/-- TRANSMIT under a premise on the peer (41_frame_encoder.md R92, 10_state.md R19; 95_test_vectors.md W5; decision D15):
with CTS an input, if the peer drives CTS low at the first k checks and, when bytes are left, high at the next, TRANSMIT
returns k. The checks are the draws 0, 11, 22, and so on: each byte sent takes one read and ten writes, and that an access
takes one entry of the list of draws is the model's form of a draw (log 5). -/
def Obligations.TransmitStopsAtTheFirstClosedCheck : Prop :=
  ∀ (buf : List Byte) (s : State) (m : Half) (k : Nat), s.Enabled → s.Addressed →
    s.Reaches s.cfg.offWritePins → s.Reaches s.cfg.offReadPins →
    s.dirMask = some m → m.getLsbD s.cfg.ctsBit = false → k ≤ buf.length →
    (∀ j, j < k → ∃ d, s.env.bus[11 * j]? = some d ∧ d.sample.getLsbD s.cfg.ctsBit = false) →
    (k < buf.length → ∃ d, s.env.bus[11 * k]? = some d ∧ d.sample.getLsbD s.cfg.ctsBit = true) →
    ∃ t, exec (.transmit buf) s = .next t ∧ t.returns = s.returns ++ [.sent k]

/-! ### LINE_INIT and time -/

/-- LINE_INIT from its start (42_line_init.md R96 to R101; decisions D5, D6, D8, D32, D42): at the device's page the mask,
then the idle pattern, the ready pattern and the idle pattern again are written in that order, the last no earlier than
the settle time after the one before it; then polling starts at the clock's reading. Nothing else changes. That polling
goes on in later steps (log 15) and that an access stands before its `Pins` event (log 19) are the model's choices. -/
def Obligations.LineInitDrivesTheHandshake : Prop :=
  ∀ s : State, s.Enabled → s.polling = false → s.Addressed →
    s.Reaches s.cfg.offSetDirections → s.Reaches s.cfg.offWritePins →
    let aDir := s.portAddress s.cfg.offSetDirections
    let aPin := s.portAddress s.cfg.offWritePins
    let idle := s.cfg.idlePattern
    let ready := s.cfg.readyPattern
    ∃ (t1 t2 t3 t4 t0 : Nat) (env : Env),
      s.now ≤ t1 ∧ t1 ≤ t2 ∧ t2 ≤ t3 ∧ t3 + s.cfg.settleMs * 1000 ≤ t4 ∧ t4 ≤ t0 ∧
      exec .lineInit s = .next { s with
        dirMask := some s.cfg.dirMask
        outLatch := some idle
        initState := .polling t0
        now := t0
        env := env
        trace := s.trace ++
          [.access t1 .write aDir (s.cfg.dirMask ++ s.cfg.dirMask),
           .access t2 .write aPin (idle ++ idle), .pins t2 idle,
           .access t3 .write aPin (ready ++ ready), .pins t3 ready,
           .access t4 .write aPin (idle ++ idle), .pins t4 idle] }

/-- LINE_INIT from its start at a page the device does not hold (42_line_init.md R96, 70_reset_and_hazards.md R131): the same
four writes miss the device, no port register changes, and polling starts. That the operation answers here, in
`Polling(t0)` and with nothing returned yet, is the model's choice (log 15). -/
def Obligations.LineInitAtAnotherPageMisses : Prop :=
  ∀ s : State, s.Enabled → s.polling = false → ¬ s.Addressed →
    s.Reaches s.cfg.offSetDirections → s.Reaches s.cfg.offWritePins →
    ∃ (t1 t2 t3 t4 t0 : Nat) (env : Env),
      s.now ≤ t1 ∧ t1 ≤ t2 ∧ t2 ≤ t3 ∧ t3 + s.cfg.settleMs * 1000 ≤ t4 ∧ t4 ≤ t0 ∧
      exec .lineInit s = .next { s with
        initState := .polling t0
        now := t0
        env := env
        trace := s.trace ++
          [.access t1 .write (s.portAddress s.cfg.offSetDirections) (s.cfg.dirMask ++ s.cfg.dirMask),
           .access t2 .write (s.portAddress s.cfg.offWritePins) (s.cfg.idlePattern ++ s.cfg.idlePattern),
           .access t3 .write (s.portAddress s.cfg.offWritePins) (s.cfg.readyPattern ++ s.cfg.readyPattern),
           .access t4 .write (s.portAddress s.cfg.offWritePins) (s.cfg.idlePattern ++ s.cfg.idlePattern)] }

/-- One iteration of LINE_INIT's poll loop (42_line_init.md R102 to R104; decisions D15, D20): the clock is read first; at or
past the timeout since t0 the result is false and no pin is read; otherwise the pins are read once, and the result is true
if CTS is clear, and polling goes on if it is not. Nothing else changes. That LINE_INIT in `Polling(t0)` runs one iteration
and does not start again is the model's choice (log 15). -/
def Obligations.LineInitPollsOnce : Prop :=
  ∀ (s : State) (t0 : Nat), s.Enabled → s.initState = .polling t0 →
    let c : State := { s with now := s.now + s.clockAdvance, env := Env.afterClock s.env }
    (t0 + s.cfg.hsTimeoutMs * 1000 ≤ c.now →
      exec .lineInit s = .next { c with initState := .timedOut, returns := s.returns ++ [.ready false] }) ∧
    (c.now < t0 + s.cfg.hsTimeoutMs * 1000 → s.Reaches s.cfg.offReadPins →
      let w := c.readPinsWord
      let t := c.now + c.busDraw.delta
      let p : State := { c with
        now := t
        env := Env.afterBus c.env
        trace := s.trace ++ [.access t .read (s.portAddress s.cfg.offReadPins) w] }
      ((pinWordOf s.cfg w).getLsbD s.cfg.ctsBit = false →
        exec .lineInit s = .next { p with initState := .ready, returns := s.returns ++ [.ready true] }) ∧
      ((pinWordOf s.cfg w).getLsbD s.cfg.ctsBit = true → exec .lineInit s = .next p))

/-- LINE_INIT's polling ends under `clock_progress` (42_line_init.md R103, R106; the assumption is the spec's, decision D26):
where it holds of the run, the machine leaves polling, ready or timed out. Without it there is one other run, R103's: it is
infinite, and in it `Now` stays below the timeout. That a step is one iteration (log 15) and that a step that waits for the
host is no step of a run (log 22) are the model's choices. -/
def Obligations.PollingEndsUnderClockProgress : Prop :=
  ∀ (s : State) (t0 : Nat), s.Enabled → s.initState = .polling t0 → s.Reaches s.cfg.offReadPins →
    let ends := ∃ (k : Nat) (t : State), Sys2Proof.core.run k s = .next t ∧
      ((t.initState = .ready ∧ t.returns = s.returns ++ [.ready true]) ∨
        (t.initState = .timedOut ∧ t.returns = s.returns ++ [.ready false]))
    (s.ClockProgress → ends) ∧
    (ends ∨ (s.RunsForever ∧
      ∀ (k : Nat) (t : State), Sys2Proof.core.run k s = .next t → t.now < t0 + s.cfg.hsTimeoutMs * 1000))

/-- LINE_INIT's polling ends once the clock gets on, within a bound (42_line_init.md R103, R106; decision D26). The premise is
of the coming clock readings, not of the whole run: if they alone reach the timeout, the machine leaves polling, ready or
timed out, within that many steps and one more. That a step is one iteration (log 15) and that the coming readings are a list (log 5)
are the model's choices. -/
def Obligations.PollingEndsWhenTheClockGetsOn : Prop :=
  ∀ (s : State) (t0 : Nat), s.Enabled → s.initState = .polling t0 → s.Reaches s.cfg.offReadPins →
    t0 + s.cfg.hsTimeoutMs * 1000 ≤ s.now + s.env.clock.sum →
    ∃ (k : Nat) (t : State), k ≤ s.env.clock.length + 1 ∧ Sys2Proof.core.run k s = .next t ∧
      ((t.initState = .ready ∧ t.returns = s.returns ++ [.ready true]) ∨
        (t.initState = .timedOut ∧ t.returns = s.returns ++ [.ready false]))

/-- READY_PATTERN differs from IDLE_PATTERN in the RTS bit alone, which it clears; so under a well-formed configuration it
keeps TX high and asserts RTS (42_line_init.md R99, 30_encoding.md R60; decision D6). -/
def Obligations.ReadyPatternAssertsRtsAlone : Prop :=
  ∀ cfg : Cfg,
    (∀ i, i < 16 → cfg.readyPattern.getLsbD i =
      if i = cfg.rtsBit.val then false else cfg.idlePattern.getLsbD i) ∧
    (cfg.failing = none → cfg.readyPattern.getLsbD cfg.txBit = true ∧ cfg.readyPattern.getLsbD cfg.rtsBit = false ∧
      cfg.idlePattern.getLsbD cfg.rtsBit = true)

/-- DELAY (42_line_init.md R105; decision D19): it completes in every enabled state, `Now` advances by at least the operand,
a millisecond being a thousand microseconds, and by at most the jitter bound more where there is one; nothing else but
the draws and the returns changes. -/
def Obligations.DelayCompletes : Prop :=
  ∀ (unit : TimeUnit) (n : Nat) (s : State), s.Enabled →
    let us := match unit with
      | .us => n
      | .ms => n * 1000
    ∃ t', s.now + us ≤ t' ∧ (∀ j, s.cfg.bitJitterUs = some j → t' ≤ s.now + us + j) ∧
      exec (.delay unit n) s = .next { s with
        now := t'
        env := Env.afterDelay s.env
        returns := s.returns ++ [.nothing] }

/-- NOW (42_line_init.md R106; decision D26): it completes in every enabled state, the clock does not go back, and the
reading returned is the clock's new value; nothing else but the draws and the returns changes. -/
def Obligations.NowCompletes : Prop :=
  ∀ s : State, s.Enabled →
    ∃ t', s.now ≤ t' ∧ exec .now s = .next { s with
        now := t'
        env := Env.afterClock s.env
        returns := s.returns ++ [.time t'] }

/-! ### Faults -/

/-- Every operation that makes a bus access faults with the full address when an access it comes to is not accessible,
before anything about the offset or the data is looked at (60_exceptions.md R107, R114, 20_memory.md R38; the order is the
spec's decision D22). That LINE_INIT in `Polling(t0)` comes to its read of the pins, and does not start again, is the model's
choice (log 15). -/
def Obligations.InaccessibleAddressFaults : Prop :=
  ∀ s : State, s.Enabled →
    (∀ o, s.cfg.accessible (s.regAddress o) = false →
      exec (.regRead o) s = .fault (.fatalAddress (s.regAddress o)) ∧
      ∀ v, exec (.regWrite o v) s = .fault (.fatalAddress (s.regAddress o))) ∧
    (¬ s.Reaches s.cfg.offReadPins →
      let r := Fault.fatalAddress (s.portAddress s.cfg.offReadPins)
      exec .readPins s = .fault r ∧ exec .ctsCheck s = .fault r ∧
      (∀ b bs, exec (.transmit (b :: bs)) s = .fault r) ∧
      ∀ t0, s.initState = .polling t0 → s.now + s.clockAdvance < t0 + s.cfg.hsTimeoutMs * 1000 →
        exec .lineInit s = .fault r) ∧
    (¬ s.Reaches s.cfg.offWritePins →
      let r := Fault.fatalAddress (s.portAddress s.cfg.offWritePins)
      (∀ d, exec (.writePins d) s = .fault r) ∧ (∀ hi lo, exec (.writePins2 hi lo) s = .fault r) ∧
      (∀ e, exec (.emitElement e) s = .fault r) ∧ (∀ b, exec (.emitFrame b) s = .fault r) ∧
      exec .restoreIdle s = .fault r ∧
      (∀ buf, buf = [] ∨ s.Reaches s.cfg.offReadPins → exec (.transmit buf) s = .fault r) ∧
      (s.polling = false → s.Reaches s.cfg.offSetDirections → exec .lineInit s = .fault r)) ∧
    (¬ s.Reaches s.cfg.offSetDirections →
      let r := Fault.fatalAddress (s.portAddress s.cfg.offSetDirections)
      (∀ m, exec (.setDirections m) s = .fault r) ∧ (s.polling = false → exec .lineInit s = .fault r)) ∧
    (¬ s.Reaches s.cfg.offSetBase →
      ∀ p, exec (.setBase p) s = .fault (.fatalAddress (s.portAddress s.cfg.offSetBase)))

/-- A fault of an operation of one access leaves everything as it was but `Fault`, and so does a refusal but `Refused`
(60_exceptions.md R107, R110, R111): both pages of a SET_BASE that faults, for one, are the old ones. -/
def Obligations.StopsOfOneAccessLeaveTheStateAlone : Prop :=
  ∀ (i : Instr) (s t : State),
    (match i with
      | .emitFrame _ => False
      | .transmit _ => False
      | .lineInit => False
      | _ => True) →
    (∀ r, perform i s = .fault r t → t = { s with fault := some r }) ∧
    (∀ r, perform i s = .refused r t → t = { s with refused := some r })

/-- A fault inside a frame or a TRANSMIT comes before any pin changes, because all its writes go to one address: the pins
keep the level they had, no idle pattern is written and nothing is returned; and `TxPhase` says where TRANSMIT stopped
(60_exceptions.md R110, 41_frame_encoder.md R85, R91; 95_test_vectors.md P6; derived in the spec). -/
def Obligations.EmissionFaultsBeforeAnyPinChanges : Prop :=
  ∀ (s t : State) (r : Fault),
    (∀ b, perform (.emitFrame b) s = .fault r t →
      r = .fatalAddress (s.portAddress s.cfg.offWritePins) ∧ t.fault = some r ∧ t.trace = s.trace ∧
      t.outLatch = s.outLatch ∧ t.dirMask = s.dirMask ∧ t.returns = s.returns) ∧
    (∀ buf, perform (.transmit buf) s = .fault r t →
      t.fault = some r ∧ pinsEvents (newEvents s t) = [] ∧ t.outLatch = s.outLatch ∧ t.dirMask = s.dirMask ∧
      t.returns = s.returns ∧
      ((t.txPhase = .txCheck 0 0 ∧ r = .fatalAddress (s.portAddress s.cfg.offReadPins)) ∨
        ((t.txPhase = .txElement 0 0 0 ∨ t.txPhase = .txRestore 0) ∧
          r = .fatalAddress (s.portAddress s.cfg.offWritePins))))

/-- A fault inside LINE_INIT keeps everything done before it and changes nothing after it (60_exceptions.md R110, R107,
42_line_init.md R96, R97). At set-directions nothing is done. At write-pins the mask is written, where the device is
addressed, its one access is recorded and the sequencer stands at `DirectionsSet`. In a poll only the clock has been read.
There is no other fault. That a poll is a step of its own is the model's choice (log 15). -/
def Obligations.LineInitFaultsKeepWhatItDid : Prop :=
  ∀ s : State, s.cfg.failing = none →
    (s.polling = false → ¬ s.Reaches s.cfg.offSetDirections →
      let r := Fault.fatalAddress (s.portAddress s.cfg.offSetDirections)
      perform .lineInit s = .fault r { s with fault := some r }) ∧
    (s.polling = false → s.Reaches s.cfg.offSetDirections → ¬ s.Reaches s.cfg.offWritePins →
      let r := Fault.fatalAddress (s.portAddress s.cfg.offWritePins)
      perform .lineInit s = .fault r { s with
        dirMask := if s.ctxBasePage = s.devBasePage then some s.cfg.dirMask else s.dirMask
        initState := .directionsSet
        now := s.now + s.busDraw.delta
        env := Env.afterBus s.env
        trace := s.trace ++ [.access (s.now + s.busDraw.delta) .write (s.portAddress s.cfg.offSetDirections)
          (s.cfg.dirMask ++ s.cfg.dirMask)]
        fault := some r }) ∧
    (∀ t0, s.initState = .polling t0 → s.now + s.clockAdvance < t0 + s.cfg.hsTimeoutMs * 1000 →
      ¬ s.Reaches s.cfg.offReadPins →
      let r := Fault.fatalAddress (s.portAddress s.cfg.offReadPins)
      perform .lineInit s = .fault r { s with
        now := s.now + s.clockAdvance
        env := Env.afterClock s.env
        fault := some r }) ∧
    (∀ r t, perform .lineInit s = .fault r t →
      (s.polling = false ∧ ¬ (s.Reaches s.cfg.offSetDirections ∧ s.Reaches s.cfg.offWritePins)) ∨
      ∃ t0, s.initState = .polling t0 ∧ s.now + s.clockAdvance < t0 + s.cfg.hsTimeoutMs * 1000 ∧
        ¬ s.Reaches s.cfg.offReadPins)

/-! ### The whole machine -/

/-- The clock never decreases, and the record and the values returned only grow, at every step (10_state.md R25, R27;
decisions D1, D19, D26). -/
def Obligations.ClockAndRecordOnlyGrow : Prop :=
  ∀ s t : State, step s = .next t → s.now ≤ t.now ∧ s.trace <+: t.trace ∧ s.returns <+: t.returns

/-- The values of `Cfg` never change while the model runs (10_state.md R30): no step and no operation, stopped ones
included, changes the configuration. -/
def Obligations.ConfigurationNeverChanges : Prop :=
  (∀ s t : State, step s = .next t → t.cfg = s.cfg) ∧
  (∀ (i : Instr) (s : State), (perform i s).endState.cfg = s.cfg)

/-- Every step keeps the invariant: the latch is the last pin word recorded (10_state.md R18, R27), the record is in time
order and no later than the clock (20_memory.md R44), everything recorded was accessible (R38), nothing has stopped (R26),
and the sequencers rest or poll between steps (R22, R24). What holds between steps rests on the model's choice of a step
(log 15). -/
def Obligations.StepKeepsTheInvariant : Prop :=
  ∀ s t : State, s.Inv → step s = .next t → t.Inv

/-- The reset state meets the invariant, on every configuration. -/
def Obligations.ResetMeetsTheInvariant : Prop :=
  State.reset.Inv ∧ ∀ cfg now, (State.resetWith cfg now).Inv

/-- The state after reset (70_reset_and_hazards.md R125; decision D21): both pages at BASE_PAGE_RESET, the mask, the latch
and the frame unknown, both sequencers at rest, nothing recorded and nothing stopped, every line undefined, on every
configuration and at every clock reading; and the machine's own reset is one of these, on a well-formed configuration
(log 2). -/
def Obligations.ResetLeavesTheStatedValues : Prop :=
  (∀ (cfg : Cfg) (now : Nat),
    let s := State.resetWith cfg now
    s.cfg = cfg ∧ s.devBasePage = cfg.basePageReset ∧ s.ctxBasePage = cfg.basePageReset ∧ s.dirMask = none ∧
    s.outLatch = none ∧ s.txPhase = .txIdle ∧ s.frame = none ∧ s.initState = .unconfigured ∧ s.now = now ∧
    s.fault = none ∧ s.refused = none ∧ s.trace = [] ∧ ∀ i, s.line i = .undefined) ∧
  ∃ (cfg : Cfg) (now : Nat), cfg.failing = none ∧ State.reset = State.resetWith cfg now

/-- The word of an opcode-table row that decodes runs as the first instruction after reset (log 9, log 12): the model's own
interface, cited to 60_exceptions.md R121. -/
def Obligations.FirstStepAfterResetRunsTheTableWord : Prop :=
  ∀ (nbits w : Nat) (i : Instr), decodeTableWord nbits w = some i →
    step (State.reset.withFetchWord nbits w) = exec i State.reset

/-- Only SET_BASE changes the context's page, and it sets it to its operand (10_state.md R16, 40_port_ops.md R81; derived in
the spec). -/
def Obligations.OnlySetBaseMovesTheContext : Prop :=
  ∀ (i : Instr) (s t : State), exec i s = .next t →
    (∃ p, i = .setBase p ∧ t.ctxBasePage = p) ∨ ((∀ p, i ≠ .setBase p) ∧ t.ctxBasePage = s.ctxBasePage)

/-- Once the two copies of the page differ, no operation changes a port register, and only a SET_BASE that names the device's
page makes the copies agree again (70_reset_and_hazards.md R131, 40_port_ops.md R81; derived in the spec). -/
def Obligations.OnlySetBaseMendsADivergence : Prop :=
  ∀ (i : Instr) (s t : State), s.ctxBasePage ≠ s.devBasePage → exec i s = .next t →
    t.devBasePage = s.devBasePage ∧ t.dirMask = s.dirMask ∧ t.outLatch = s.outLatch ∧
    (t.ctxBasePage = t.devBasePage ↔ i = .setBase s.devBasePage)

/-- The port registers change only through the operations that R81 and the rules of 41 and 42 name as their writers
(10_state.md R15, R17, R18; derived in the spec). -/
def Obligations.PortRegistersHaveTheirWriters : Prop :=
  ∀ (i : Instr) (s t : State), exec i s = .next t →
    (t.dirMask ≠ s.dirMask → (∃ o v, i = .regWrite o v) ∨ (∃ m, i = .setDirections m) ∨ i = .lineInit) ∧
    (t.devBasePage ≠ s.devBasePage → (∃ o v, i = .regWrite o v) ∨ (∃ p, i = .setBase p)) ∧
    (t.outLatch ≠ s.outLatch → (∃ o v, i = .regWrite o v) ∨ (∃ d, i = .writePins d) ∨ (∃ h l, i = .writePins2 h l) ∨
      (∃ e, i = .emitElement e) ∨ (∃ b, i = .emitFrame b) ∨ i = .restoreIdle ∨ (∃ buf, i = .transmit buf) ∨
      i = .lineInit)
end

