-- ==== Sys2Proof/Laws/Config.lean ====
section
/-! SUPPORT. What a well-formed configuration gives (00_scope.md R6), one fact a check. -/

namespace Sys2Proof

/-- No check fails exactly when every check passes. -/
theorem Cfg.failing_eq_none (cfg : Cfg) : cfg.failing = none ↔ ∀ c : ConfigCheck, c.passes cfg = true := by
  unfold Cfg.failing
  rw [List.find?_eq_none]
  constructor
  · intro h c
    have := h c (by cases c <;> decide)
    simpa using this
  · intro h c _
    simp [h c]

theorem Cfg.wf_iff (cfg : Cfg) : cfg.wf = true ↔ cfg.failing = none := by simp [Cfg.wf]

/-- The configuration the machine is reset on passes every check. -/
theorem Config.board_failing : Config.board.cfg.failing = none := (Cfg.wf_iff _).1 Config.board.ok

section
variable {cfg : Cfg} (h : cfg.failing = none)
include h

theorem Cfg.offsets_distinct :
    cfg.offReadPins ≠ cfg.offSetBase ∧ cfg.offReadPins ≠ cfg.offSetDirections ∧ cfg.offReadPins ≠ cfg.offWritePins ∧
      cfg.offSetBase ≠ cfg.offSetDirections ∧ cfg.offSetBase ≠ cfg.offWritePins ∧
      cfg.offSetDirections ≠ cfg.offWritePins := by
  have := (cfg.failing_eq_none.1 h) .wfOffsetsDistinct
  simp only [ConfigCheck.passes, decide_eq_true_eq, List.nodup_cons, List.mem_cons, not_or, List.not_mem_nil,
    not_false_eq_true, and_true] at this
  tauto

theorem Cfg.pins_distinct :
    cfg.txBit.val ≠ cfg.rtsBit.val ∧ cfg.txBit.val ≠ cfg.ctsBit.val ∧ cfg.rtsBit.val ≠ cfg.ctsBit.val := by
  have := (cfg.failing_eq_none.1 h) .wfPinsDistinct
  simp only [ConfigCheck.passes, decide_eq_true_eq, List.nodup_cons, List.mem_cons, not_or, List.not_mem_nil,
    not_false_eq_true, and_true] at this
  tauto

theorem Cfg.tx_output : cfg.dirMask.getLsbD cfg.txBit = true := (cfg.failing_eq_none.1 h) .wfTxOutput

theorem Cfg.cts_input : cfg.dirMask.getLsbD cfg.ctsBit = false := by
  have := (cfg.failing_eq_none.1 h) .wfCtsInput
  simpa only [ConfigCheck.passes, Bool.not_eq_true'] using this

theorem Cfg.rts_output : cfg.dirMask.getLsbD cfg.rtsBit = true := (cfg.failing_eq_none.1 h) .wfRtsOutput

theorem Cfg.idle_tx_high : cfg.idlePattern.getLsbD cfg.txBit = true := (cfg.failing_eq_none.1 h) .wfIdleTxHigh

theorem Cfg.idle_rts_high : cfg.idlePattern.getLsbD cfg.rtsBit = true := (cfg.failing_eq_none.1 h) .wfIdleRtsDeasserted

theorem Cfg.enc_one_bit : cfg.encOne ^^^ cfg.encZero = 1#8 <<< cfg.txBit.val := by
  have := (cfg.failing_eq_none.1 h) .wfEncOneBit
  simpa only [ConfigCheck.passes, beq_iff_eq] using this

theorem Cfg.bit_period_pos : 0 < cfg.bitPeriodUs := by
  have := (cfg.failing_eq_none.1 h) .wfBitPeriod
  simpa only [ConfigCheck.passes, decide_eq_true_eq] using this

/-- The one and zero elements differ on the TX line (30_encoding.md R57). -/
theorem Cfg.enc_tx_differ : cfg.encOne.getLsbD cfg.txBit ≠ cfg.encZero.getLsbD cfg.txBit := by
  have h1 := congrArg (fun v : Byte => v.getLsbD cfg.txBit) (Cfg.enc_one_bit h)
  have hb : ∀ i : Fin 4, (1#8 <<< i.val).getLsbD i = true := by decide
  simp only [BitVec.getLsbD_xor, hb cfg.txBit] at h1
  intro he
  rw [he] at h1
  simp at h1

end

end Sys2Proof
end

