-- ==== Sys2Proof/Laws/State.lean ====
section
/-! SUPPORT. One lemma per field per state update, true by rfl, so that no proof unfolds a record update. -/

namespace Sys2Proof.Machine

/-! ### `complete` -/

@[simp] theorem State.complete_cfg (s : State) (a : Word) (dir : Dir) (d : Word) : (s.complete a dir d).cfg = s.cfg := rfl
@[simp] theorem State.complete_devBasePage (s : State) (a : Word) (dir : Dir) (d : Word) : (s.complete a dir d).devBasePage = s.devBasePage := rfl
@[simp] theorem State.complete_ctxBasePage (s : State) (a : Word) (dir : Dir) (d : Word) : (s.complete a dir d).ctxBasePage = s.ctxBasePage := rfl
@[simp] theorem State.complete_dirMask (s : State) (a : Word) (dir : Dir) (d : Word) : (s.complete a dir d).dirMask = s.dirMask := rfl
@[simp] theorem State.complete_outLatch (s : State) (a : Word) (dir : Dir) (d : Word) : (s.complete a dir d).outLatch = s.outLatch := rfl
@[simp] theorem State.complete_txPhase (s : State) (a : Word) (dir : Dir) (d : Word) : (s.complete a dir d).txPhase = s.txPhase := rfl
@[simp] theorem State.complete_frame (s : State) (a : Word) (dir : Dir) (d : Word) : (s.complete a dir d).frame = s.frame := rfl
@[simp] theorem State.complete_initState (s : State) (a : Word) (dir : Dir) (d : Word) : (s.complete a dir d).initState = s.initState := rfl
@[simp] theorem State.complete_now (s : State) (a : Word) (dir : Dir) (d : Word) : (s.complete a dir d).now = s.now + s.busDraw.delta := rfl
@[simp] theorem State.complete_fault (s : State) (a : Word) (dir : Dir) (d : Word) : (s.complete a dir d).fault = s.fault := rfl
@[simp] theorem State.complete_refused (s : State) (a : Word) (dir : Dir) (d : Word) : (s.complete a dir d).refused = s.refused := rfl
@[simp] theorem State.complete_trace (s : State) (a : Word) (dir : Dir) (d : Word) : (s.complete a dir d).trace = s.trace ++ [.access (s.now + s.busDraw.delta) dir a d] := rfl
@[simp] theorem State.complete_host (s : State) (a : Word) (dir : Dir) (d : Word) : (s.complete a dir d).host = s.host := rfl
@[simp] theorem State.complete_returns (s : State) (a : Word) (dir : Dir) (d : Word) : (s.complete a dir d).returns = s.returns := rfl
@[simp] theorem State.complete_env (s : State) (a : Word) (dir : Dir) (d : Word) : (s.complete a dir d).env = Env.afterBus s.env := rfl

/-! ### `latchPins` -/

@[simp] theorem State.latchPins_cfg (s : State) (v : Half) : (s.latchPins v).cfg = s.cfg := rfl
@[simp] theorem State.latchPins_devBasePage (s : State) (v : Half) : (s.latchPins v).devBasePage = s.devBasePage := rfl
@[simp] theorem State.latchPins_ctxBasePage (s : State) (v : Half) : (s.latchPins v).ctxBasePage = s.ctxBasePage := rfl
@[simp] theorem State.latchPins_dirMask (s : State) (v : Half) : (s.latchPins v).dirMask = s.dirMask := rfl
@[simp] theorem State.latchPins_outLatch (s : State) (v : Half) : (s.latchPins v).outLatch = some v := rfl
@[simp] theorem State.latchPins_txPhase (s : State) (v : Half) : (s.latchPins v).txPhase = s.txPhase := rfl
@[simp] theorem State.latchPins_frame (s : State) (v : Half) : (s.latchPins v).frame = s.frame := rfl
@[simp] theorem State.latchPins_initState (s : State) (v : Half) : (s.latchPins v).initState = s.initState := rfl
@[simp] theorem State.latchPins_now (s : State) (v : Half) : (s.latchPins v).now = s.now := rfl
@[simp] theorem State.latchPins_fault (s : State) (v : Half) : (s.latchPins v).fault = s.fault := rfl
@[simp] theorem State.latchPins_refused (s : State) (v : Half) : (s.latchPins v).refused = s.refused := rfl
@[simp] theorem State.latchPins_trace (s : State) (v : Half) : (s.latchPins v).trace = s.trace ++ [.pins s.now v] := rfl
@[simp] theorem State.latchPins_host (s : State) (v : Half) : (s.latchPins v).host = s.host := rfl
@[simp] theorem State.latchPins_returns (s : State) (v : Half) : (s.latchPins v).returns = s.returns := rfl
@[simp] theorem State.latchPins_env (s : State) (v : Half) : (s.latchPins v).env = s.env := rfl

/-! ### `setMask` -/

@[simp] theorem State.setMask_cfg (s : State) (m : Half) : (s.setMask m).cfg = s.cfg := rfl
@[simp] theorem State.setMask_devBasePage (s : State) (m : Half) : (s.setMask m).devBasePage = s.devBasePage := rfl
@[simp] theorem State.setMask_ctxBasePage (s : State) (m : Half) : (s.setMask m).ctxBasePage = s.ctxBasePage := rfl
@[simp] theorem State.setMask_dirMask (s : State) (m : Half) : (s.setMask m).dirMask = some m := rfl
@[simp] theorem State.setMask_outLatch (s : State) (m : Half) : (s.setMask m).outLatch = s.outLatch := rfl
@[simp] theorem State.setMask_txPhase (s : State) (m : Half) : (s.setMask m).txPhase = s.txPhase := rfl
@[simp] theorem State.setMask_frame (s : State) (m : Half) : (s.setMask m).frame = s.frame := rfl
@[simp] theorem State.setMask_initState (s : State) (m : Half) : (s.setMask m).initState = s.initState := rfl
@[simp] theorem State.setMask_now (s : State) (m : Half) : (s.setMask m).now = s.now := rfl
@[simp] theorem State.setMask_fault (s : State) (m : Half) : (s.setMask m).fault = s.fault := rfl
@[simp] theorem State.setMask_refused (s : State) (m : Half) : (s.setMask m).refused = s.refused := rfl
@[simp] theorem State.setMask_trace (s : State) (m : Half) : (s.setMask m).trace = s.trace := rfl
@[simp] theorem State.setMask_host (s : State) (m : Half) : (s.setMask m).host = s.host := rfl
@[simp] theorem State.setMask_returns (s : State) (m : Half) : (s.setMask m).returns = s.returns := rfl
@[simp] theorem State.setMask_env (s : State) (m : Half) : (s.setMask m).env = s.env := rfl

/-! ### `setDevPage` -/

@[simp] theorem State.setDevPage_cfg (s : State) (p : Byte) : (s.setDevPage p).cfg = s.cfg := rfl
@[simp] theorem State.setDevPage_devBasePage (s : State) (p : Byte) : (s.setDevPage p).devBasePage = p := rfl
@[simp] theorem State.setDevPage_ctxBasePage (s : State) (p : Byte) : (s.setDevPage p).ctxBasePage = s.ctxBasePage := rfl
@[simp] theorem State.setDevPage_dirMask (s : State) (p : Byte) : (s.setDevPage p).dirMask = s.dirMask := rfl
@[simp] theorem State.setDevPage_outLatch (s : State) (p : Byte) : (s.setDevPage p).outLatch = s.outLatch := rfl
@[simp] theorem State.setDevPage_txPhase (s : State) (p : Byte) : (s.setDevPage p).txPhase = s.txPhase := rfl
@[simp] theorem State.setDevPage_frame (s : State) (p : Byte) : (s.setDevPage p).frame = s.frame := rfl
@[simp] theorem State.setDevPage_initState (s : State) (p : Byte) : (s.setDevPage p).initState = s.initState := rfl
@[simp] theorem State.setDevPage_now (s : State) (p : Byte) : (s.setDevPage p).now = s.now := rfl
@[simp] theorem State.setDevPage_fault (s : State) (p : Byte) : (s.setDevPage p).fault = s.fault := rfl
@[simp] theorem State.setDevPage_refused (s : State) (p : Byte) : (s.setDevPage p).refused = s.refused := rfl
@[simp] theorem State.setDevPage_trace (s : State) (p : Byte) : (s.setDevPage p).trace = s.trace := rfl
@[simp] theorem State.setDevPage_host (s : State) (p : Byte) : (s.setDevPage p).host = s.host := rfl
@[simp] theorem State.setDevPage_returns (s : State) (p : Byte) : (s.setDevPage p).returns = s.returns := rfl
@[simp] theorem State.setDevPage_env (s : State) (p : Byte) : (s.setDevPage p).env = s.env := rfl

/-! ### `setCtxPage` -/

@[simp] theorem State.setCtxPage_cfg (s : State) (p : Byte) : (s.setCtxPage p).cfg = s.cfg := rfl
@[simp] theorem State.setCtxPage_devBasePage (s : State) (p : Byte) : (s.setCtxPage p).devBasePage = s.devBasePage := rfl
@[simp] theorem State.setCtxPage_ctxBasePage (s : State) (p : Byte) : (s.setCtxPage p).ctxBasePage = p := rfl
@[simp] theorem State.setCtxPage_dirMask (s : State) (p : Byte) : (s.setCtxPage p).dirMask = s.dirMask := rfl
@[simp] theorem State.setCtxPage_outLatch (s : State) (p : Byte) : (s.setCtxPage p).outLatch = s.outLatch := rfl
@[simp] theorem State.setCtxPage_txPhase (s : State) (p : Byte) : (s.setCtxPage p).txPhase = s.txPhase := rfl
@[simp] theorem State.setCtxPage_frame (s : State) (p : Byte) : (s.setCtxPage p).frame = s.frame := rfl
@[simp] theorem State.setCtxPage_initState (s : State) (p : Byte) : (s.setCtxPage p).initState = s.initState := rfl
@[simp] theorem State.setCtxPage_now (s : State) (p : Byte) : (s.setCtxPage p).now = s.now := rfl
@[simp] theorem State.setCtxPage_fault (s : State) (p : Byte) : (s.setCtxPage p).fault = s.fault := rfl
@[simp] theorem State.setCtxPage_refused (s : State) (p : Byte) : (s.setCtxPage p).refused = s.refused := rfl
@[simp] theorem State.setCtxPage_trace (s : State) (p : Byte) : (s.setCtxPage p).trace = s.trace := rfl
@[simp] theorem State.setCtxPage_host (s : State) (p : Byte) : (s.setCtxPage p).host = s.host := rfl
@[simp] theorem State.setCtxPage_returns (s : State) (p : Byte) : (s.setCtxPage p).returns = s.returns := rfl
@[simp] theorem State.setCtxPage_env (s : State) (p : Byte) : (s.setCtxPage p).env = s.env := rfl

/-! ### `inTx` -/

@[simp] theorem State.inTx_cfg (s : State) (p : TxPhase) : (s.inTx p).cfg = s.cfg := rfl
@[simp] theorem State.inTx_devBasePage (s : State) (p : TxPhase) : (s.inTx p).devBasePage = s.devBasePage := rfl
@[simp] theorem State.inTx_ctxBasePage (s : State) (p : TxPhase) : (s.inTx p).ctxBasePage = s.ctxBasePage := rfl
@[simp] theorem State.inTx_dirMask (s : State) (p : TxPhase) : (s.inTx p).dirMask = s.dirMask := rfl
@[simp] theorem State.inTx_outLatch (s : State) (p : TxPhase) : (s.inTx p).outLatch = s.outLatch := rfl
@[simp] theorem State.inTx_txPhase (s : State) (p : TxPhase) : (s.inTx p).txPhase = p := rfl
@[simp] theorem State.inTx_frame (s : State) (p : TxPhase) : (s.inTx p).frame = s.frame := rfl
@[simp] theorem State.inTx_initState (s : State) (p : TxPhase) : (s.inTx p).initState = s.initState := rfl
@[simp] theorem State.inTx_now (s : State) (p : TxPhase) : (s.inTx p).now = s.now := rfl
@[simp] theorem State.inTx_fault (s : State) (p : TxPhase) : (s.inTx p).fault = s.fault := rfl
@[simp] theorem State.inTx_refused (s : State) (p : TxPhase) : (s.inTx p).refused = s.refused := rfl
@[simp] theorem State.inTx_trace (s : State) (p : TxPhase) : (s.inTx p).trace = s.trace := rfl
@[simp] theorem State.inTx_host (s : State) (p : TxPhase) : (s.inTx p).host = s.host := rfl
@[simp] theorem State.inTx_returns (s : State) (p : TxPhase) : (s.inTx p).returns = s.returns := rfl
@[simp] theorem State.inTx_env (s : State) (p : TxPhase) : (s.inTx p).env = s.env := rfl

/-! ### `inInit` -/

@[simp] theorem State.inInit_cfg (s : State) (p : InitState) : (s.inInit p).cfg = s.cfg := rfl
@[simp] theorem State.inInit_devBasePage (s : State) (p : InitState) : (s.inInit p).devBasePage = s.devBasePage := rfl
@[simp] theorem State.inInit_ctxBasePage (s : State) (p : InitState) : (s.inInit p).ctxBasePage = s.ctxBasePage := rfl
@[simp] theorem State.inInit_dirMask (s : State) (p : InitState) : (s.inInit p).dirMask = s.dirMask := rfl
@[simp] theorem State.inInit_outLatch (s : State) (p : InitState) : (s.inInit p).outLatch = s.outLatch := rfl
@[simp] theorem State.inInit_txPhase (s : State) (p : InitState) : (s.inInit p).txPhase = s.txPhase := rfl
@[simp] theorem State.inInit_frame (s : State) (p : InitState) : (s.inInit p).frame = s.frame := rfl
@[simp] theorem State.inInit_initState (s : State) (p : InitState) : (s.inInit p).initState = p := rfl
@[simp] theorem State.inInit_now (s : State) (p : InitState) : (s.inInit p).now = s.now := rfl
@[simp] theorem State.inInit_fault (s : State) (p : InitState) : (s.inInit p).fault = s.fault := rfl
@[simp] theorem State.inInit_refused (s : State) (p : InitState) : (s.inInit p).refused = s.refused := rfl
@[simp] theorem State.inInit_trace (s : State) (p : InitState) : (s.inInit p).trace = s.trace := rfl
@[simp] theorem State.inInit_host (s : State) (p : InitState) : (s.inInit p).host = s.host := rfl
@[simp] theorem State.inInit_returns (s : State) (p : InitState) : (s.inInit p).returns = s.returns := rfl
@[simp] theorem State.inInit_env (s : State) (p : InitState) : (s.inInit p).env = s.env := rfl

/-! ### `frameDropped` -/

@[simp] theorem State.frameDropped_cfg (s : State) : s.frameDropped.cfg = s.cfg := rfl
@[simp] theorem State.frameDropped_devBasePage (s : State) : s.frameDropped.devBasePage = s.devBasePage := rfl
@[simp] theorem State.frameDropped_ctxBasePage (s : State) : s.frameDropped.ctxBasePage = s.ctxBasePage := rfl
@[simp] theorem State.frameDropped_dirMask (s : State) : s.frameDropped.dirMask = s.dirMask := rfl
@[simp] theorem State.frameDropped_outLatch (s : State) : s.frameDropped.outLatch = s.outLatch := rfl
@[simp] theorem State.frameDropped_txPhase (s : State) : s.frameDropped.txPhase = s.txPhase := rfl
@[simp] theorem State.frameDropped_frame (s : State) : s.frameDropped.frame = none := rfl
@[simp] theorem State.frameDropped_initState (s : State) : s.frameDropped.initState = s.initState := rfl
@[simp] theorem State.frameDropped_now (s : State) : s.frameDropped.now = s.now := rfl
@[simp] theorem State.frameDropped_fault (s : State) : s.frameDropped.fault = s.fault := rfl
@[simp] theorem State.frameDropped_refused (s : State) : s.frameDropped.refused = s.refused := rfl
@[simp] theorem State.frameDropped_trace (s : State) : s.frameDropped.trace = s.trace := rfl
@[simp] theorem State.frameDropped_host (s : State) : s.frameDropped.host = s.host := rfl
@[simp] theorem State.frameDropped_returns (s : State) : s.frameDropped.returns = s.returns := rfl
@[simp] theorem State.frameDropped_env (s : State) : s.frameDropped.env = s.env := rfl

/-! ### `delayed` -/

@[simp] theorem State.delayed_cfg (s : State) (n : Nat) : (s.delayed n).cfg = s.cfg := rfl
@[simp] theorem State.delayed_devBasePage (s : State) (n : Nat) : (s.delayed n).devBasePage = s.devBasePage := rfl
@[simp] theorem State.delayed_ctxBasePage (s : State) (n : Nat) : (s.delayed n).ctxBasePage = s.ctxBasePage := rfl
@[simp] theorem State.delayed_dirMask (s : State) (n : Nat) : (s.delayed n).dirMask = s.dirMask := rfl
@[simp] theorem State.delayed_outLatch (s : State) (n : Nat) : (s.delayed n).outLatch = s.outLatch := rfl
@[simp] theorem State.delayed_txPhase (s : State) (n : Nat) : (s.delayed n).txPhase = s.txPhase := rfl
@[simp] theorem State.delayed_frame (s : State) (n : Nat) : (s.delayed n).frame = s.frame := rfl
@[simp] theorem State.delayed_initState (s : State) (n : Nat) : (s.delayed n).initState = s.initState := rfl
@[simp] theorem State.delayed_now (s : State) (n : Nat) : (s.delayed n).now = s.now + n + s.overshoot := rfl
@[simp] theorem State.delayed_fault (s : State) (n : Nat) : (s.delayed n).fault = s.fault := rfl
@[simp] theorem State.delayed_refused (s : State) (n : Nat) : (s.delayed n).refused = s.refused := rfl
@[simp] theorem State.delayed_trace (s : State) (n : Nat) : (s.delayed n).trace = s.trace := rfl
@[simp] theorem State.delayed_host (s : State) (n : Nat) : (s.delayed n).host = s.host := rfl
@[simp] theorem State.delayed_returns (s : State) (n : Nat) : (s.delayed n).returns = s.returns := rfl
@[simp] theorem State.delayed_env (s : State) (n : Nat) : (s.delayed n).env = Env.afterDelay s.env := rfl

/-! ### `settle` -/

@[simp] theorem State.settle_cfg (s : State) : s.settle.cfg = s.cfg := rfl
@[simp] theorem State.settle_devBasePage (s : State) : s.settle.devBasePage = s.devBasePage := rfl
@[simp] theorem State.settle_ctxBasePage (s : State) : s.settle.ctxBasePage = s.ctxBasePage := rfl
@[simp] theorem State.settle_dirMask (s : State) : s.settle.dirMask = s.dirMask := rfl
@[simp] theorem State.settle_outLatch (s : State) : s.settle.outLatch = s.outLatch := rfl
@[simp] theorem State.settle_txPhase (s : State) : s.settle.txPhase = s.txPhase := rfl
@[simp] theorem State.settle_frame (s : State) : s.settle.frame = s.frame := rfl
@[simp] theorem State.settle_initState (s : State) : s.settle.initState = .settling := rfl
@[simp] theorem State.settle_now (s : State) : s.settle.now = s.now + microseconds .ms s.cfg.settleMs + s.overshoot := rfl
@[simp] theorem State.settle_fault (s : State) : s.settle.fault = s.fault := rfl
@[simp] theorem State.settle_refused (s : State) : s.settle.refused = s.refused := rfl
@[simp] theorem State.settle_trace (s : State) : s.settle.trace = s.trace := rfl
@[simp] theorem State.settle_host (s : State) : s.settle.host = s.host := rfl
@[simp] theorem State.settle_returns (s : State) : s.settle.returns = s.returns := rfl
@[simp] theorem State.settle_env (s : State) : s.settle.env = Env.afterDelay s.env := rfl

/-! ### `clockRead` -/

@[simp] theorem State.clockRead_cfg (s : State) : (s.clockRead).cfg = s.cfg := rfl
@[simp] theorem State.clockRead_devBasePage (s : State) : (s.clockRead).devBasePage = s.devBasePage := rfl
@[simp] theorem State.clockRead_ctxBasePage (s : State) : (s.clockRead).ctxBasePage = s.ctxBasePage := rfl
@[simp] theorem State.clockRead_dirMask (s : State) : (s.clockRead).dirMask = s.dirMask := rfl
@[simp] theorem State.clockRead_outLatch (s : State) : (s.clockRead).outLatch = s.outLatch := rfl
@[simp] theorem State.clockRead_txPhase (s : State) : (s.clockRead).txPhase = s.txPhase := rfl
@[simp] theorem State.clockRead_frame (s : State) : (s.clockRead).frame = s.frame := rfl
@[simp] theorem State.clockRead_initState (s : State) : (s.clockRead).initState = s.initState := rfl
@[simp] theorem State.clockRead_now (s : State) : (s.clockRead).now = s.now + s.clockAdvance := rfl
@[simp] theorem State.clockRead_fault (s : State) : (s.clockRead).fault = s.fault := rfl
@[simp] theorem State.clockRead_refused (s : State) : (s.clockRead).refused = s.refused := rfl
@[simp] theorem State.clockRead_trace (s : State) : (s.clockRead).trace = s.trace := rfl
@[simp] theorem State.clockRead_host (s : State) : (s.clockRead).host = s.host := rfl
@[simp] theorem State.clockRead_returns (s : State) : (s.clockRead).returns = s.returns := rfl
@[simp] theorem State.clockRead_env (s : State) : (s.clockRead).env = Env.afterClock s.env := rfl

/-! ### `encoded` -/

@[simp] theorem State.encoded_cfg (s : State) (b : Byte) : (s.encoded b).cfg = s.cfg := rfl
@[simp] theorem State.encoded_devBasePage (s : State) (b : Byte) : (s.encoded b).devBasePage = s.devBasePage := rfl
@[simp] theorem State.encoded_ctxBasePage (s : State) (b : Byte) : (s.encoded b).ctxBasePage = s.ctxBasePage := rfl
@[simp] theorem State.encoded_dirMask (s : State) (b : Byte) : (s.encoded b).dirMask = s.dirMask := rfl
@[simp] theorem State.encoded_outLatch (s : State) (b : Byte) : (s.encoded b).outLatch = s.outLatch := rfl
@[simp] theorem State.encoded_txPhase (s : State) (b : Byte) : (s.encoded b).txPhase = s.txPhase := rfl
@[simp] theorem State.encoded_frame (s : State) (b : Byte) : (s.encoded b).frame = some (frameOf s.cfg b) := rfl
@[simp] theorem State.encoded_initState (s : State) (b : Byte) : (s.encoded b).initState = s.initState := rfl
@[simp] theorem State.encoded_now (s : State) (b : Byte) : (s.encoded b).now = s.now := rfl
@[simp] theorem State.encoded_fault (s : State) (b : Byte) : (s.encoded b).fault = s.fault := rfl
@[simp] theorem State.encoded_refused (s : State) (b : Byte) : (s.encoded b).refused = s.refused := rfl
@[simp] theorem State.encoded_trace (s : State) (b : Byte) : (s.encoded b).trace = s.trace := rfl
@[simp] theorem State.encoded_host (s : State) (b : Byte) : (s.encoded b).host = s.host := rfl
@[simp] theorem State.encoded_returns (s : State) (b : Byte) : (s.encoded b).returns = s.returns := rfl
@[simp] theorem State.encoded_env (s : State) (b : Byte) : (s.encoded b).env = s.env := rfl

/-! ### `issued` -/

@[simp] theorem State.issued_cfg (s : State) (rest : List (List Byte)) : (s.issued rest).cfg = s.cfg := rfl
@[simp] theorem State.issued_devBasePage (s : State) (rest : List (List Byte)) : (s.issued rest).devBasePage = s.devBasePage := rfl
@[simp] theorem State.issued_ctxBasePage (s : State) (rest : List (List Byte)) : (s.issued rest).ctxBasePage = s.ctxBasePage := rfl
@[simp] theorem State.issued_dirMask (s : State) (rest : List (List Byte)) : (s.issued rest).dirMask = s.dirMask := rfl
@[simp] theorem State.issued_outLatch (s : State) (rest : List (List Byte)) : (s.issued rest).outLatch = s.outLatch := rfl
@[simp] theorem State.issued_txPhase (s : State) (rest : List (List Byte)) : (s.issued rest).txPhase = s.txPhase := rfl
@[simp] theorem State.issued_frame (s : State) (rest : List (List Byte)) : (s.issued rest).frame = s.frame := rfl
@[simp] theorem State.issued_initState (s : State) (rest : List (List Byte)) : (s.issued rest).initState = s.initState := rfl
@[simp] theorem State.issued_now (s : State) (rest : List (List Byte)) : (s.issued rest).now = s.now := rfl
@[simp] theorem State.issued_fault (s : State) (rest : List (List Byte)) : (s.issued rest).fault = s.fault := rfl
@[simp] theorem State.issued_refused (s : State) (rest : List (List Byte)) : (s.issued rest).refused = s.refused := rfl
@[simp] theorem State.issued_trace (s : State) (rest : List (List Byte)) : (s.issued rest).trace = s.trace := rfl
@[simp] theorem State.issued_host (s : State) (rest : List (List Byte)) : (s.issued rest).host = rest := rfl
@[simp] theorem State.issued_returns (s : State) (rest : List (List Byte)) : (s.issued rest).returns = s.returns := rfl
@[simp] theorem State.issued_env (s : State) (rest : List (List Byte)) : (s.issued rest).env = s.env := rfl

/-! ### The sequencer's marks -/

@[simp] theorem State.atElement_cfg (s : State) (pos : Option (Nat × Nat)) (k : Nat) : (s.atElement pos k).cfg = s.cfg := by cases pos <;> rfl
@[simp] theorem State.atElement_devBasePage (s : State) (pos : Option (Nat × Nat)) (k : Nat) : (s.atElement pos k).devBasePage = s.devBasePage := by cases pos <;> rfl
@[simp] theorem State.atElement_ctxBasePage (s : State) (pos : Option (Nat × Nat)) (k : Nat) : (s.atElement pos k).ctxBasePage = s.ctxBasePage := by cases pos <;> rfl
@[simp] theorem State.atElement_dirMask (s : State) (pos : Option (Nat × Nat)) (k : Nat) : (s.atElement pos k).dirMask = s.dirMask := by cases pos <;> rfl
@[simp] theorem State.atElement_outLatch (s : State) (pos : Option (Nat × Nat)) (k : Nat) : (s.atElement pos k).outLatch = s.outLatch := by cases pos <;> rfl
@[simp] theorem State.atElement_frame (s : State) (pos : Option (Nat × Nat)) (k : Nat) : (s.atElement pos k).frame = s.frame := by cases pos <;> rfl
@[simp] theorem State.atElement_initState (s : State) (pos : Option (Nat × Nat)) (k : Nat) : (s.atElement pos k).initState = s.initState := by cases pos <;> rfl
@[simp] theorem State.atElement_now (s : State) (pos : Option (Nat × Nat)) (k : Nat) : (s.atElement pos k).now = s.now := by cases pos <;> rfl
@[simp] theorem State.atElement_fault (s : State) (pos : Option (Nat × Nat)) (k : Nat) : (s.atElement pos k).fault = s.fault := by cases pos <;> rfl
@[simp] theorem State.atElement_refused (s : State) (pos : Option (Nat × Nat)) (k : Nat) : (s.atElement pos k).refused = s.refused := by cases pos <;> rfl
@[simp] theorem State.atElement_trace (s : State) (pos : Option (Nat × Nat)) (k : Nat) : (s.atElement pos k).trace = s.trace := by cases pos <;> rfl
@[simp] theorem State.atElement_host (s : State) (pos : Option (Nat × Nat)) (k : Nat) : (s.atElement pos k).host = s.host := by cases pos <;> rfl
@[simp] theorem State.atElement_returns (s : State) (pos : Option (Nat × Nat)) (k : Nat) : (s.atElement pos k).returns = s.returns := by cases pos <;> rfl
@[simp] theorem State.atElement_env (s : State) (pos : Option (Nat × Nat)) (k : Nat) : (s.atElement pos k).env = s.env := by cases pos <;> rfl
@[simp] theorem State.atElement_txPhase_none (s : State) (k : Nat) : (s.atElement none k).txPhase = s.txPhase := rfl
@[simp] theorem State.atElement_txPhase_some (s : State) (j sent k : Nat) : (s.atElement (some (j, sent)) k).txPhase = .txElement j k sent := rfl

@[simp] theorem State.atHold_cfg (s : State) (pos : Option (Nat × Nat)) (k : Nat) : (s.atHold pos k).cfg = s.cfg := by cases pos <;> rfl
@[simp] theorem State.atHold_devBasePage (s : State) (pos : Option (Nat × Nat)) (k : Nat) : (s.atHold pos k).devBasePage = s.devBasePage := by cases pos <;> rfl
@[simp] theorem State.atHold_ctxBasePage (s : State) (pos : Option (Nat × Nat)) (k : Nat) : (s.atHold pos k).ctxBasePage = s.ctxBasePage := by cases pos <;> rfl
@[simp] theorem State.atHold_dirMask (s : State) (pos : Option (Nat × Nat)) (k : Nat) : (s.atHold pos k).dirMask = s.dirMask := by cases pos <;> rfl
@[simp] theorem State.atHold_outLatch (s : State) (pos : Option (Nat × Nat)) (k : Nat) : (s.atHold pos k).outLatch = s.outLatch := by cases pos <;> rfl
@[simp] theorem State.atHold_frame (s : State) (pos : Option (Nat × Nat)) (k : Nat) : (s.atHold pos k).frame = s.frame := by cases pos <;> rfl
@[simp] theorem State.atHold_initState (s : State) (pos : Option (Nat × Nat)) (k : Nat) : (s.atHold pos k).initState = s.initState := by cases pos <;> rfl
@[simp] theorem State.atHold_now (s : State) (pos : Option (Nat × Nat)) (k : Nat) : (s.atHold pos k).now = s.now := by cases pos <;> rfl
@[simp] theorem State.atHold_fault (s : State) (pos : Option (Nat × Nat)) (k : Nat) : (s.atHold pos k).fault = s.fault := by cases pos <;> rfl
@[simp] theorem State.atHold_refused (s : State) (pos : Option (Nat × Nat)) (k : Nat) : (s.atHold pos k).refused = s.refused := by cases pos <;> rfl
@[simp] theorem State.atHold_trace (s : State) (pos : Option (Nat × Nat)) (k : Nat) : (s.atHold pos k).trace = s.trace := by cases pos <;> rfl
@[simp] theorem State.atHold_host (s : State) (pos : Option (Nat × Nat)) (k : Nat) : (s.atHold pos k).host = s.host := by cases pos <;> rfl
@[simp] theorem State.atHold_returns (s : State) (pos : Option (Nat × Nat)) (k : Nat) : (s.atHold pos k).returns = s.returns := by cases pos <;> rfl
@[simp] theorem State.atHold_env (s : State) (pos : Option (Nat × Nat)) (k : Nat) : (s.atHold pos k).env = s.env := by cases pos <;> rfl
@[simp] theorem State.atHold_txPhase_none (s : State) (k : Nat) : (s.atHold none k).txPhase = s.txPhase := rfl
@[simp] theorem State.atHold_txPhase_some (s : State) (j sent k : Nat) : (s.atHold (some (j, sent)) k).txPhase = .txHold j k sent := rfl

/-! ### Runs -/

@[simp] theorem Run.bind_done {α β : Type} (a : α) (s : State) (k : α → State → Run β) :
    (Run.done a s).bind k = k a s := rfl
@[simp] theorem Run.bind_fault {α β : Type} (r : Fault) (s : State) (k : α → State → Run β) :
    (Run.fault r s).bind k = .fault r s := rfl
@[simp] theorem Run.bind_refused {α β : Type} (r : Refusal) (s : State) (k : α → State → Run β) :
    (Run.refused r s).bind k = .refused r s := rfl
@[simp] theorem Run.map_done {α β : Type} (a : α) (s : State) (f : α → β) : (Run.done a s).map f = .done (f a) s := rfl
@[simp] theorem Run.map_fault {α β : Type} (r : Fault) (s : State) (f : α → β) :
    (Run.fault r s : Run α).map f = .fault r s := rfl
@[simp] theorem Run.map_refused {α β : Type} (r : Refusal) (s : State) (f : α → β) :
    (Run.refused r s : Run α).map f = .refused r s := rfl
@[simp] theorem Run.endState_done {α : Type} (a : α) (s : State) : (Run.done a s).endState = s := rfl
@[simp] theorem Run.endState_fault {α : Type} (r : Fault) (s : State) : (Run.fault r s : Run α).endState = s := rfl
@[simp] theorem Run.endState_refused {α : Type} (r : Refusal) (s : State) : (Run.refused r s : Run α).endState = s := rfl
@[simp] theorem Run.outcome_done_some (v : Returned) (s : State) :
    (Run.done (some v) s).outcome = .next { s with returns := s.returns ++ [v] } := rfl
@[simp] theorem Run.outcome_done_none (s : State) : (Run.done none s).outcome = .next s := rfl
@[simp] theorem Run.outcome_fault (r : Fault) (s : State) : (Run.fault r s).outcome = .fault r := rfl
@[simp] theorem Run.outcome_refused (r : Refusal) (s : State) : (Run.refused r s).outcome = .refused r := rfl

theorem Run.map_endState {α β : Type} (x : Run α) (f : α → β) : (x.map f).endState = x.endState := by
  cases x <;> rfl

/-- A sequence that is done had a first part that is done. -/
theorem Run.bind_eq_done {α β : Type} {x : Run α} {k : α → State → Run β} {b : β} {t : State}
    (h : x.bind k = .done b t) : ∃ a s, x = .done a s ∧ k a s = .done b t := by
  cases x with
  | done a s => exact ⟨a, s, rfl, h⟩
  | fault r s => cases h
  | refused r s => cases h

/-- A sequence that faults faulted in its first part or, that one done, in its second. -/
theorem Run.bind_eq_fault {α β : Type} {x : Run α} {k : α → State → Run β} {r : Fault} {t : State}
    (h : x.bind k = .fault r t) : x = .fault r t ∨ ∃ a s, x = .done a s ∧ k a s = .fault r t := by
  cases x with
  | done a s => exact .inr ⟨a, s, rfl, h⟩
  | fault r' s => cases h; exact .inl rfl
  | refused r' s => cases h

/-- A sequence that is refused was refused in its first part or, that one done, in its second. -/
theorem Run.bind_eq_refused {α β : Type} {x : Run α} {k : α → State → Run β} {r : Refusal} {t : State}
    (h : x.bind k = .refused r t) : x = .refused r t ∨ ∃ a s, x = .done a s ∧ k a s = .refused r t := by
  cases x with
  | done a s => exact .inr ⟨a, s, rfl, h⟩
  | fault r' s => cases h
  | refused r' s => cases h; exact .inl rfl

/-- An operation that answers a next state is done, and the next state is its end state with its value returned. -/
theorem Run.outcome_eq_next {x : Run (Option Returned)} {t : State} (h : x.outcome = .next t) :
    ∃ v s, x = .done v s ∧ t = { s with returns := s.returns ++ v.toList } := by
  cases x with
  | done v s =>
    cases v with
    | none => cases h; exact ⟨none, _, rfl, by simp⟩
    | some v => cases h; exact ⟨some v, s, rfl, rfl⟩
  | fault r s => cases h
  | refused r s => cases h

/-! ### The guard -/

/-- Where nothing has stopped the machine and the configuration is well-formed, the guard lets the operation run. -/
theorem State.guarded_of_none {s : State} (hf : s.fault = none) (hr : s.refused = none) (hc : s.cfg.failing = none)
    (k : Host.Outcome State Fault Refusal) : s.guarded k = k := by
  simp [State.guarded, hf, hr, hc]

/-- The guard reads three fields and no other. -/
theorem State.guarded_congr {s t : State} (hf : t.fault = s.fault) (hr : t.refused = s.refused) (hc : t.cfg = s.cfg)
    (k : Host.Outcome State Fault Refusal) : t.guarded k = s.guarded k := by
  simp [State.guarded, hf, hr, hc]

/-- A guard inside the same guard adds nothing. -/
theorem State.guarded_guarded (s : State) (k : Host.Outcome State Fault Refusal) : s.guarded (s.guarded k) = s.guarded k := by
  unfold State.guarded
  cases s.fault <;> cases s.refused <;> cases s.cfg.failing <;> rfl

/-- An operation that answers a next state was let run. -/
theorem State.guarded_eq_next {s t : State} {k : Host.Outcome State Fault Refusal} (h : s.guarded k = .next t) :
    s.fault = none ∧ s.refused = none ∧ s.cfg.failing = none ∧ k = .next t := by
  unfold State.guarded at h
  cases hf : s.fault with
  | some r => simp [hf] at h
  | none =>
    cases hr : s.refused with
    | some r => simp [hf, hr] at h
    | none =>
      cases hc : s.cfg.failing with
      | some c => simp [hf, hr, hc] at h
      | none => exact ⟨rfl, rfl, rfl, by simpa [hf, hr, hc] using h⟩

/-! ### Steps in a row -/

/-- A run of a machine goes on from its first step's next state. -/
theorem Core.run_succ (M : Host.Core) {s t : M.State} (h : M.step s = .next t) (k : Nat) : M.run (k + 1) s = M.run k t := by
  simp only [Host.Core.run, h]

/-- A run goes on from where its first steps end. -/
theorem Core.run_add (M : Host.Core) {s t : M.State} {a : Nat} (h : M.run a s = .next t) (b : Nat) :
    M.run (a + b) s = M.run b t := by
  induction a generalizing s with
  | zero =>
    cases h
    rw [Nat.zero_add]
  | succ a ih =>
    rw [Host.Core.run] at h
    split at h
    · rename_i u hu
      rw [Nat.add_right_comm, Core.run_succ M hu, ih h]
    · cases h
    · cases h

theorem run_add {s t : State} {a : Nat} (h : Sys2Proof.core.run a s = .next t) (b : Nat) :
    Sys2Proof.core.run (a + b) s = Sys2Proof.core.run b t := Core.run_add Sys2Proof.core h b

/-- A run of this machine goes on from its first step's next state. -/
theorem run_succ {s t : State} (h : step s = .next t) (k : Nat) : Sys2Proof.core.run (k + 1) s = Sys2Proof.core.run k t :=
  Core.run_succ Sys2Proof.core h k

/-- A run of one step. -/
theorem run_one {s t : State} (h : step s = .next t) : Sys2Proof.core.run 1 s = .next t := run_succ h 0

/-- Every meaning is the guard before what its operation performs. -/
theorem exec_eq_conclude (i : Instr) (s : State) : exec i s = s.conclude (perform i) := by
  cases i <;> rfl

/-! ### From what an operation performs to what `exec` answers -/

/-- An operation that is done with a value answers the state with that value returned. -/
theorem exec_of_done {i : Instr} {s t : State} {v : Returned} (he : s.Enabled) (h : perform i s = .done (some v) t) :
    exec i s = .next { t with returns := t.returns ++ [v] } := by
  rw [exec_eq_conclude, State.conclude, State.guarded_of_none he.1 he.2.1 he.2.2, h]
  rfl

/-- An operation that is still under way answers its state. -/
theorem exec_of_pending {i : Instr} {s t : State} (he : s.Enabled) (h : perform i s = .done none t) :
    exec i s = .next t := by
  rw [exec_eq_conclude, State.conclude, State.guarded_of_none he.1 he.2.1 he.2.2, h]
  rfl

/-- An operation that faults answers its fault. -/
theorem exec_of_fault {i : Instr} {s t : State} {r : Fault} (he : s.Enabled) (h : perform i s = .fault r t) :
    exec i s = .fault r := by
  rw [exec_eq_conclude, State.conclude, State.guarded_of_none he.1 he.2.1 he.2.2, h]
  rfl

/-- An operation that is refused answers its refusal. -/
theorem exec_of_refused {i : Instr} {s t : State} {r : Refusal} (he : s.Enabled) (h : perform i s = .refused r t) :
    exec i s = .refused r := by
  rw [exec_eq_conclude, State.conclude, State.guarded_of_none he.1 he.2.1 he.2.2, h]
  rfl

/-- Operations that perform the same answer the same. -/
theorem exec_congr {i j : Instr} {s : State} (h : perform i s = perform j s) : exec i s = exec j s := by
  rw [exec_eq_conclude, exec_eq_conclude, State.conclude, State.conclude, h]

/-- An operation that answers a next state was enabled and done. -/
theorem exec_eq_next {i : Instr} {s t : State} (h : exec i s = .next t) :
    s.Enabled ∧ ∃ v u, perform i s = .done v u ∧ t = { u with returns := u.returns ++ v.toList } := by
  rw [exec_eq_conclude] at h
  obtain ⟨hf, hr, hc, h⟩ := State.guarded_eq_next h
  exact ⟨⟨hf, hr, hc⟩, Run.outcome_eq_next h⟩

end Sys2Proof.Machine
end

