-- ==== Sys2Proof/Laws/Words.lean ====
section
/-! SUPPORT. The fields of addresses and data words. -/

namespace Sys2Proof.Machine

/-- The bits of a page above a 24-bit offset. -/
theorem getLsbD_page_append (p : Byte) (q : BitVec 24) (i : Nat) :
    (p ++ q : Word).getLsbD i = if i < 24 then q.getLsbD i else p.getLsbD (i - 24) := by
  have h := BitVec.getLsbD_append (x := p) (y := q) (i := i)
  simpa [Bool.cond_eq_ite] using h

/-- The bits of a window byte above a 16-bit offset. -/
theorem getLsbD_window_append (p : Byte) (q : Half) (i : Nat) :
    (p ++ q : BitVec 24).getLsbD i = if i < 16 then q.getLsbD i else p.getLsbD (i - 16) := by
  have h := BitVec.getLsbD_append (x := p) (y := q) (i := i)
  simpa [Bool.cond_eq_ite] using h

/-- The bits of a pair of halves. -/
theorem getLsbD_half_append (p q : Half) (i : Nat) :
    (p ++ q : Word).getLsbD i = if i < 16 then q.getLsbD i else p.getLsbD (i - 16) := by
  have h := BitVec.getLsbD_append (x := p) (y := q) (i := i)
  simpa [Bool.cond_eq_ite] using h

/-- An address holds the page above the 24 bits of the offset. -/
theorem addressOf_eq (p : Byte) (o : Word) : addressOf p o = p ++ o.extractLsb' 0 24 := by
  apply BitVec.eq_of_getLsbD_eq
  intro i hi
  have hm : ∀ k, k < 32 → (0x00FFFFFF : Word).getLsbD k = decide (k < 24) := by decide
  simp only [addressOf, BitVec.getLsbD_or, BitVec.getLsbD_shiftLeft, BitVec.getLsbD_setWidth, BitVec.getLsbD_and,
    getLsbD_page_append, BitVec.getLsbD_extractLsb']
  rw [hm i hi]
  by_cases h : i < 24
  · simp [h]
  · simp [h, hi, show i - 24 < 32 by omega]

@[simp] theorem pageOf_addressOf (p : Byte) (o : Word) : pageOf (addressOf p o) = p := by
  apply BitVec.eq_of_getLsbD_eq
  intro i hi
  rw [addressOf_eq, pageOf, BitVec.getLsbD_extractLsb', getLsbD_page_append]
  simp [hi]

/-- The 24-bit register offset survives the composition with a page. -/
theorem low24_addressOf (p : Byte) (o : Word) : (addressOf p o).extractLsb' 0 24 = o.extractLsb' 0 24 := by
  apply BitVec.eq_of_getLsbD_eq
  intro i hi
  rw [addressOf_eq, BitVec.getLsbD_extractLsb', getLsbD_page_append]
  simp [hi]

/-- Two register offsets give one address exactly when their low 24 bits agree. -/
theorem addressOf_inj (p : Byte) (o o' : Word) :
    addressOf p o = addressOf p o' ↔ o.extractLsb' 0 24 = o'.extractLsb' 0 24 := by
  constructor
  · intro h
    rw [← low24_addressOf p o, h, low24_addressOf]
  · intro h
    rw [addressOf_eq, addressOf_eq, h]

theorem portReg_eq (cfg : Cfg) (off : Half) : (portReg cfg off).extractLsb' 0 24 = cfg.portWindow ++ off := by
  apply BitVec.eq_of_getLsbD_eq
  intro i hi
  simp only [portReg, BitVec.getLsbD_extractLsb', BitVec.getLsbD_setWidth, BitVec.getLsbD_or,
    BitVec.getLsbD_shiftLeft, getLsbD_window_append, Nat.zero_add]
  by_cases h : i < 16
  · simp [h, hi, show i < 32 by omega]
  · simp [h, hi, show i < 32 by omega, show i - 16 < 24 by omega, BitVec.getLsbD_of_ge off i (by omega)]

/-- The physical address of a port is `{CtxBasePage, PORT_WINDOW, off}` (20_memory.md R36). -/
theorem State.portAddress_eq (s : State) (off : Half) :
    s.portAddress off = s.ctxBasePage ++ (s.cfg.portWindow ++ off) := by
  rw [State.portAddress, State.regAddress, addressOf_eq, portReg_eq]

@[simp] theorem pageOf_portAddress (s : State) (off : Half) : pageOf (s.portAddress off) = s.ctxBasePage :=
  pageOf_addressOf _ _

@[simp] theorem pageOf_regAddress (s : State) (o : Word) : pageOf (s.regAddress o) = s.ctxBasePage :=
  pageOf_addressOf _ _

@[simp] theorem windowOf_portAddress (s : State) (off : Half) : windowOf (s.portAddress off) = s.cfg.portWindow := by
  apply BitVec.eq_of_getLsbD_eq
  intro i hi
  rw [State.portAddress_eq, windowOf, BitVec.getLsbD_extractLsb', getLsbD_page_append, getLsbD_window_append]
  simp [hi, show 16 + i < 24 by omega]

@[simp] theorem offsetOf_portAddress (s : State) (off : Half) : offsetOf (s.portAddress off) = off := by
  apply BitVec.eq_of_getLsbD_eq
  intro i hi
  rw [State.portAddress_eq, offsetOf, BitVec.getLsbD_extractLsb', getLsbD_page_append, getLsbD_window_append]
  simp [hi, show i < 24 by omega]

@[simp] theorem highHalf_pairWord (hi lo : Half) : highHalf (pairWord hi lo) = hi := by
  apply BitVec.eq_of_getLsbD_eq
  intro i h
  rw [highHalf, pairWord, BitVec.getLsbD_extractLsb', getLsbD_half_append]
  simp [h]

@[simp] theorem lowHalf_pairWord (hi lo : Half) : lowHalf (pairWord hi lo) = lo := by
  apply BitVec.eq_of_getLsbD_eq
  intro i h
  rw [lowHalf, pairWord, BitVec.getLsbD_extractLsb', getLsbD_half_append]
  simp [h]

theorem pairWord_halves (v : Word) : pairWord (highHalf v) (lowHalf v) = v := by
  apply BitVec.eq_of_getLsbD_eq
  intro i h
  rw [pairWord, getLsbD_half_append, lowHalf, highHalf, BitVec.getLsbD_extractLsb', BitVec.getLsbD_extractLsb']
  by_cases h' : i < 16
  · simp [h']
  · simp [h', show i - 16 < 16 by omega, show 16 + (i - 16) = i by omega]

/-- The pin word comes back out of a read-pins data word, in either lane (30_encoding.md R53). -/
@[simp] theorem pinWordOf_readWord (cfg : Cfg) (pins other : Half) : pinWordOf cfg (readWord cfg pins other) = pins := by
  unfold pinWordOf readWord
  cases cfg.readLane <;> simp [ReadLane.pick]

/-- A page zero-extended to a half has a zero high byte. -/
theorem zext_high_byte (p : Byte) : (p.setWidth 16).extractLsb' 8 8 = 0#8 := by
  apply BitVec.eq_of_getLsbD_eq
  intro i h
  rw [BitVec.getLsbD_extractLsb', BitVec.getLsbD_setWidth, BitVec.getLsbD_of_ge p (8 + i) (by omega)]
  simp

theorem zext_low_byte (p : Byte) : (p.setWidth 16).extractLsb' 0 8 = p := by
  apply BitVec.eq_of_getLsbD_eq
  intro i h
  rw [BitVec.getLsbD_extractLsb', BitVec.getLsbD_setWidth]
  simp [h, show i < 16 by omega]

end Sys2Proof.Machine
end

