-- ==== Sys2Proof/Laws/Access.lean ====
section
/-! SUPPORT. Everything one bus access can do (40_port_ops.md R67), said once; and the exact result of each port write. -/

namespace Sys2Proof.Machine

/-! ### The decode -/

/-- An address is in the device's window by its two upper fields. -/
theorem inWindow_iff (cfg : Cfg) (dev : Byte) (a : Word) :
    inWindow cfg dev a = true ↔ pageOf a = dev ∧ windowOf a = cfg.portWindow := by
  simp [inWindow]

/-- A port's address is in the device's window exactly when the two copies of the page agree. -/
theorem inWindow_portAddress (s : State) (off : Half) :
    inWindow s.cfg s.devBasePage (s.portAddress off) = decide (s.ctxBasePage = s.devBasePage) := by
  rw [Bool.eq_iff_iff, inWindow_iff]
  simp

/-- An access at a page the device does not hold is outside the block (20_memory.md R37). -/
theorem busDecode_outside {cfg : Cfg} {dev : Byte} {a : Word} (h : pageOf a ≠ dev) (dir : Dir) (data : Word) :
    busDecode cfg dev a dir data = .outside := by
  have : inWindow cfg dev a = false := by
    rw [Bool.eq_false_iff, Ne, inWindow_iff]
    exact fun hh => h hh.1
  simp [busDecode, this]

/-- What decodes to a port, or to no port, lies on the device's page. -/
theorem busDecode_page {cfg : Cfg} {dev : Byte} {a : Word} {dir : Dir} {data : Word}
    (h : busDecode cfg dev a dir data ≠ .outside) : pageOf a = dev := by
  by_contra hne
  exact h (busDecode_outside hne dir data)

/-- The direction of what a transaction decodes to (30_encoding.md R66). -/
theorem busDecode_dir (cfg : Cfg) (dev : Byte) (a : Word) (dir : Dir) (data : Word) :
    match busDecode cfg dev a dir data with
    | .readPins => dir = .read
    | .writePins | .writePins2 | .setDirections | .setBase => dir = .write
    | .outside | .undefinedPort => True := by
  unfold busDecode
  cases dir <;> split_ifs <;> trivial

section
variable {s : State} (hc : s.cfg.failing = none) (hp : s.ctxBasePage = s.devBasePage)
include hp

theorem busDecode_readPins (data : Word) :
    busDecode s.cfg s.devBasePage (s.portAddress s.cfg.offReadPins) .read data = .readPins := by
  simp [busDecode, inWindow_portAddress, hp]

theorem busDecode_writePins (data : Word) :
    busDecode s.cfg s.devBasePage (s.portAddress s.cfg.offWritePins) .write data =
      if highHalf data = lowHalf data then .writePins else .writePins2 := by
  simp [busDecode, inWindow_portAddress, hp]

include hc

theorem busDecode_setDirections (data : Word) :
    busDecode s.cfg s.devBasePage (s.portAddress s.cfg.offSetDirections) .write data = .setDirections := by
  have := (Cfg.offsets_distinct hc).2.2.2.2.2
  simp [busDecode, inWindow_portAddress, hp, this]

theorem busDecode_setBase (data : Word) :
    busDecode s.cfg s.devBasePage (s.portAddress s.cfg.offSetBase) .write data = .setBase := by
  have h1 := (Cfg.offsets_distinct hc).2.2.2.1
  have h2 := (Cfg.offsets_distinct hc).2.2.2.2.1
  simp [busDecode, inWindow_portAddress, hp, h1, h2]

end

/-! ### One access, by its result -/

/-- An access that is done was accessible, and it did one of five things: nothing but complete, or complete and then
latch the pins, set the mask or move the device's page, the last three only at the device's own page. -/
theorem access_done {a : Word} {dir : Dir} {data w : Word} {s t : State} (h : access a dir data s = .done w t) :
    s.cfg.accessible a = true ∧
      ((t = s.complete a dir (match dir with | .read => w | .write => data)) ∨
        (dir = .write ∧ pageOf a = s.devBasePage ∧
          ((∃ v, t = (s.complete a .write data).latchPins v) ∨ (∃ m, t = (s.complete a .write data).setMask m) ∨
            (∃ p, t = (s.complete a .write data).setDevPage p)))) := by
  unfold access at h
  by_cases ha : s.cfg.accessible a = true
  · refine ⟨ha, ?_⟩
    rw [if_pos ha] at h
    have hpage : busDecode s.cfg s.devBasePage a dir data ≠ .outside → pageOf a = s.devBasePage :=
      busDecode_page
    have hdir := busDecode_dir s.cfg s.devBasePage a dir data
    cases hd : busDecode s.cfg s.devBasePage a dir data <;> rw [hd] at h hpage hdir <;> dsimp only at h
    case outside => cases dir <;> cases h <;> exact .inl rfl
    case readPins => cases h; subst hdir; exact .inl rfl
    case writePins => cases h; exact .inr ⟨hdir, hpage nofun, .inl ⟨_, rfl⟩⟩
    case writePins2 =>
      cases hm : mergedHalf s.cfg (highHalf data) (lowHalf data) <;> rw [hm] at h <;> cases h
      exact .inr ⟨hdir, hpage nofun, .inl ⟨_, rfl⟩⟩
    case setDirections =>
      cases hm : mergedHalf s.cfg (highHalf data) (lowHalf data) <;> rw [hm] at h <;> cases h
      exact .inr ⟨hdir, hpage nofun, .inr (.inl ⟨_, rfl⟩)⟩
    case setBase =>
      cases hm : mergedPage s.cfg (highHalf data) (lowHalf data) <;> rw [hm] at h <;> cases h
      exact .inr ⟨hdir, hpage nofun, .inr (.inr ⟨_, rfl⟩)⟩
    case undefinedPort => cases h
  · rw [if_neg ha] at h
    cases h

/-- An access that faults was not accessible; nothing but `Fault` changes (60_exceptions.md R107, R110). -/
theorem access_fault {a : Word} {dir : Dir} {data : Word} {s t : State} {r : Fault}
    (h : access a dir data s = .fault r t) :
    s.cfg.accessible a = false ∧ r = .fatalAddress a ∧ t = { s with fault := some (.fatalAddress a) } := by
  unfold access at h
  by_cases ha : s.cfg.accessible a = true
  · rw [if_pos ha] at h
    cases hd : busDecode s.cfg s.devBasePage a dir data <;> rw [hd] at h <;> dsimp only at h
    case outside => cases dir <;> cases h
    case readPins => cases h
    case writePins => cases h
    case writePins2 => cases hm : mergedHalf s.cfg (highHalf data) (lowHalf data) <;> rw [hm] at h <;> cases h
    case setDirections => cases hm : mergedHalf s.cfg (highHalf data) (lowHalf data) <;> rw [hm] at h <;> cases h
    case setBase => cases hm : mergedPage s.cfg (highHalf data) (lowHalf data) <;> rw [hm] at h <;> cases h
    case undefinedPort => cases h
  · rw [if_neg ha] at h
    cases h
    exact ⟨by simpa using ha, rfl, rfl⟩

/-- An access that is refused was accessible; nothing but `Refused` changes (60_exceptions.md R111, R114). -/
theorem access_refused {a : Word} {dir : Dir} {data : Word} {s t : State} {r : Refusal}
    (h : access a dir data s = .refused r t) :
    s.cfg.accessible a = true ∧ t = { s with refused := some r } := by
  unfold access at h
  by_cases ha : s.cfg.accessible a = true
  · rw [if_pos ha] at h
    refine ⟨ha, ?_⟩
    cases hd : busDecode s.cfg s.devBasePage a dir data <;> rw [hd] at h <;> dsimp only at h
    case outside => cases dir <;> cases h
    case readPins => cases h
    case writePins => cases h
    case writePins2 => cases hm : mergedHalf s.cfg (highHalf data) (lowHalf data) <;> rw [hm] at h <;> cases h; rfl
    case setDirections => cases hm : mergedHalf s.cfg (highHalf data) (lowHalf data) <;> rw [hm] at h <;> cases h; rfl
    case setBase => cases hm : mergedPage s.cfg (highHalf data) (lowHalf data) <;> rw [hm] at h <;> cases h; rfl
    case undefinedPort => cases h; rfl
  · rw [if_neg ha] at h
    cases h

/-- An access at an inaccessible address faults, whatever it would have decoded to (60_exceptions.md R114). -/
theorem access_inaccessible {a : Word} {s : State} (ha : s.cfg.accessible a = false) (dir : Dir) (data : Word) :
    access a dir data s = .fault (.fatalAddress a) { s with fault := some (.fatalAddress a) } := by
  simp [access, ha, State.raiseFault]

/-- A write outside the block is recorded and changes nothing of the block's (20_memory.md R37). -/
theorem access_write_outside {a : Word} {s : State} (ha : s.cfg.accessible a = true) {data : Word}
    (h : busDecode s.cfg s.devBasePage a .write data = .outside) :
    access a .write data s = .done 0 (s.complete a .write data) := by
  simp [access, ha, h]

/-- A read outside the block returns a draw (20_memory.md R37). -/
theorem access_read_outside {a : Word} {s : State} (ha : s.cfg.accessible a = true) {data : Word}
    (h : busDecode s.cfg s.devBasePage a .read data = .outside) :
    access a .read data s = .done s.busDraw.outside (s.complete a .read s.busDraw.outside) := by
  simp [access, ha, h]

/-! ### The port operations, exactly -/

theorem writePins_eq (d : Half) (s : State) :
    writePins d s = access (s.portAddress s.cfg.offWritePins) .write (sameWord d) s := rfl

theorem setDirections_eq (m : Half) (s : State) :
    setDirections m s = access (s.portAddress s.cfg.offSetDirections) .write (sameWord m) s := rfl

theorem readPins_eq (s : State) : readPins s = access (s.portAddress s.cfg.offReadPins) .read 0 s := rfl

/-- WRITE_PINS at the device's page latches the word and records it (R72). -/
theorem writePins_hit {s : State} (ha : s.cfg.accessible (s.portAddress s.cfg.offWritePins) = true)
    (hp : s.ctxBasePage = s.devBasePage) (d : Half) :
    writePins d s =
      .done 0 ((s.complete (s.portAddress s.cfg.offWritePins) .write (sameWord d)).latchPins d) := by
  rw [writePins_eq, access, if_pos ha, busDecode_writePins hp]
  simp [sameWord]

/-- WRITE_PINS at another page misses the device (70_reset_and_hazards.md R131). -/
theorem writePins_miss {s : State} (ha : s.cfg.accessible (s.portAddress s.cfg.offWritePins) = true)
    (hp : s.ctxBasePage ≠ s.devBasePage) (d : Half) :
    writePins d s = .done 0 (s.complete (s.portAddress s.cfg.offWritePins) .write (sameWord d)) :=
  access_write_outside ha (busDecode_outside (by simpa using hp) _ _)

/-- SET_DIRECTIONS at the device's page sets the mask (R75). -/
theorem setDirections_hit {s : State} (hc : s.cfg.failing = none)
    (ha : s.cfg.accessible (s.portAddress s.cfg.offSetDirections) = true)
    (hp : s.ctxBasePage = s.devBasePage) (m : Half) :
    setDirections m s =
      .done 0 ((s.complete (s.portAddress s.cfg.offSetDirections) .write (sameWord m)).setMask m) := by
  rw [setDirections_eq, access, if_pos ha, busDecode_setDirections hc hp]
  simp [sameWord, mergedHalf]

/-- SET_DIRECTIONS at another page misses the device. -/
theorem setDirections_miss {s : State} (ha : s.cfg.accessible (s.portAddress s.cfg.offSetDirections) = true)
    (hp : s.ctxBasePage ≠ s.devBasePage) (m : Half) :
    setDirections m s = .done 0 (s.complete (s.portAddress s.cfg.offSetDirections) .write (sameWord m)) :=
  access_write_outside ha (busDecode_outside (by simpa using hp) _ _)

/-- READ_PINS at an accessible address is done and changes nothing but the clock, the draws and the trace (R71). -/
theorem readPins_done {s : State} (ha : s.cfg.accessible (s.portAddress s.cfg.offReadPins) = true) :
    readPins s = .done s.readPinsWord (s.complete (s.portAddress s.cfg.offReadPins) .read s.readPinsWord) := by
  by_cases hp : s.ctxBasePage = s.devBasePage
  · rw [readPins_eq, access, if_pos ha, busDecode_readPins hp]
    simp [State.readPinsWord, hp]
  · rw [readPins_eq, access_read_outside ha (busDecode_outside (by simpa using hp) _ _)]
    simp [State.readPinsWord, hp]

/-- WRITE_PINS at an inaccessible address faults (60_exceptions.md R107). -/
theorem writePins_unreached {s : State} (h : ¬ s.Reaches s.cfg.offWritePins) (d : Half) :
    writePins d s = .fault (.fatalAddress (s.portAddress s.cfg.offWritePins))
      { s with fault := some (.fatalAddress (s.portAddress s.cfg.offWritePins)) } :=
  access_inaccessible (Bool.eq_false_iff.2 h) _ _

/-- SET_DIRECTIONS at an inaccessible address faults. -/
theorem setDirections_unreached {s : State} (h : ¬ s.Reaches s.cfg.offSetDirections) (m : Half) :
    setDirections m s = .fault (.fatalAddress (s.portAddress s.cfg.offSetDirections))
      { s with fault := some (.fatalAddress (s.portAddress s.cfg.offSetDirections)) } :=
  access_inaccessible (Bool.eq_false_iff.2 h) _ _

/-- READ_PINS at an inaccessible address faults. -/
theorem readPins_unreached {s : State} (h : ¬ s.Reaches s.cfg.offReadPins) :
    readPins s = .fault (.fatalAddress (s.portAddress s.cfg.offReadPins))
      { s with fault := some (.fatalAddress (s.portAddress s.cfg.offReadPins)) } :=
  access_inaccessible (Bool.eq_false_iff.2 h) _ _

/-- WRITE_PINS that is done was at an accessible address. -/
theorem writePins_reached {s t : State} {d : Half} {w : Word} (h : writePins d s = .done w t) :
    s.Reaches s.cfg.offWritePins := (access_done h).1

/-- READ_PINS that is done was at an accessible address. -/
theorem readPins_reached {s t : State} {w : Word} (h : readPins s = .done w t) :
    s.Reaches s.cfg.offReadPins := (access_done h).1

/-- WRITE_PINS at an accessible address is done, at whichever page. -/
theorem writePins_done {s : State} (ha : s.cfg.accessible (s.portAddress s.cfg.offWritePins) = true) (d : Half) :
    ∃ t, writePins d s = .done 0 t := by
  by_cases hp : s.ctxBasePage = s.devBasePage
  · exact ⟨_, writePins_hit ha hp d⟩
  · exact ⟨_, writePins_miss ha hp d⟩

end Sys2Proof.Machine
end

