-- ==== Sys2Proof/Laws/Decode.lean ====
section
/-! SUPPORT. How a command line's text is read back: words, numbers, operands, buffers. -/

namespace Sys2Proof

/-! ### Words -/

/-- Reading the bytes of a word only extends the word being read. -/
theorem lexLine_word (w rest : List Byte) (hw : ∀ c ∈ w, isWordByte c = true) :
    ∀ acc, lexLine (w ++ rest) acc = lexLine rest (w.reverse ++ acc) := by
  induction w with
  | nil => intro acc; rfl
  | cons c w ih =>
    intro acc
    rw [List.cons_append, lexLine, if_pos (hw c (by simp)), ih fun d hd => hw d (by simp [hd])]
    simp

theorem wordToken_reverse {w : List Byte} (hw : w ≠ []) : wordToken w.reverse = [.word w] := by
  simp [wordToken, hw]

/-- A word at the end of a line. -/
theorem lexLine_last {w : List Byte} (hne : w ≠ []) (hw : ∀ c ∈ w, isWordByte c = true) :
    lexLine w [] = [.word w] := by
  have := lexLine_word w [] hw []
  simp only [List.append_nil] at this
  rw [this, lexLine, wordToken_reverse hne]

/-- A word before a byte that is none of a word. -/
theorem lexLine_word_then {w : List Byte} (hne : w ≠ []) (hw : ∀ c ∈ w, isWordByte c = true) (c : Byte)
    (rest : List Byte) (hc : isWordByte c = false) :
    lexLine (w ++ c :: rest) [] = .word w :: lexLine (c :: rest) [] := by
  rw [lexLine_word w _ hw, List.append_nil]
  have hcc : ¬ isWordByte c = true := by simp [hc]
  rw [lexLine, lexLine, if_neg hcc, if_neg hcc]
  split_ifs <;> simp [wordToken, hne]

/-- A word before anything that does not go on with a byte of a word. -/
theorem lexLine_word_before {w : List Byte} (hne : w ≠ []) (hw : ∀ c ∈ w, isWordByte c = true) {rest : List Byte}
    (hr : ∀ c ∈ rest.head?, isWordByte c = false) : lexLine (w ++ rest) [] = .word w :: lexLine rest [] := by
  cases rest with
  | nil =>
    rw [List.append_nil, lexLine_last hne hw]
    rfl
  | cons c cs => exact lexLine_word_then hne hw c cs (hr c rfl)

/-- White space separates and is dropped. -/
theorem lexLine_blank {c : Byte} (hc : isBlankByte c = true) (rest : List Byte) :
    lexLine (c :: rest) [] = lexLine rest [] := by
  have h : ∀ c : Byte, isBlankByte c = true → ¬ isWordByte c = true ∧ ¬ c.toNat = 0x3B := by decide
  rw [lexLine, if_neg (h c hc).1, if_neg (h c hc).2, if_pos hc]
  rfl

/-- White space at the beginning of a line is dropped. -/
theorem lexLine_blanks (rest : List Byte) :
    ∀ blanks : List Byte, (∀ c ∈ blanks, isBlankByte c = true) → lexLine (blanks ++ rest) [] = lexLine rest []
  | [], _ => rfl
  | c :: cs, h => by
    rw [List.cons_append, lexLine_blank (h c (by simp)), lexLine_blanks rest cs fun d hd => h d (by simp [hd])]

/-- A space separates and is dropped. -/
theorem lexLine_space (rest : List Byte) : lexLine (0x20 :: rest) [] = lexLine rest [] := by
  rw [lexLine, if_neg (by decide), if_neg (by decide), if_pos (by decide)]
  rfl

theorem lexLine_comma (rest : List Byte) : lexLine (0x2C :: rest) [] = .comma :: lexLine rest [] := by
  rw [lexLine, if_neg (by decide), if_neg (by decide), if_neg (by decide)]
  rfl

theorem lexLine_leftBracket (rest : List Byte) : lexLine (0x5B :: rest) [] = .leftBracket :: lexLine rest [] := by
  rw [lexLine, if_neg (by decide), if_neg (by decide), if_neg (by decide)]
  rfl

theorem lexLine_rightBracket (rest : List Byte) : lexLine (0x5D :: rest) [] = .rightBracket :: lexLine rest [] := by
  rw [lexLine, if_neg (by decide), if_neg (by decide), if_neg (by decide)]
  rfl

/-! ### Numbers -/

theorem hexDigit_word : ∀ d, d < 16 → isWordByte (hexDigit d) = true := by decide

theorem hexValue_hexDigit : ∀ d, d < 16 → hexValue (hexDigit d) = some d := by decide

theorem hexDigitsOnto_word (fuel : Nat) :
    ∀ n acc, (∀ c ∈ acc, isWordByte c = true) → ∀ c ∈ hexDigitsOnto fuel n acc, isWordByte c = true := by
  induction fuel with
  | zero => intro n acc h; exact h
  | succ fuel ih =>
    intro n acc h
    have h' : ∀ c ∈ hexDigit (n % 16) :: acc, isWordByte c = true := by
      intro c hc
      obtain rfl | hc := List.mem_cons.1 hc
      · exact hexDigit_word _ (Nat.mod_lt _ (by decide))
      · exact h c hc
    rw [hexDigitsOnto]
    split_ifs
    · exact h'
    · exact ih _ _ h'

/-- Reading the digits written for `n` gives `n` before the digits that follow. -/
theorem digitsValue_hexDigitsOnto (fuel : Nat) :
    ∀ n acc, n < fuel → digitsValue hexValue 16 (hexDigitsOnto fuel n acc) 0 = digitsValue hexValue 16 acc n := by
  induction fuel with
  | zero => intro n acc h; omega
  | succ fuel ih =>
    intro n acc h
    have hv := hexValue_hexDigit (n % 16) (Nat.mod_lt _ (by decide))
    rw [hexDigitsOnto]
    split_ifs with h0
    · have hn : n % 16 = n := by omega
      rw [digitsValue, hv, hn]
      simp
    · rw [ih (n / 16) _ (by omega), digitsValue, hv]
      have hn : 16 * (n / 16) + n % 16 = n := by omega
      simp [hn]

theorem hexDigitsOnto_ne_nil (fuel n : Nat) (acc : List Byte) (h : 0 < fuel) : hexDigitsOnto fuel n acc ≠ [] := by
  have key : ∀ fuel n acc, acc ≠ [] → hexDigitsOnto fuel n acc ≠ [] := by
    intro fuel
    induction fuel with
    | zero => intro n acc h; exact h
    | succ fuel ih =>
      intro n acc _
      rw [hexDigitsOnto]
      split_ifs
      · simp
      · exact ih _ _ (by simp)
  cases fuel with
  | zero => omega
  | succ fuel =>
    rw [hexDigitsOnto]
    split_ifs
    · simp
    · exact key _ _ _ (by simp)

theorem numberText_word (n : Nat) : ∀ c ∈ numberText n, isWordByte c = true := by
  intro c hc
  obtain rfl | hc := List.mem_cons.1 hc
  · decide
  · obtain rfl | hc := List.mem_cons.1 hc
    · decide
    · exact hexDigitsOnto_word _ _ [] (by simp) c hc

theorem numberText_ne_nil (n : Nat) : numberText n ≠ [] := by simp [numberText]

/-- A number is read back from its text (30_encoding.md R64). -/
theorem numberOf_numberText (n : Nat) : numberOf (numberText n) = some n := by
  have hne := hexDigitsOnto_ne_nil (n + 1) n [] (Nat.succ_pos n)
  rw [numberText, numberOf, if_pos (by decide)]
  have : (hexDigitsOnto (n + 1) n []).isEmpty = false := by simpa using hne
  simp [this, digitsValue_hexDigitsOnto (n + 1) n [] (Nat.lt_succ_self n), digitsValue]

/-- An operand is read back from its text. -/
theorem operandOf_numberText {w : Nat} (v : BitVec w) : operandOf w (numberText v.toNat) = some v := by
  rw [operandOf, numberOf_numberText]
  simp [v.isLt]

/-! ### Command names -/

theorem keyword_word (k : Keyword) : ∀ c ∈ k.text, isWordByte c = true :=
  List.all_eq_true.1 (by cases k <;> rfl)

theorem keyword_ne_nil (k : Keyword) : k.text ≠ [] := by cases k <;> decide

/-- A command name is read back from its spelling: no two names are spelled alike. -/
theorem keywordOf_text (k : Keyword) : keywordOf k.text = some k := by cases k <;> decide

/-! ### Buffers -/

theorem bufferRest_text (bs : List Byte) : bufferRest (lexLine (bufferRestText bs) []) = some bs := by
  induction bs with
  | nil => rfl
  | cons b bs ih =>
    have hr : ∃ c rest, bufferRestText bs = c :: rest ∧ isWordByte c = false := by
      cases bs with
      | nil => exact ⟨_, _, rfl, by decide⟩
      | cons b' bs' => exact ⟨_, _, rfl, by decide⟩
    obtain ⟨c, rest, hcr, hc⟩ := hr
    rw [bufferRestText, lexLine_comma, lexLine_space, hcr,
      lexLine_word_then (numberText_ne_nil _) (numberText_word _) c rest hc, ← hcr, bufferRest, ih,
      operandOf_numberText b]

theorem bufferOf_text (bs : List Byte) : bufferOf (lexLine (bufferText bs) []) = some bs := by
  cases bs with
  | nil => rfl
  | cons b bs =>
    have hr : ∃ c rest, bufferRestText bs = c :: rest ∧ isWordByte c = false := by
      cases bs with
      | nil => exact ⟨_, _, rfl, by decide⟩
      | cons b' bs' => exact ⟨_, _, rfl, by decide⟩
    obtain ⟨c, rest, hcr, hc⟩ := hr
    rw [bufferText, lexLine_leftBracket, hcr,
      lexLine_word_then (numberText_ne_nil _) (numberText_word _) c rest hc, ← hcr, bufferOf, bufferRest_text,
      operandOf_numberText b]

/-! ### Whole lines -/

theorem decode_nullary (k : Keyword) :
    decode k.text = match operationOf k [] with
      | some i => .op i
      | none => .unmodelled k.text := by
  rw [decode, lexLine_last (keyword_ne_nil k) (keyword_word k)]
  cases h : operationOf k [] <;> simp only [keywordOf_text, h]

theorem decode_args (k : Keyword) (rest : List Byte) :
    decode (k.text ++ 0x20 :: rest) = match operationOf k (lexLine rest []) with
      | some i => .op i
      | none => .unmodelled k.text := by
  rw [decode, lexLine_word_then (keyword_ne_nil k) (keyword_word k) _ _ (by decide), lexLine_space]
  cases h : operationOf k (lexLine rest []) <;> simp only [keywordOf_text, h]

theorem lexLine_numberText (n : Nat) : lexLine (numberText n) [] = [.word (numberText n)] :=
  lexLine_last (numberText_ne_nil n) (numberText_word n)

theorem lexLine_two (m n : Nat) :
    lexLine (numberText m ++ 0x2C :: 0x20 :: numberText n) [] =
      [.word (numberText m), .comma, .word (numberText n)] := by
  rw [lexLine_word_then (numberText_ne_nil m) (numberText_word m) _ _ (by decide), lexLine_comma, lexLine_space,
    lexLine_numberText]

end Sys2Proof
end

