-- ==== Sys2Proof/Laws/Moves.lean ====
section
/-! SUPPORT. Every operation is a sequence of the moves below, said once; what every operation keeps follows from what
each move keeps. -/

namespace Sys2Proof.Machine

/-- The primitive moves of the machine inside an operation, with what each needs. -/
inductive Move : State → State → Prop where
  | complete (s : State) (a : Word) (dir : Dir) (d : Word) (ha : s.cfg.accessible a = true)
      (hp : pageOf a = s.ctxBasePage) : Move s (s.complete a dir d)
  | latchPins (s : State) (v : Half) (hp : s.ctxBasePage = s.devBasePage) : Move s (s.latchPins v)
  | setMask (s : State) (m : Half) (hp : s.ctxBasePage = s.devBasePage) : Move s (s.setMask m)
  | setDevPage (s : State) (p : Byte) (hp : s.ctxBasePage = s.devBasePage) : Move s (s.setDevPage p)
  | delayed (s : State) (n : Nat) : Move s (s.delayed n)
  | clockRead (s : State) : Move s s.clockRead
  | frame (s : State) (f : Option Frame) : Move s { s with frame := f }
  | txPhase (s : State) (p : TxPhase) : Move s (s.inTx p)
  | initState (s : State) (p : InitState) : Move s (s.inInit p)
  | fault (s : State) (a : Word) (ha : s.cfg.accessible a = false) (hp : pageOf a = s.ctxBasePage) :
      Move s { s with fault := some (.fatalAddress a) }
  | refused (s : State) (r : Refusal) : Move s { s with refused := some r }

/-- A sequence of moves. -/
abbrev Moves : State → State → Prop := Relation.ReflTransGen Move

/-- A reflexive and transitive relation that every move keeps is kept by every sequence of moves. -/
theorem Moves.keeps {R : State → State → Prop} (hrefl : ∀ s, R s s) (htrans : ∀ s t u, R s t → R t u → R s u)
    (hmove : ∀ s t, Move s t → R s t) {s t : State} (h : Moves s t) : R s t := by
  induction h with
  | refl => exact hrefl _
  | tail _ hm ih => exact htrans _ _ _ ih (hmove _ _ hm)

/-! ### Operations as moves -/

/-- A sequence of parts moves as its parts do. -/
theorem Run.bind_moves {α β : Type} {x : Run α} {k : α → State → Run β} {s : State} (hx : Moves s x.endState)
    (hk : ∀ a s', x = .done a s' → Moves s' (k a s').endState) : Moves s (x.bind k).endState := by
  cases x with
  | done a s' => exact hx.trans (hk a s' rfl)
  | fault r s' => exact hx
  | refused r s' => exact hx

/-- Changing a value moves nothing. -/
theorem Run.map_moves {α β : Type} {x : Run α} {s : State} (hx : Moves s x.endState) (f : α → β) :
    Moves s (x.map f).endState := by
  rwa [Run.map_endState]

/-- A bus access at the context's page. -/
theorem access_moves {a : Word} {s : State} (hp : pageOf a = s.ctxBasePage) (dir : Dir) (data : Word) :
    Moves s (access a dir data s).endState := by
  cases h : access a dir data s with
  | done w t =>
    obtain ⟨ha, ht | ⟨rfl, hpage, ht⟩⟩ := access_done h
    · rw [Run.endState_done, ht]
      exact .single (.complete s a dir _ ha hp)
    · have h1 : Moves s (s.complete a .write data) := .single (.complete s a .write data ha hp)
      have hpd : (s.complete a .write data).ctxBasePage = (s.complete a .write data).devBasePage := by
        rw [State.complete_ctxBasePage, State.complete_devBasePage, ← hp, hpage]
      rw [Run.endState_done]
      obtain ⟨v, rfl⟩ | ⟨m, rfl⟩ | ⟨p, rfl⟩ := ht
      · exact h1.tail (.latchPins _ v hpd)
      · exact h1.tail (.setMask _ m hpd)
      · exact h1.tail (.setDevPage _ p hpd)
  | fault r t =>
    obtain ⟨ha, rfl, rfl⟩ := access_fault h
    exact .single (.fault s a ha hp)
  | refused r t =>
    obtain ⟨_, rfl⟩ := access_refused h
    exact .single (.refused s r)

theorem regRead_moves (o : Word) (s : State) : Moves s (regRead o s).endState :=
  access_moves (pageOf_regAddress s o) _ _

theorem regWrite_moves (o v : Word) (s : State) : Moves s (regWrite o v s).endState :=
  access_moves (pageOf_regAddress s o) _ _

theorem writePins_moves (d : Half) (s : State) : Moves s (writePins d s).endState := regWrite_moves _ _ s

theorem setDirections_moves (m : Half) (s : State) : Moves s (setDirections m s).endState := regWrite_moves _ _ s

theorem ctsCheck_moves (s : State) : Moves s (ctsCheck s).endState :=
  Run.bind_moves (regRead_moves _ s) fun _ _ _ => .refl

theorem emitElement_moves (e : Byte) (s : State) : Moves s (emitElement e s).endState :=
  Run.bind_moves (writePins_moves _ s) fun _ s' _ => .single (.delayed s' _)

theorem State.atElement_moves (s : State) (pos : Option (Nat × Nat)) (k : Nat) : Moves s (s.atElement pos k) := by
  cases pos with
  | none => exact .refl
  | some p => exact .single (.txPhase s _)

theorem State.atHold_moves (s : State) (pos : Option (Nat × Nat)) (k : Nat) : Moves s (s.atHold pos k) := by
  cases pos with
  | none => exact .refl
  | some p => exact .single (.txPhase s _)

theorem emitElements_moves (pos : Option (Nat × Nat)) (es : List Byte) :
    ∀ (k : Nat) (s : State), Moves s (emitElements pos k es s).endState := by
  induction es with
  | nil => intro k s; exact .refl
  | cons e es ih =>
    intro k s
    refine (s.atElement_moves pos k).trans (Run.bind_moves (writePins_moves _ _) fun _ s' _ => ?_)
    exact ((s'.atHold_moves pos k).tail (.delayed _ _)).trans (ih _ _)

theorem emitFrame_moves (pos : Option (Nat × Nat)) (b : Byte) (s : State) : Moves s (emitFrame pos b s).endState :=
  .head (.frame s (some (frameOf s.cfg b)))
    (Run.bind_moves (emitElements_moves pos _ 0 _) fun _ s' _ => .single (.frame s' none))

theorem transmitLoop_moves (bs : List Byte) :
    ∀ (j sent : Nat) (s : State), Moves s (transmitLoop bs j sent s).endState := by
  induction bs with
  | nil => intro j sent s; exact .refl
  | cons b bs ih =>
    intro j sent s
    refine .head (.txPhase s (.txCheck j sent)) (Run.bind_moves (ctsCheck_moves _) fun clear s1 _ => ?_)
    cases clear with
    | false => exact .refl
    | true =>
      exact Run.bind_moves (emitFrame_moves _ b s1) fun _ s2 _ => ih _ _ s2

theorem transmit_moves (buf : List Byte) (s : State) : Moves s (transmit buf s).endState :=
  Run.bind_moves (transmitLoop_moves buf 0 0 s) fun sent s1 _ =>
    .head (.txPhase s1 (.txRestore sent))
      (Run.bind_moves (writePins_moves _ _) fun _ s2 _ => .single (.txPhase s2 (.txDone sent)))

theorem lineInitStart_moves (s : State) : Moves s (lineInitStart s).endState := by
  refine Run.bind_moves (setDirections_moves _ s) fun _ s1 _ => ?_
  refine .head (.initState s1 .directionsSet) (Run.bind_moves (writePins_moves _ _) fun _ s2 _ => ?_)
  refine .head (.initState s2 .idleHigh) (Run.bind_moves (writePins_moves _ _) fun _ s3 _ => ?_)
  refine .head (.initState s3 .readyAsserted) (.head (.initState _ .settling) (.head (.delayed _ _) (Run.bind_moves (writePins_moves _ _) fun _ s4 _ => ?_)))
  exact .head (.initState s4 .idleSettled) (.head (.clockRead _) (.single (.initState _ _)))

theorem pollOnce_moves (t0 : Nat) (s : State) : Moves s (pollOnce t0 s).endState := by
  refine .head (.clockRead s) ?_
  unfold pollOnce
  dsimp only
  split
  · exact .single (.initState _ .timedOut)
  · refine Run.bind_moves (ctsCheck_moves _) fun clear s1 _ => ?_
    cases clear with
    | true => exact .single (.initState s1 .ready)
    | false => exact .refl

theorem performLineInit_moves (s : State) : Moves s (performLineInit s).endState := by
  unfold performLineInit
  split
  · exact Run.map_moves (pollOnce_moves _ s) _
  · exact Run.map_moves (lineInitStart_moves s) _

/-- Every operation but SET_BASE is a sequence of moves. -/
theorem perform_moves (i : Instr) (s : State) (hi : ∀ p, i ≠ .setBase p) : Moves s (perform i s).endState := by
  cases i with
  | regRead o => exact Run.map_moves (regRead_moves o s) _
  | regWrite o v => exact Run.map_moves (regWrite_moves o v s) _
  | readPins => exact Run.map_moves (regRead_moves _ s) _
  | writePins d => exact Run.map_moves (writePins_moves d s) _
  | writePins2 hi lo => exact Run.map_moves (regWrite_moves _ _ s) _
  | setDirections m => exact Run.map_moves (setDirections_moves m s) _
  | setBase p => exact absurd rfl (hi p)
  | encodeByte b => exact .single (.frame s _)
  | emitElement e => exact Run.map_moves (emitElement_moves e s) _
  | emitFrame b => exact Run.map_moves (emitFrame_moves none b s) _
  | ctsCheck => exact Run.map_moves (ctsCheck_moves s) _
  | restoreIdle => exact Run.map_moves (writePins_moves _ s) _
  | transmit buf => exact Run.map_moves (transmit_moves buf s) _
  | lineInit => exact performLineInit_moves s
  | delay u n => exact .single (.delayed s _)
  | now => exact .single (.clockRead s)

/-- SET_BASE is a sequence of moves, and where it is done the context takes its page after them. -/
theorem performSetBase_moves (p : Byte) (s : State) :
    ∃ m, Moves s m ∧ ((performSetBase p s).endState = m ∨
      (performSetBase p s = .done (some .nothing) (m.setCtxPage p))) := by
  have hm := regWrite_moves (portReg s.cfg s.cfg.offSetBase) (baseWord p) s
  have he : performSetBase p s = ((regWrite (portReg s.cfg s.cfg.offSetBase) (baseWord p) s).bind fun w s' =>
      .done w (s'.setCtxPage p)).map fun _ => some .nothing := rfl
  cases h : regWrite (portReg s.cfg s.cfg.offSetBase) (baseWord p) s with
  | done w t => exact ⟨t, by simpa [h] using hm, .inr (by rw [he, h]; rfl)⟩
  | fault r t => exact ⟨t, by simpa [h] using hm, .inl (by rw [he, h]; rfl)⟩
  | refused r t => exact ⟨t, by simpa [h] using hm, .inl (by rw [he, h]; rfl)⟩

end Sys2Proof.Machine
end

