-- ==== Sys2Proof/Laws/Keeps.lean ====
section
/-! SUPPORT. What every sequence of moves keeps: the configuration, the context's page, the host's side, the order of time,
the record so far, and the record's agreement with the latch. -/

namespace Sys2Proof.Machine

/-- The fields no move writes. -/
theorem Moves.fixed {s t : State} (h : Moves s t) :
    t.cfg = s.cfg ∧ t.ctxBasePage = s.ctxBasePage ∧ t.host = s.host ∧ t.returns = s.returns := by
  refine Moves.keeps (R := fun s t => t.cfg = s.cfg ∧ t.ctxBasePage = s.ctxBasePage ∧ t.host = s.host ∧
    t.returns = s.returns) (fun _ => ⟨rfl, rfl, rfl, rfl⟩) ?_ ?_ h
  · rintro s t u ⟨h1, h2, h3, h4⟩ ⟨k1, k2, k3, k4⟩
    exact ⟨k1.trans h1, k2.trans h2, k3.trans h3, k4.trans h4⟩
  · intro s t hm
    cases hm <;> exact ⟨rfl, rfl, rfl, rfl⟩

/-- The clock never decreases (10_state.md R25), and the trace only grows (R27). -/
theorem Moves.grows {s t : State} (h : Moves s t) : s.now ≤ t.now ∧ s.trace <+: t.trace := by
  refine Moves.keeps (R := fun s t => s.now ≤ t.now ∧ s.trace <+: t.trace)
    (fun _ => ⟨le_refl _, List.prefix_refl _⟩) ?_ ?_ h
  · rintro s t u ⟨h1, h2⟩ ⟨k1, k2⟩
    exact ⟨h1.trans k1, h2.trans k2⟩
  · intro s t hm
    cases hm <;> refine ⟨?_, ?_⟩ <;>
      first
        | exact le_refl _
        | exact List.prefix_refl _
        | exact List.prefix_append _ _
        | (simp only [State.complete_now, State.delayed_now, State.clockRead_now]; omega)

/-- While the two copies of the page differ, no move reaches the port (70_reset_and_hazards.md R131). -/
theorem Moves.diverged {s t : State} (h : Moves s t) (hd : s.ctxBasePage ≠ s.devBasePage) :
    t.devBasePage = s.devBasePage ∧ t.dirMask = s.dirMask ∧ t.outLatch = s.outLatch := by
  have key : s.ctxBasePage ≠ s.devBasePage →
      t.ctxBasePage = s.ctxBasePage ∧ t.devBasePage = s.devBasePage ∧ t.dirMask = s.dirMask ∧
        t.outLatch = s.outLatch := by
    refine Moves.keeps (R := fun s t => s.ctxBasePage ≠ s.devBasePage →
      t.ctxBasePage = s.ctxBasePage ∧ t.devBasePage = s.devBasePage ∧ t.dirMask = s.dirMask ∧
        t.outLatch = s.outLatch) (fun _ _ => ⟨rfl, rfl, rfl, rfl⟩) ?_ ?_ h
    · intro s t u h1 h2 hs
      obtain ⟨a1, a2, a3, a4⟩ := h1 hs
      obtain ⟨b1, b2, b3, b4⟩ := h2 (by rw [a1, a2]; exact hs)
      exact ⟨b1.trans a1, b2.trans a2, b3.trans a3, b4.trans a4⟩
    · intro s t hm hs
      cases hm with
      | latchPins v hp => exact absurd hp hs
      | setMask m hp => exact absurd hp hs
      | setDevPage p hp => exact absurd hp hs
      | _ => exact ⟨rfl, rfl, rfl, rfl⟩
  exact (key hd).2

/-! ### The record -/

@[simp] theorem pinsEvents_append (l m : List Event) : pinsEvents (l ++ m) = pinsEvents l ++ pinsEvents m :=
  List.filterMap_append

@[simp] theorem readsOf_append (l m : List Event) : readsOf (l ++ m) = readsOf l ++ readsOf m :=
  List.filterMap_append

@[simp] theorem accessesOf_append (l m : List Event) : accessesOf (l ++ m) = accessesOf l ++ accessesOf m :=
  List.filter_append ..

theorem lastPins_append_access (l : List Event) (t : Nat) (dir : Dir) (a d : Word) :
    lastPins (l ++ [.access t dir a d]) = lastPins l := by
  simp [lastPins, pinsEvents]

theorem lastPins_append_pins (l : List Event) (t : Nat) (v : Half) : lastPins (l ++ [.pins t v]) = some v := by
  simp [lastPins, pinsEvents]

/-- What the record keeps inside an operation. -/
structure State.Recorded (s : State) : Prop where
  latch   : s.outLatch = lastPins s.trace
  ordered : (s.trace.map Event.time).Pairwise (· ≤ ·)
  past    : ∀ e ∈ s.trace, e.time ≤ s.now
  issued  : ∀ t dir a d, Event.access t dir a d ∈ s.trace → s.cfg.accessible a = true

/-- An event no earlier than the clock keeps a record in order. -/
theorem State.Recorded.ordered_append {s : State} (h : s.Recorded) (e : Event) (he : s.now ≤ e.time) :
    ((s.trace ++ [e]).map Event.time).Pairwise (· ≤ ·) := by
  rw [List.map_append, List.pairwise_append]
  refine ⟨h.ordered, by simp, ?_⟩
  intro x hx y hy
  obtain ⟨e', he', rfl⟩ := List.mem_map.1 hx
  simp only [List.map_cons, List.map_nil, List.mem_singleton] at hy
  exact hy ▸ (h.past e' he').trans he

/-- Every move keeps the record. -/
theorem Move.recorded {s t : State} (hm : Move s t) (h : s.Recorded) : t.Recorded := by
  cases hm with
  | complete a dir d ha hp =>
    refine ⟨?_, ?_, ?_, ?_⟩
    · rw [State.complete_outLatch, State.complete_trace, lastPins_append_access, h.latch]
    · exact h.ordered_append (.access (s.now + s.busDraw.delta) dir a d) (Nat.le_add_right _ _)
    · intro e he
      rw [State.complete_trace, List.mem_append, List.mem_singleton] at he
      rw [State.complete_now]
      obtain he | rfl := he
      · exact (h.past e he).trans (Nat.le_add_right _ _)
      · exact le_refl _
    · intro t' dir' a' d' he
      rw [State.complete_trace, List.mem_append, List.mem_singleton] at he
      obtain he | he := he
      · exact h.issued _ _ _ _ he
      · cases he; exact ha
  | latchPins v hp =>
    refine ⟨?_, ?_, ?_, ?_⟩
    · rw [State.latchPins_outLatch, State.latchPins_trace, lastPins_append_pins]
    · exact h.ordered_append (.pins s.now v) (le_refl _)
    · intro e he
      rw [State.latchPins_trace, List.mem_append, List.mem_singleton] at he
      obtain he | rfl := he
      · exact h.past e he
      · exact le_refl _
    · intro t' dir' a' d' he
      rw [State.latchPins_trace, List.mem_append, List.mem_singleton] at he
      obtain he | he := he
      · exact h.issued _ _ _ _ he
      · cases he
  | delayed n =>
    exact ⟨h.latch, h.ordered, fun e he => (h.past e he).trans (by rw [State.delayed_now]; omega), h.issued⟩
  | clockRead =>
    exact ⟨h.latch, h.ordered, fun e he => (h.past e he).trans (by rw [State.clockRead_now]; omega), h.issued⟩
  | _ => exact ⟨h.latch, h.ordered, h.past, h.issued⟩

/-- Every sequence of moves keeps the record. -/
theorem Moves.recorded {s t : State} (h : Moves s t) : s.Recorded → t.Recorded := by
  induction h with
  | refl => exact id
  | tail _ hm ih => exact fun hs => hm.recorded (ih hs)

end Sys2Proof.Machine
end

