-- ==== Sys2Proof/Laws/Encoder.lean ====
section
/-! SUPPORT. Everything an emission and a TRANSMIT can do where their accesses are accessible, said once each
(41_frame_encoder.md R84, R85, R88, R91). -/

namespace Sys2Proof.Machine

/-! ### Times -/

theorem spacedBy_cons {d a : Nat} {l : List Nat} : spacedBy d (a :: l) ↔ (∀ b ∈ l.head?, a + d ≤ b) ∧ spacedBy d l := by
  cases l <;> simp [spacedBy]

/-- Spaced times followed, at or after their last, by spaced times. -/
theorem spacedBy_append {d : Nat} :
    ∀ (l : List Nat) (a : Nat) (m : List Nat),
      spacedBy d (l ++ [a]) → (∀ b ∈ m.head?, a ≤ b) → spacedBy d m → spacedBy d (l ++ m)
  | [], _, _, _, _, h => h
  | [x], a, m, h1, h2, h3 => by
    rw [List.cons_append, spacedBy_cons] at h1 ⊢
    refine ⟨fun b hb => ?_, by simpa using h3⟩
    have h := h1.1 a (by simp)
    have h' := h2 b (by simpa using hb)
    omega
  | x :: y :: l, a, m, h1, h2, h3 => by
    rw [List.cons_append, spacedBy_cons] at h1 ⊢
    exact ⟨fun b hb => h1.1 b (by simpa using hb), spacedBy_append (y :: l) a m h1.2 h2 h3⟩

/-! ### Draws -/

@[simp] theorem Env.afterBus_bus (e : Env) : (Env.afterBus e).bus = e.bus.drop 1 := by
  unfold Env.afterBus
  split <;> simp_all

@[simp] theorem Env.afterBus_clock (e : Env) : (Env.afterBus e).clock = e.clock := by
  unfold Env.afterBus
  split <;> rfl

@[simp] theorem Env.afterDelay_bus (e : Env) : (Env.afterDelay e).bus = e.bus := by
  unfold Env.afterDelay
  split <;> rfl

/-- A port's address depends on the context's page and the configuration alone. -/
theorem State.portAddress_congr {s t : State} (hc : t.cfg = s.cfg) (hp : t.ctxBasePage = s.ctxBasePage) (off : Half) :
    t.portAddress off = s.portAddress off := by
  simp only [State.portAddress, State.regAddress, hc, hp]

/-- What is reached depends on the context's page and the configuration alone. -/
theorem State.reaches_congr {s t : State} (hc : t.cfg = s.cfg) (hp : t.ctxBasePage = s.ctxBasePage) (off : Half) :
    t.Reaches off ↔ s.Reaches off := by
  rw [State.Reaches, State.Reaches, State.portAddress_congr hc hp, hc]

/-- The draws of an access depend on the outside world's alone. -/
theorem State.busDraw_congr {s t : State} (h : t.env = s.env) : t.busDraw = s.busDraw := by
  simp only [State.busDraw, h]

/-! ### Emission -/

/-- What the frame encoder's operations leave alone. -/
structure State.SameSettings (s t : State) : Prop where
  cfg         : t.cfg = s.cfg
  devBasePage : t.devBasePage = s.devBasePage
  ctxBasePage : t.ctxBasePage = s.ctxBasePage
  dirMask     : t.dirMask = s.dirMask
  initState   : t.initState = s.initState
  fault       : t.fault = s.fault
  refused     : t.refused = s.refused
  host        : t.host = s.host
  returns     : t.returns = s.returns

theorem State.SameSettings.trans {s t u : State} (h : s.SameSettings t) (k : t.SameSettings u) : s.SameSettings u :=
  ⟨k.cfg.trans h.cfg, k.devBasePage.trans h.devBasePage, k.ctxBasePage.trans h.ctxBasePage,
   k.dirMask.trans h.dirMask, k.initState.trans h.initState, k.fault.trans h.fault, k.refused.trans h.refused,
   k.host.trans h.host, k.returns.trans h.returns⟩

/-- One WRITE_PINS at an accessible address, at either page: its record, its time and its effect on the latch. -/
theorem writePins_spec {s : State} (ha : s.Reaches s.cfg.offWritePins) (d : Half) :
    ∃ t l, writePins d s = .done 0 t ∧ s.SameSettings t ∧ t.trace = s.trace ++ l ∧ t.frame = s.frame ∧
      t.txPhase = s.txPhase ∧ t.now = s.now + s.busDraw.delta ∧ t.env = Env.afterBus s.env ∧
      (accessesOf l).length = 1 ∧ readsOf l = [] ∧
      (s.ctxBasePage ≠ s.devBasePage → pinsEvents l = [] ∧ t.outLatch = s.outLatch) ∧
      (s.ctxBasePage = s.devBasePage → pinsEvents l = [(t.now, d)] ∧ t.outLatch = some d) := by
  by_cases hp : s.ctxBasePage = s.devBasePage
  · exact ⟨_, [.access _ _ _ _, .pins _ _], writePins_hit ha hp d, ⟨rfl, rfl, rfl, rfl, rfl, rfl, rfl, rfl, rfl⟩,
      by simp only [State.latchPins_trace, State.complete_trace, List.append_assoc]; rfl, rfl, rfl, rfl, rfl, rfl, rfl,
      fun h => absurd hp h, fun _ => ⟨rfl, rfl⟩⟩
  · exact ⟨_, [.access _ _ _ _], writePins_miss ha hp d, ⟨rfl, rfl, rfl, rfl, rfl, rfl, rfl, rfl, rfl⟩, rfl, rfl, rfl,
      rfl, rfl, rfl, rfl, fun _ => ⟨rfl, rfl⟩, fun h => absurd h hp⟩

/-- What an emission of elements does: from `s` to `t`, recording `l`. -/
structure Emission (s t : State) (l : List Event) (es : List Byte) : Prop where
  same   : s.SameSettings t
  frame  : t.frame = s.frame
  trace  : t.trace = s.trace ++ l
  held   : s.now + es.length * s.cfg.bitPeriodUs ≤ t.now
  draws  : t.env.bus = s.env.bus.drop es.length
  writes : (accessesOf l).length = es.length
  reads  : readsOf l = []
  miss   : s.ctxBasePage ≠ s.devBasePage → pinsEvents l = [] ∧ t.outLatch = s.outLatch
  words  : s.ctxBasePage = s.devBasePage → (pinsEvents l).map (·.2) = es.map fun e => e.setWidth 16
  spaced : s.ctxBasePage = s.devBasePage → spacedBy s.cfg.bitPeriodUs ((pinsEvents l).map (·.1) ++ [t.now])
  first  : s.ctxBasePage = s.devBasePage → ∀ x ∈ (pinsEvents l).head?, s.now ≤ x.1
  latch  : s.ctxBasePage = s.devBasePage → t.outLatch = (es.getLast?.map fun e => e.setWidth 16).or s.outLatch

/-- Elements are emitted wherever write-pins is accessible (R84, R85). -/
theorem emitElements_done (pos : Option (Nat × Nat)) (es : List Byte) :
    ∀ (k : Nat) (s : State), s.Reaches s.cfg.offWritePins →
      ∃ t l, emitElements pos k es s = .done () t ∧ Emission s t l es ∧ (pos = none → t.txPhase = s.txPhase) := by
  induction es with
  | nil =>
    intro k s _
    refine ⟨s, [], rfl, ⟨⟨rfl, rfl, rfl, rfl, rfl, rfl, rfl, rfl, rfl⟩, rfl, by simp, by simp, by simp, rfl, rfl,
      fun _ => ⟨rfl, rfl⟩, fun _ => rfl, fun _ => ?_, fun _ => ?_, fun _ => rfl⟩, fun _ => rfl⟩
    · simp [spacedBy, pinsEvents]
    · simp [pinsEvents]
  | cons e es ih =>
    intro k s ha
    have hreach : (s.atElement pos k).Reaches (s.atElement pos k).cfg.offWritePins := by
      rw [State.Reaches, State.portAddress_congr (State.atElement_cfg s pos k) (State.atElement_ctxBasePage s pos k),
        State.atElement_cfg]
      exact ha
    obtain ⟨u, lu, hu, su, tu, fu, xu, nu, eu, wu, ru, mu, pu⟩ := writePins_spec hreach (elementWord e)
    have hdelta : (s.atElement pos k).busDraw = s.busDraw := State.busDraw_congr (State.atElement_env s pos k)
    have ecfg : u.cfg = s.cfg := su.cfg.trans (State.atElement_cfg s pos k)
    have ectx : u.ctxBasePage = s.ctxBasePage := su.ctxBasePage.trans (State.atElement_ctxBasePage s pos k)
    have edev : u.devBasePage = s.devBasePage := su.devBasePage.trans (State.atElement_devBasePage s pos k)
    rw [State.atElement_now, hdelta] at nu
    rw [State.atElement_env] at eu
    rw [State.atElement_ctxBasePage, State.atElement_devBasePage, State.atElement_outLatch] at mu
    rw [State.atElement_ctxBasePage, State.atElement_devBasePage] at pu
    let v := (u.atHold pos k).delayed u.cfg.bitPeriodUs
    have hv : v.Reaches v.cfg.offWritePins := by
      have vcfg : v.cfg = s.cfg := by simp only [v, State.delayed_cfg, State.atHold_cfg, ecfg]
      rw [State.Reaches, State.portAddress_congr (s := s) vcfg (by simp only [v, State.delayed_ctxBasePage, State.atHold_ctxBasePage, ectx]), vcfg]
      exact ha
    obtain ⟨t, l, ht, em, hx⟩ := ih (k + 1) v hv
    have vnow : s.now + s.busDraw.delta + s.cfg.bitPeriodUs ≤ v.now := by
      simp only [v, State.delayed_now, State.atHold_now, nu, ecfg]
      omega
    have vcfg : v.cfg = s.cfg := by simp only [v, State.delayed_cfg, State.atHold_cfg, ecfg]
    have vctx : v.ctxBasePage = s.ctxBasePage := by simp only [v, State.delayed_ctxBasePage, State.atHold_ctxBasePage, ectx]
    have vdev : v.devBasePage = s.devBasePage := by simp only [v, State.delayed_devBasePage, State.atHold_devBasePage, edev]
    have same : s.SameSettings v := by
      refine ⟨vcfg, vdev, vctx, ?_, ?_, ?_, ?_, ?_, ?_⟩ <;> simp [v, su.dirMask, su.initState, su.fault, su.refused, su.host, su.returns]
    have held := em.held
    rw [vcfg] at held
    refine ⟨t, lu ++ l, ?_, ⟨same.trans em.same, ?_, ?_, ?_, ?_, ?_, ?_, ?_, ?_, ?_, ?_, ?_⟩, ?_⟩
    · rw [emitElements, hu, Run.bind_done, ← ht]
    · rw [em.frame]
      simp only [v, State.delayed_frame, State.atHold_frame, fu, State.atElement_frame]
    · rw [em.trace]
      simp only [v, State.delayed_trace, State.atHold_trace, tu, State.atElement_trace, List.append_assoc]
    · rw [List.length_cons, Nat.add_mul]
      omega
    · rw [em.draws]
      simp only [v, State.delayed_env, State.atHold_env, eu, Env.afterDelay_bus, Env.afterBus_bus, List.drop_drop,
        List.length_cons]
      congr 1
      omega
    · rw [accessesOf_append, List.length_append, wu, em.writes, List.length_cons]
      omega
    · rw [readsOf_append, ru, em.reads]
      rfl
    · intro hh
      obtain ⟨a1, a2⟩ := mu hh
      obtain ⟨b1, b2⟩ := em.miss (by rw [vctx, vdev]; exact hh)
      refine ⟨by rw [pinsEvents_append, a1, b1]; rfl, b2.trans ?_⟩
      simp only [v, State.delayed_outLatch, State.atHold_outLatch, a2]
    · intro hh
      rw [pinsEvents_append, (pu hh).1, List.map_append, em.words (by rw [vctx, vdev]; exact hh)]
      rfl
    · intro hh
      have hvv : v.ctxBasePage = v.devBasePage := by rw [vctx, vdev]; exact hh
      have sp := em.spaced hvv
      rw [vcfg] at sp
      rw [pinsEvents_append, (pu hh).1, List.map_append, List.map_singleton, List.append_assoc, List.singleton_append,
        spacedBy_cons]
      refine ⟨fun b hb => ?_, sp⟩
      have first := em.first hvv
      rw [nu]
      cases hl : pinsEvents l with
      | nil =>
        simp only [hl, List.map_nil, List.nil_append, List.head?_cons, Option.mem_def, Option.some.injEq] at hb
        omega
      | cons x xs =>
        simp only [hl, List.map_cons, List.cons_append, List.head?_cons, Option.mem_def, Option.some.injEq] at hb
        have := first x (by simp [hl])
        omega
    · intro hh x hx
      rw [pinsEvents_append, (pu hh).1] at hx
      simp only [List.singleton_append, List.head?_cons, Option.mem_def, Option.some.injEq] at hx
      rw [← hx, nu]
      omega
    · intro hh
      rw [em.latch (by rw [vctx, vdev]; exact hh)]
      have : v.outLatch = some (elementWord e) := by simp only [v, State.delayed_outLatch, State.atHold_outLatch, (pu hh).2]
      rw [this]
      cases es with
      | nil => rfl
      | cons e' es' => simp [List.getLast?_cons]
    · rintro rfl
      rw [hx rfl]
      exact xu

/-- A frame whose elements are emitted is discarded after them (R85, R23). -/
theorem emitFrame_done {pos : Option (Nat × Nat)} {b : Byte} {s t : State}
    (h : emitElements pos 0 (frameTable s.cfg b) (s.encoded b) = .done () t) : emitFrame pos b s = .done () t.frameDropped :=
  congrArg (Run.bind · fun _ s' => .done () s'.frameDropped) h

/-- A frame that is done was emitted, and then discarded. -/
theorem emitFrame_eq_done {pos : Option (Nat × Nat)} {b : Byte} {s u : State} (h : emitFrame pos b s = .done () u) :
    ∃ t, emitElements pos 0 (frameTable s.cfg b) (s.encoded b) = .done () t ∧ u = t.frameDropped := by
  obtain ⟨_, t, ht, hu⟩ := Run.bind_eq_done h
  cases hu
  exact ⟨t, ht, rfl⟩

/-- A frame that faults faulted in the emission of its elements, and is not discarded. -/
theorem emitFrame_eq_fault {pos : Option (Nat × Nat)} {b : Byte} {s t : State} {r : Fault}
    (h : emitFrame pos b s = .fault r t) : emitElements pos 0 (frameTable s.cfg b) (s.encoded b) = .fault r t := by
  obtain h | ⟨_, _, _, h⟩ := Run.bind_eq_fault h
  · exact h
  · cases h

/-! ### CTS_CHECK -/

/-- CTS_CHECK where read-pins is accessible (R88). -/
theorem ctsCheck_done {s : State} (ha : s.Reaches s.cfg.offReadPins) :
    ctsCheck s = .done (ctsClear s.cfg (pinWordOf s.cfg s.readPinsWord))
      (s.complete (s.portAddress s.cfg.offReadPins) .read s.readPinsWord) := by
  rw [ctsCheck, readPins_done ha]
  rfl

/-- CTS_CHECK where read-pins is not accessible. -/
theorem ctsCheck_unreached {s : State} (ha : ¬ s.Reaches s.cfg.offReadPins) :
    ctsCheck s = .fault (.fatalAddress (s.portAddress s.cfg.offReadPins))
      { s with fault := some (.fatalAddress (s.portAddress s.cfg.offReadPins)) } := by
  rw [ctsCheck, readPins_unreached ha, Run.bind_fault]

/-- With CTS an input of the device addressed, the check sees the level the peer drives (10_state.md R19, R21). -/
theorem ctsClear_readPinsWord {s : State} (hp : s.ctxBasePage = s.devBasePage) {m : Half} (hm : s.dirMask = some m)
    (hb : m.getLsbD s.cfg.ctsBit = false) :
    ctsClear s.cfg (pinWordOf s.cfg s.readPinsWord) = !s.busDraw.sample.getLsbD s.cfg.ctsBit := by
  have hb' : m[s.cfg.ctsBit.val] = false := hb
  simp [State.readPinsWord, hp, ctsClear, State.pinWord, hm, hb']

/-! ### TRANSMIT -/

/-- What TRANSMIT's byte loop does, sending `n` of the bytes `bs`: from `s` to `t`, recording `l`. -/
structure Sending (s t : State) (l : List Event) (bs : List Byte) (n : Nat) : Prop where
  count  : n ≤ bs.length
  same   : s.SameSettings t
  frame  : t.frame = if n = 0 then s.frame else none
  trace  : t.trace = s.trace ++ l
  held   : s.now + n * (10 * s.cfg.bitPeriodUs) ≤ t.now
  issued : (accessesOf l).length = n * 11 + if n < bs.length then 1 else 0
  checks : (readsOf l).map (fun w => ctsClear s.cfg (pinWordOf s.cfg w)) =
    List.replicate n true ++ if n < bs.length then [false] else []
  miss   : s.ctxBasePage ≠ s.devBasePage → pinsEvents l = [] ∧ t.outLatch = s.outLatch
  words  : s.ctxBasePage = s.devBasePage → (pinsEvents l).map (·.2) = (bs.take n).flatMap (frameWords s.cfg)
  spaced : s.ctxBasePage = s.devBasePage → spacedBy s.cfg.bitPeriodUs ((pinsEvents l).map (·.1) ++ [t.now])
  first  : s.ctxBasePage = s.devBasePage → ∀ x ∈ (pinsEvents l).head?, s.now ≤ x.1

/-- The state after the check of a byte in TRANSMIT's loop, whatever it found. -/
def State.checked (s : State) (j sent : Nat) : State :=
  (s.inTx (.txCheck j sent)).complete (s.portAddress s.cfg.offReadPins) .read s.readPinsWord

/-- One turn of TRANSMIT's loop where its accesses are accessible: the check, and if it found CTS clear the frame and the
turns after it. -/
theorem transmitLoop_cons {s : State} (hw : s.Reaches s.cfg.offWritePins) (hr : s.Reaches s.cfg.offReadPins)
    (b : Byte) (bs : List Byte) (j sent : Nat) :
    (ctsClear s.cfg (pinWordOf s.cfg s.readPinsWord) = false →
      transmitLoop (b :: bs) j sent s = .done sent (s.checked j sent)) ∧
    (ctsClear s.cfg (pinWordOf s.cfg s.readPinsWord) = true →
      ∃ t l, Emission ((s.checked j sent).encoded b) t l (frameTable s.cfg b) ∧
        transmitLoop (b :: bs) j sent s = transmitLoop bs (j + 1) (sent + 1) t.frameDropped) := by
  have hcts : ctsCheck (s.inTx (.txCheck j sent)) =
      .done (ctsClear s.cfg (pinWordOf s.cfg s.readPinsWord)) (s.checked j sent) := ctsCheck_done (s := s.inTx _) hr
  rw [transmitLoop, hcts, Run.bind_done]
  refine ⟨fun h => ?_, fun h => ?_⟩
  · rw [h]
    rfl
  · rw [if_pos h]
    have hreach : ((s.checked j sent).encoded b).Reaches ((s.checked j sent).encoded b).cfg.offWritePins := hw
    obtain ⟨t, l, ht, em, -⟩ := emitElements_done (some (j, sent)) (frameTable s.cfg b) 0 _ hreach
    refine ⟨t, l, em, ?_⟩
    rw [emitFrame_done ht, Run.bind_done]

/-- TRANSMIT's loop ends wherever its accesses are accessible (R91). -/
theorem transmitLoop_done (bs : List Byte) :
    ∀ (j sent : Nat) (s : State), s.Reaches s.cfg.offWritePins → (bs = [] ∨ s.Reaches s.cfg.offReadPins) →
      ∃ n t l, transmitLoop bs j sent s = .done (sent + n) t ∧ Sending s t l bs n := by
  induction bs with
  | nil =>
    intro j sent s _ _
    refine ⟨0, s, [], rfl, ⟨by simp, ⟨rfl, rfl, rfl, rfl, rfl, rfl, rfl, rfl, rfl⟩, rfl, by simp, by simp, rfl, rfl,
      fun _ => ⟨rfl, rfl⟩, fun _ => rfl, fun _ => ?_, fun _ => ?_⟩⟩
    · simp [spacedBy, pinsEvents]
    · simp [pinsEvents]
  | cons b bs ih =>
    intro j sent s hw hr
    have hr : s.Reaches s.cfg.offReadPins := by simpa using hr
    obtain ⟨hclosed, hclear⟩ := transmitLoop_cons hw hr b bs j sent
    let e : Event := .access (s.now + s.busDraw.delta) .read (s.portAddress s.cfg.offReadPins) s.readPinsWord
    have htrace : (s.checked j sent).trace = s.trace ++ [e] := rfl
    have hnow : (s.checked j sent).now = s.now + s.busDraw.delta := rfl
    cases hc : ctsClear s.cfg (pinWordOf s.cfg s.readPinsWord) with
    | false =>
      refine ⟨0, s.checked j sent, [e], hclosed hc, ⟨by simp, ⟨rfl, rfl, rfl, rfl, rfl, rfl, rfl, rfl, rfl⟩, rfl, htrace,
        ?_, rfl, ?_, fun _ => ⟨rfl, rfl⟩, fun _ => rfl, fun _ => ?_, fun _ => ?_⟩⟩
      · rw [hnow]
        omega
      · simp [readsOf, e, hc]
      · simp [spacedBy, pinsEvents, e]
      · simp [pinsEvents, e]
    | true =>
      obtain ⟨t1, l1, em, hloop⟩ := hclear hc
      have s1 : s.SameSettings t1.frameDropped :=
        ⟨em.same.cfg, em.same.devBasePage, em.same.ctxBasePage, em.same.dirMask, em.same.initState, em.same.fault,
         em.same.refused, em.same.host, em.same.returns⟩
      have reach : ∀ off, t1.frameDropped.Reaches off ↔ s.Reaches off := by
        intro off
        exact State.reaches_congr s1.cfg s1.ctxBasePage off
      have hw2 : t1.frameDropped.Reaches t1.frameDropped.cfg.offWritePins := by
        rw [reach, s1.cfg]
        exact hw
      have hr2 : t1.frameDropped.Reaches t1.frameDropped.cfg.offReadPins := by
        rw [reach, s1.cfg]
        exact hr
      obtain ⟨n, t, l2, hdone, sd⟩ := ih (j + 1) (sent + 1) t1.frameDropped hw2 (.inr hr2)
      have hlt : (n + 1 < (b :: bs).length) ↔ n < bs.length := by simp
      have held1 : s.now + s.busDraw.delta + 10 * s.cfg.bitPeriodUs ≤ t1.now := em.held
      have held2 := sd.held
      have checks2 := sd.checks
      have spaced2 := sd.spaced
      have words2 := sd.words
      rw [s1.cfg] at held2 checks2 spaced2 words2
      rw [State.frameDropped_now] at held2
      have page2 : s.ctxBasePage = s.devBasePage → t1.frameDropped.ctxBasePage = t1.frameDropped.devBasePage := by
        intro hh
        rw [s1.ctxBasePage, s1.devBasePage, hh]
      have pe : pinsEvents ([e] ++ l1 ++ l2) = pinsEvents l1 ++ pinsEvents l2 := by
        rw [pinsEvents_append, pinsEvents_append]
        rfl
      refine ⟨n + 1, t, [e] ++ l1 ++ l2, ?_, ⟨?_, s1.trans sd.same, ?_, ?_, ?_, ?_, ?_, ?_, ?_, ?_, ?_⟩⟩
      · rw [hloop, hdone, Nat.add_assoc, Nat.add_comm 1 n]
      · simpa using sd.count
      · rw [sd.frame, if_neg (Nat.succ_ne_zero n)]
        simp
      · rw [sd.trace, State.frameDropped_trace, em.trace, State.encoded_trace, htrace]
        simp only [List.append_assoc]
      · rw [Nat.add_mul]
        omega
      · simp only [accessesOf_append, List.length_append, em.writes, sd.issued, hlt]
        have : (accessesOf [e]).length = 1 := rfl
        have : (frameTable s.cfg b).length = 10 := by simp [frameTable]
        omega
      · have he : readsOf [e] = [s.readPinsWord] := rfl
        rw [readsOf_append, readsOf_append, em.reads, he, List.append_nil, List.map_append, checks2, List.map_singleton, hc]
        simp only [hlt, List.replicate_succ, List.cons_append, List.nil_append]
      · intro hh
        obtain ⟨a1, a2⟩ := em.miss hh
        obtain ⟨b1, b2⟩ := sd.miss (by rw [s1.ctxBasePage, s1.devBasePage]; exact hh)
        exact ⟨by rw [pe, a1, b1]; rfl, b2.trans a2⟩
      · intro hh
        rw [pe, List.map_append, em.words hh, words2 (page2 hh)]
        rfl
      · intro hh
        rw [pe, List.map_append, List.append_assoc]
        refine spacedBy_append _ _ _ (em.spaced hh) ?_ (spaced2 (page2 hh))
        intro x hx
        have first := sd.first (page2 hh)
        rw [State.frameDropped_now] at first
        cases hl : pinsEvents l2 with
        | nil =>
          simp only [hl, List.map_nil, List.nil_append, List.head?_cons, Option.mem_def, Option.some.injEq] at hx
          omega
        | cons y ys =>
          simp only [hl, List.map_cons, List.cons_append, List.head?_cons, Option.mem_def, Option.some.injEq] at hx
          exact hx ▸ first y (by simp [hl])
      · intro hh x hx
        have words := em.words hh
        cases hl : pinsEvents l1 with
        | nil => rw [hl] at words; simp [frameTable] at words
        | cons y ys =>
          have hy := em.first hh y (by simp [hl])
          rw [State.encoded_now, hnow] at hy
          rw [pe, hl] at hx
          simp only [List.cons_append, List.head?_cons, Option.mem_def, Option.some.injEq] at hx
          rw [← hx]
          omega

/-- With CTS an input of the device addressed, the loop follows the levels the peer drives at its checks: the draws 0, 11,
22, and so on of the outside world's list (R92). -/
theorem transmitLoop_count (bs : List Byte) :
    ∀ (j sent k : Nat) (s : State) (m : Half), s.Reaches s.cfg.offWritePins → s.Reaches s.cfg.offReadPins →
      s.ctxBasePage = s.devBasePage → s.dirMask = some m → m.getLsbD s.cfg.ctsBit = false → k ≤ bs.length →
      (∀ i, i < k → ∃ d, s.env.bus[11 * i]? = some d ∧ d.sample.getLsbD s.cfg.ctsBit = false) →
      (k < bs.length → ∃ d, s.env.bus[11 * k]? = some d ∧ d.sample.getLsbD s.cfg.ctsBit = true) →
      ∃ t, transmitLoop bs j sent s = .done (sent + k) t := by
  induction bs with
  | nil =>
    intro j sent k s m _ _ _ _ _ hk _ _
    obtain rfl : k = 0 := by simpa using hk
    exact ⟨s, rfl⟩
  | cons b bs ih =>
    intro j sent k s m hw hr hp hm hb hk hlow hhigh
    obtain ⟨hclosed, hclear⟩ := transmitLoop_cons hw hr b bs j sent
    have hcts := ctsClear_readPinsWord hp hm hb
    have hdraw : ∀ d, s.env.bus[0]? = some d → s.busDraw = d := by
      intro d hd
      unfold State.busDraw
      cases hbus : s.env.bus with
      | nil => simp [hbus] at hd
      | cons d' ds => simpa [hbus] using hd
    cases k with
    | zero =>
      obtain ⟨d, hd, hd'⟩ := hhigh (by simp)
      rw [hdraw d (by simpa using hd), hd'] at hcts
      exact ⟨_, hclosed hcts⟩
    | succ k =>
      obtain ⟨d, hd, hd'⟩ := hlow 0 (by simp)
      rw [hdraw d (by simpa using hd), hd'] at hcts
      obtain ⟨t1, l1, em, hloop⟩ := hclear hcts
      have ecfg : t1.cfg = s.cfg := em.same.cfg
      have ectx : t1.ctxBasePage = s.ctxBasePage := em.same.ctxBasePage
      have ebus : t1.env.bus = s.env.bus.drop 11 := by
        rw [em.draws]
        simp only [State.encoded_env, State.checked, State.complete_env, State.inTx_env, Env.afterBus_bus, List.drop_drop]
        simp [frameTable]
      have reach : ∀ off, t1.frameDropped.Reaches off ↔ s.Reaches off := by
        intro off
        exact State.reaches_congr (s := s) (t := t1.frameDropped) ecfg ectx off
      rw [hloop, show sent + (k + 1) = sent + 1 + k by omega]
      refine ih (j + 1) (sent + 1) k t1.frameDropped m ?_ ?_ ?_ ?_ ?_ (by simpa using hk) ?_ ?_
      · rw [reach, State.frameDropped_cfg, ecfg]
        exact hw
      · rw [reach, State.frameDropped_cfg, ecfg]
        exact hr
      · exact ectx.trans (hp.trans em.same.devBasePage.symm)
      · exact em.same.dirMask.trans hm
      · rw [State.frameDropped_cfg, ecfg]
        exact hb
      · intro i hi
        obtain ⟨d, q, q'⟩ := hlow (i + 1) (by omega)
        refine ⟨d, ?_, by rw [State.frameDropped_cfg, ecfg]; exact q'⟩
        rw [State.frameDropped_env, ebus, List.getElem?_drop, ← q]
        congr 1
        omega
      · intro hi
        obtain ⟨d, q, q'⟩ := hhigh (by simpa using hi)
        refine ⟨d, ?_, by rw [State.frameDropped_cfg, ecfg]; exact q'⟩
        rw [State.frameDropped_env, ebus, List.getElem?_drop, ← q]
        congr 1
        omega

end Sys2Proof.Machine
end

