-- ==== Sys2Proof/Laws/LineInit.lean ====
section
/-! SUPPORT. LINE_INIT's two parts, exactly, where their accesses are accessible (42_line_init.md R96 to R104). -/

namespace Sys2Proof.Machine

/-! ### The start -/

/-- A write to write-pins at the device's page, and the sequencer's next state. -/
def State.pinsStep (s : State) (v : Half) (p : InitState) : State :=
  ((s.complete (s.portAddress s.cfg.offWritePins) .write (sameWord v)).latchPins v).inInit p

/-- A write to write-pins at another page, and the sequencer's next state. -/
def State.missStep (s : State) (v : Half) (p : InitState) : State :=
  (s.complete (s.portAddress s.cfg.offWritePins) .write (sameWord v)).inInit p

/-- The clock's reading t0, and polling. -/
def State.startPolling (s : State) : State := s.clockRead.inInit (.polling s.clockRead.now)

@[simp] theorem State.pinsStep_cfg (s : State) (v : Half) (p : InitState) : (s.pinsStep v p).cfg = s.cfg := rfl
@[simp] theorem State.pinsStep_devBasePage (s : State) (v : Half) (p : InitState) : (s.pinsStep v p).devBasePage = s.devBasePage := rfl
@[simp] theorem State.pinsStep_ctxBasePage (s : State) (v : Half) (p : InitState) : (s.pinsStep v p).ctxBasePage = s.ctxBasePage := rfl
@[simp] theorem State.pinsStep_dirMask (s : State) (v : Half) (p : InitState) : (s.pinsStep v p).dirMask = s.dirMask := rfl
@[simp] theorem State.pinsStep_outLatch (s : State) (v : Half) (p : InitState) : (s.pinsStep v p).outLatch = some v := rfl
@[simp] theorem State.pinsStep_txPhase (s : State) (v : Half) (p : InitState) : (s.pinsStep v p).txPhase = s.txPhase := rfl
@[simp] theorem State.pinsStep_frame (s : State) (v : Half) (p : InitState) : (s.pinsStep v p).frame = s.frame := rfl
@[simp] theorem State.pinsStep_initState (s : State) (v : Half) (p : InitState) : (s.pinsStep v p).initState = p := rfl
@[simp] theorem State.pinsStep_now (s : State) (v : Half) (p : InitState) : (s.pinsStep v p).now = s.now + s.busDraw.delta := rfl
@[simp] theorem State.pinsStep_fault (s : State) (v : Half) (p : InitState) : (s.pinsStep v p).fault = s.fault := rfl
@[simp] theorem State.pinsStep_refused (s : State) (v : Half) (p : InitState) : (s.pinsStep v p).refused = s.refused := rfl
@[simp] theorem State.pinsStep_trace (s : State) (v : Half) (p : InitState) : (s.pinsStep v p).trace = s.trace ++ [.access (s.now + s.busDraw.delta) .write (s.portAddress s.cfg.offWritePins) (sameWord v)] ++ [.pins (s.now + s.busDraw.delta) v] := rfl
@[simp] theorem State.pinsStep_host (s : State) (v : Half) (p : InitState) : (s.pinsStep v p).host = s.host := rfl
@[simp] theorem State.pinsStep_returns (s : State) (v : Half) (p : InitState) : (s.pinsStep v p).returns = s.returns := rfl
@[simp] theorem State.pinsStep_env (s : State) (v : Half) (p : InitState) : (s.pinsStep v p).env = Env.afterBus s.env := rfl

@[simp] theorem State.missStep_cfg (s : State) (v : Half) (p : InitState) : (s.missStep v p).cfg = s.cfg := rfl
@[simp] theorem State.missStep_devBasePage (s : State) (v : Half) (p : InitState) : (s.missStep v p).devBasePage = s.devBasePage := rfl
@[simp] theorem State.missStep_ctxBasePage (s : State) (v : Half) (p : InitState) : (s.missStep v p).ctxBasePage = s.ctxBasePage := rfl
@[simp] theorem State.missStep_dirMask (s : State) (v : Half) (p : InitState) : (s.missStep v p).dirMask = s.dirMask := rfl
@[simp] theorem State.missStep_outLatch (s : State) (v : Half) (p : InitState) : (s.missStep v p).outLatch = s.outLatch := rfl
@[simp] theorem State.missStep_txPhase (s : State) (v : Half) (p : InitState) : (s.missStep v p).txPhase = s.txPhase := rfl
@[simp] theorem State.missStep_frame (s : State) (v : Half) (p : InitState) : (s.missStep v p).frame = s.frame := rfl
@[simp] theorem State.missStep_initState (s : State) (v : Half) (p : InitState) : (s.missStep v p).initState = p := rfl
@[simp] theorem State.missStep_now (s : State) (v : Half) (p : InitState) : (s.missStep v p).now = s.now + s.busDraw.delta := rfl
@[simp] theorem State.missStep_fault (s : State) (v : Half) (p : InitState) : (s.missStep v p).fault = s.fault := rfl
@[simp] theorem State.missStep_refused (s : State) (v : Half) (p : InitState) : (s.missStep v p).refused = s.refused := rfl
@[simp] theorem State.missStep_trace (s : State) (v : Half) (p : InitState) : (s.missStep v p).trace = s.trace ++ [.access (s.now + s.busDraw.delta) .write (s.portAddress s.cfg.offWritePins) (sameWord v)] := rfl
@[simp] theorem State.missStep_host (s : State) (v : Half) (p : InitState) : (s.missStep v p).host = s.host := rfl
@[simp] theorem State.missStep_returns (s : State) (v : Half) (p : InitState) : (s.missStep v p).returns = s.returns := rfl
@[simp] theorem State.missStep_env (s : State) (v : Half) (p : InitState) : (s.missStep v p).env = Env.afterBus s.env := rfl

@[simp] theorem State.startPolling_cfg (s : State) : s.startPolling.cfg = s.cfg := rfl
@[simp] theorem State.startPolling_devBasePage (s : State) : s.startPolling.devBasePage = s.devBasePage := rfl
@[simp] theorem State.startPolling_ctxBasePage (s : State) : s.startPolling.ctxBasePage = s.ctxBasePage := rfl
@[simp] theorem State.startPolling_dirMask (s : State) : s.startPolling.dirMask = s.dirMask := rfl
@[simp] theorem State.startPolling_outLatch (s : State) : s.startPolling.outLatch = s.outLatch := rfl
@[simp] theorem State.startPolling_txPhase (s : State) : s.startPolling.txPhase = s.txPhase := rfl
@[simp] theorem State.startPolling_frame (s : State) : s.startPolling.frame = s.frame := rfl
@[simp] theorem State.startPolling_initState (s : State) : s.startPolling.initState = .polling s.clockRead.now := rfl
@[simp] theorem State.startPolling_now (s : State) : s.startPolling.now = s.clockRead.now := rfl
@[simp] theorem State.startPolling_fault (s : State) : s.startPolling.fault = s.fault := rfl
@[simp] theorem State.startPolling_refused (s : State) : s.startPolling.refused = s.refused := rfl
@[simp] theorem State.startPolling_trace (s : State) : s.startPolling.trace = s.trace := rfl
@[simp] theorem State.startPolling_host (s : State) : s.startPolling.host = s.host := rfl
@[simp] theorem State.startPolling_returns (s : State) : s.startPolling.returns = s.returns := rfl
@[simp] theorem State.startPolling_env (s : State) : s.startPolling.env = Env.afterClock s.env := rfl

/-- The part of the start after the mask is set. -/
def lineInitWrites (s : State) : Run Nat :=
  (writePins s.cfg.idlePattern (s.inInit .directionsSet)).bind fun _ s =>
  (writePins s.cfg.readyPattern (s.inInit .idleHigh)).bind fun _ s =>
  (writePins s.cfg.idlePattern (s.inInit .readyAsserted).settle).bind fun _ s =>
  .done (s.inInit .idleSettled).clockRead.now (s.inInit .idleSettled).startPolling

theorem lineInitStart_eq (s : State) :
    lineInitStart s = (setDirections s.cfg.dirMask s).bind fun _ s => lineInitWrites s := rfl

/-- The writes after the mask, at the device's page. -/
theorem lineInitWrites_hit {s : State} (hp : s.ctxBasePage = s.devBasePage) (hw : s.Reaches s.cfg.offWritePins) :
    lineInitWrites s =
      let s4 := (((s.inInit .directionsSet).pinsStep s.cfg.idlePattern .idleHigh).pinsStep s.cfg.readyPattern
        .readyAsserted).settle.pinsStep s.cfg.idlePattern .idleSettled
      .done s4.clockRead.now s4.startPolling := by
  have hit : ∀ (t : State) (v : Half) (p : InitState), t.cfg = s.cfg → t.ctxBasePage = s.ctxBasePage →
      t.devBasePage = s.devBasePage → ∃ u, writePins v t = .done 0 u ∧ u.inInit p = t.pinsStep v p ∧ u.cfg = s.cfg := by
    intro t v p h1 h2 h3
    have ht : t.Reaches t.cfg.offWritePins := by rw [State.reaches_congr h1 h2, h1]; exact hw
    exact ⟨_, writePins_hit ht (by rw [h2, h3, hp]) v, rfl, h1⟩
  obtain ⟨u1, w1, e1, c1⟩ := hit (s.inInit .directionsSet) s.cfg.idlePattern .idleHigh rfl rfl rfl
  obtain ⟨u2, w2, e2, c2⟩ := hit (u1.inInit .idleHigh) s.cfg.readyPattern .readyAsserted
    (by simp [e1]) (by simp [e1]) (by simp [e1])
  obtain ⟨u3, w3, e3, c3⟩ := hit (u2.inInit .readyAsserted).settle s.cfg.idlePattern
    .idleSettled (by simp [e2, e1]) (by simp [e2, e1]) (by simp [e2, e1])
  rw [lineInitWrites, w1, Run.bind_done, c1, w2, Run.bind_done, c2, w3, Run.bind_done, e3, e2, e1]

/-- The writes after the mask, at another page. -/
theorem lineInitWrites_miss {s : State} (hp : s.ctxBasePage ≠ s.devBasePage) (hw : s.Reaches s.cfg.offWritePins) :
    lineInitWrites s =
      let s4 := (((s.inInit .directionsSet).missStep s.cfg.idlePattern .idleHigh).missStep s.cfg.readyPattern
        .readyAsserted).settle.missStep s.cfg.idlePattern .idleSettled
      .done s4.clockRead.now s4.startPolling := by
  have miss : ∀ (t : State) (v : Half) (p : InitState), t.cfg = s.cfg → t.ctxBasePage = s.ctxBasePage →
      t.devBasePage = s.devBasePage → ∃ u, writePins v t = .done 0 u ∧ u.inInit p = t.missStep v p ∧ u.cfg = s.cfg := by
    intro t v p h1 h2 h3
    have ht : t.Reaches t.cfg.offWritePins := by rw [State.reaches_congr h1 h2, h1]; exact hw
    exact ⟨_, writePins_miss ht (by rw [h2, h3]; exact hp) v, rfl, h1⟩
  obtain ⟨u1, w1, e1, c1⟩ := miss (s.inInit .directionsSet) s.cfg.idlePattern .idleHigh rfl rfl rfl
  obtain ⟨u2, w2, e2, c2⟩ := miss (u1.inInit .idleHigh) s.cfg.readyPattern .readyAsserted
    (by simp [e1]) (by simp [e1]) (by simp [e1])
  obtain ⟨u3, w3, e3, c3⟩ := miss (u2.inInit .readyAsserted).settle s.cfg.idlePattern
    .idleSettled (by simp [e2, e1]) (by simp [e2, e1]) (by simp [e2, e1])
  rw [lineInitWrites, w1, Run.bind_done, c1, w2, Run.bind_done, c2, w3, Run.bind_done, e3, e2, e1]

/-- The start where set-directions is not accessible: nothing is done. -/
theorem lineInitStart_noMask {s : State} (h : ¬ s.Reaches s.cfg.offSetDirections) :
    lineInitStart s = .fault (.fatalAddress (s.portAddress s.cfg.offSetDirections))
      { s with fault := some (.fatalAddress (s.portAddress s.cfg.offSetDirections)) } := by
  rw [lineInitStart_eq, setDirections_unreached h]
  rfl

/-- The writes after the mask where write-pins is not accessible: the first one faults. -/
theorem lineInitWrites_unreached {s : State} (h : ¬ s.Reaches s.cfg.offWritePins) :
    lineInitWrites s = .fault (.fatalAddress (s.portAddress s.cfg.offWritePins))
      { s with initState := .directionsSet, fault := some (.fatalAddress (s.portAddress s.cfg.offWritePins)) } := by
  rw [lineInitWrites, writePins_unreached (s := s.inInit .directionsSet) h]
  rfl

/-! ### Polling -/

/-- Only in `Polling(t0)` is a LINE_INIT under way. -/
theorem performLineInit_start {s : State} (h : s.polling = false) :
    performLineInit s = (lineInitStart s).map fun _ => none := by
  unfold performLineInit
  split
  · rename_i t0 h0
    simp [State.polling, h0] at h
  · rfl

theorem performLineInit_polling {s : State} {t0 : Nat} (h : s.initState = .polling t0) :
    performLineInit s = (pollOnce t0 s).map fun r => r.map Returned.ready := by
  simp only [performLineInit, h]

/-- A poll at or past the timeout. -/
theorem pollOnce_late {s : State} {t0 : Nat} (h : t0 + s.cfg.hsTimeoutMs * 1000 ≤ s.clockRead.now) :
    pollOnce t0 s = .done (some false) (s.clockRead.inInit .timedOut) := by
  rw [pollOnce]
  exact if_pos h

/-- A poll before the timeout, where read-pins is not accessible: only the clock has been read. -/
theorem pollOnce_unreached {s : State} {t0 : Nat} (h : s.clockRead.now < t0 + s.cfg.hsTimeoutMs * 1000)
    (ha : ¬ s.Reaches s.cfg.offReadPins) :
    pollOnce t0 s = .fault (.fatalAddress (s.portAddress s.cfg.offReadPins))
      { s.clockRead with fault := some (.fatalAddress (s.portAddress s.cfg.offReadPins)) } := by
  rw [pollOnce]
  refine (if_neg (Nat.not_le.2 h)).trans ?_
  rw [ctsCheck_unreached (s := s.clockRead) ha]
  rfl

/-- A poll before the timeout, where read-pins is accessible. -/
theorem pollOnce_early {s : State} {t0 : Nat} (h : s.clockRead.now < t0 + s.cfg.hsTimeoutMs * 1000)
    (ha : s.Reaches s.cfg.offReadPins) :
    let w := s.clockRead.readPinsWord
    let t := s.clockRead.complete (s.portAddress s.cfg.offReadPins) .read w
    pollOnce t0 s =
      if ctsClear s.cfg (pinWordOf s.cfg w) then .done (some true) (t.inInit .ready) else .done none t := by
  intro w t
  have hcts : ctsCheck s.clockRead = .done (ctsClear s.cfg (pinWordOf s.cfg w)) t := ctsCheck_done (s := s.clockRead) ha
  rw [pollOnce]
  refine (if_neg (Nat.not_le.2 h)).trans ?_
  rw [hcts]
  rfl

end Sys2Proof.Machine
end

