-- ==== Sys2Proof/Laws/PerInstr.lean ====
section
/-! SUPPORT. Statements made for each instruction. `RoundTrip`: decoding an instruction's command line gives it back. -/

namespace Sys2Proof.Laws.RoundTrip

/-- Decoding the encoded instruction gives it back. -/
def Statement (i : Instr) : Prop := decode (encode i) = .op i

theorem regRead (o : Word) : Statement (.regRead o) := by
  rw [Statement, encode, unaryText, decode_args, lexLine_numberText]
  simp only [operationOf, operandOf_numberText, Option.map_some]

theorem regWrite (o v : Word) : Statement (.regWrite o v) := by
  rw [Statement, encode, binaryText, decode_args, lexLine_two]
  simp only [operationOf, operandOf_numberText]

theorem readPins : Statement .readPins := decode_nullary .rdpins

theorem writePins (d : Half) : Statement (.writePins d) := by
  rw [Statement, encode, unaryText, decode_args, lexLine_numberText]
  simp only [operationOf, operandOf_numberText, Option.map_some]

theorem writePins2 (hi lo : Half) : Statement (.writePins2 hi lo) := by
  rw [Statement, encode, binaryText, decode_args, lexLine_two]
  simp only [operationOf, operandOf_numberText]

theorem setDirections (m : Half) : Statement (.setDirections m) := by
  rw [Statement, encode, unaryText, decode_args, lexLine_numberText]
  simp only [operationOf, operandOf_numberText, Option.map_some]

theorem setBase (p : Byte) : Statement (.setBase p) := by
  rw [Statement, encode, unaryText, decode_args, lexLine_numberText]
  simp only [operationOf, operandOf_numberText, Option.map_some]

theorem encodeByte (b : Byte) : Statement (.encodeByte b) := by
  rw [Statement, encode, unaryText, decode_args, lexLine_numberText]
  simp only [operationOf, operandOf_numberText, Option.map_some]

theorem emitElement (e : Byte) : Statement (.emitElement e) := by
  rw [Statement, encode, unaryText, decode_args, lexLine_numberText]
  simp only [operationOf, operandOf_numberText, Option.map_some]

theorem emitFrame (b : Byte) : Statement (.emitFrame b) := by
  rw [Statement, encode, unaryText, decode_args, lexLine_numberText]
  simp only [operationOf, operandOf_numberText, Option.map_some]

theorem ctsCheck : Statement .ctsCheck := decode_nullary .ctscheck

theorem restoreIdle : Statement .restoreIdle := decode_nullary .idle

theorem transmit (buf : List Byte) : Statement (.transmit buf) := by
  rw [Statement, encode, decode_args, operationOf, bufferOf_text, Option.map_some]

theorem lineInit : Statement .lineInit := decode_nullary .init

theorem delay (unit : TimeUnit) (n : Nat) : Statement (.delay unit n) := by
  cases unit with
  | us =>
    rw [Statement, encode, unaryText, decode_args, lexLine_numberText]
    simp only [operationOf, numberOf_numberText, Option.map_some]
  | ms =>
    rw [Statement, encode, unaryText, decode_args, lexLine_numberText]
    simp only [operationOf, numberOf_numberText, Option.map_some]

theorem now : Statement .now := decode_nullary .now

end Sys2Proof.Laws.RoundTrip
end

