-- ==== Sys2Proof/Laws/Step.lean ====
section
/-! SUPPORT. A step is guarded as every operation is, whatever the host gives it. -/

namespace Sys2Proof.Machine

/-- The guard adds nothing to a meaning, which has it already. -/
theorem exec_guarded (i : Instr) (s : State) : s.guarded (exec i s) = exec i s := by
  rw [exec_eq_conclude, State.conclude, State.guarded_guarded]

/-- The guard of the state before a command line is taken adds nothing to the operation the line stands for. -/
theorem exec_issued_guarded (i : Instr) (s : State) (rest : List (List Byte)) :
    s.guarded (exec i (s.issued rest)) = exec i (s.issued rest) := by
  rw [← State.guarded_congr (s := s) (t := s.issued rest) rfl rfl rfl, exec_guarded]

/-- The whole of a step stands under the guard. -/
theorem step_eq_guarded (s : State) :
    step s = s.guarded
      (match s.initState with
       | .polling _ => exec .lineInit s
       | _ =>
           match s.hostNext with
           | .waits => .next s
           | .line (.op i) rest => exec i (s.issued rest)
           | .line .blank rest => .next (s.issued rest)
           | .line (.unmodelled name) _ => .refused (.unmodelled name)) := by
  have other : (match s.hostNext with
      | .waits => s.guarded (.next s)
      | .line (.op i) rest => exec i (s.issued rest)
      | .line .blank rest => s.guarded (.next (s.issued rest))
      | .line (.unmodelled name) _ => s.guarded (.refused (.unmodelled name))) =
      s.guarded (match s.hostNext with
      | .waits => .next s
      | .line (.op i) rest => exec i (s.issued rest)
      | .line .blank rest => .next (s.issued rest)
      | .line (.unmodelled name) _ => .refused (.unmodelled name)) := by
    rcases s.hostNext with _ | ⟨i | _ | name, rest⟩
    · rfl
    · exact (exec_issued_guarded i s rest).symm
    · rfl
    · rfl
  unfold step
  cases s.initState with
  | polling t0 => exact (exec_guarded .lineInit s).symm
  | _ => exact other

/-- The guard before a step and the guard of an outcome agree. -/
theorem State.entered_outcome (s : State) (k : Run (Option Returned)) : (s.entered k).outcome = s.guarded k.outcome := by
  unfold State.entered State.guarded
  cases s.fault <;> cases s.refused <;> cases s.cfg.failing <;> rfl

/-- Where nothing has stopped the machine and the configuration is well-formed, the guard lets the step run. -/
theorem State.entered_of_enabled {α : Type} {s : State} (he : s.Enabled) (k : Run α) : s.entered k = k := by
  simp [State.entered, he.1, he.2.1, he.2.2]

end Sys2Proof.Machine
end

