-- ==== Sys2Proof/Tests/Slice0.lean ====
section
/-! SUPPORT. The model's own tests. Every expected value comes from the spec: a vector of 95_test_vectors.md, named in the
comment, or the rule named there. The configuration is EXCFG of 95_test_vectors.md section 0, EXAMPLE ONLY. -/

namespace Sys2Proof.Tests

open Sys2Proof Sys2Proof.Machine

/-! ### Helpers -/

/-- The next state of an outcome, if it is one. -/
def nextOf : Host.Outcome State Fault Refusal → Option State
  | .next s => some s
  | _ => none

def faultOf : Host.Outcome State Fault Refusal → Option Fault
  | .fault r => some r
  | _ => none

def refusalOf : Host.Outcome State Fault Refusal → Option Refusal
  | .refused r => some r
  | _ => none

theorem exists_next {o : Host.Outcome State Fault Refusal} (h : (nextOf o).isSome = true) : ∃ t, o = .next t := by
  cases o with
  | next t => exact ⟨t, rfl⟩
  | fault r => cases h
  | refused r => cases h

/-- A bus draw that takes no time and gives this sample; every other draw is all ones, or a word that is easily seen. -/
def seen (sample : Half) : BusDraw :=
  { delta := 0, sample := sample, floating := 0xFFFF, otherHalf := 0xBEEF, outside := 0xDEADBEEF }

/-- The outside world of a minimal-time run whose reads and writes see these samples in order. -/
def worldOf (samples : List Half) : Env := ⟨samples.map seen, List.replicate 24 0, List.replicate 4 0, 0⟩

/-- The start state of the vectors of 95_test_vectors.md section 2.5: page 0x12, DirMask = OutLatch = 0x0003. -/
def up : State :=
  { State.resetWith Cfg.excfg 0 with dirMask := some 0x0003, outLatch := some 0x0003, env := worldOf (List.replicate 24 0) }

/-- The same with the device moved to page 0x34 by a raw write (vector B6). -/
def away : State := { up with devBasePage := 0x34 }

/-- The same at page 0x56, which is not accessible (vector B3). -/
def gone : State := { up with devBasePage := 0x56, ctxBasePage := 0x56 }

/-- The same in LINE_INIT's poll loop from t0 = 0. -/
def waiting : State := { up with initState := .polling 0 }

/-- EXCFG with a merge function that takes the low half (vector PO11). -/
def mergeCfg : Cfg := { Cfg.excfg with pairedWrite := .merge [] .low }

/-! ### Well-formedness (95_test_vectors.md section 2.11) -/

theorem test_cf1_excfg_is_well_formed : Cfg.excfg.failing = none := by decide
theorem test_cf2_cts_input : ({ Cfg.excfg with dirMask := 0x0007 } : Cfg).failing = some .wfCtsInput := by decide
theorem test_cf3_tx_output : ({ Cfg.excfg with dirMask := 0x0002 } : Cfg).failing = some .wfTxOutput := by decide
theorem test_cf4_rts_output : ({ Cfg.excfg with dirMask := 0x0001 } : Cfg).failing = some .wfRtsOutput := by decide
theorem test_cf5_idle_tx : ({ Cfg.excfg with idlePattern := 0x0002 } : Cfg).failing = some .wfIdleTxHigh := by decide
theorem test_cf6_idle_rts : ({ Cfg.excfg with idlePattern := 0x0001 } : Cfg).failing = some .wfIdleRtsDeasserted := by
  decide
theorem test_cf7_enc_one_bit : ({ Cfg.excfg with encOne := 0x06 } : Cfg).failing = some .wfEncOneBit := by decide
theorem test_cf8_enc_high_nibble :
    let cfg : Cfg := { Cfg.excfg with encOne := 0x13, encZero := 0x02 }
    ConfigCheck.passes cfg .wfEncHighNibble = false ∧ ConfigCheck.passes cfg .wfEncOneBit = false := by decide
theorem test_cf9_offsets : ({ Cfg.excfg with offSetBase := 0x0010 } : Cfg).failing = some .wfOffsetsDistinct := by decide
theorem test_cf10_bit_period : ({ Cfg.excfg with bitPeriodUs := 0 } : Cfg).failing = some .wfBitPeriod := by decide
theorem test_cf11_framing_is_free : ({ Cfg.excfg with encStart := 0x33, encStop := 0xC3 } : Cfg).failing = none := by decide
/-- `wf_pins_distinct` of 00_scope.md R6, which no vector shows. -/
theorem test_pins_distinct : ({ Cfg.excfg with ctsBit := 1 } : Cfg).failing = some .wfPinsDistinct := by decide

/-- A configuration that fails a check is refused before anything runs (60_exceptions.md R112). -/
theorem test_bad_config_is_refused :
    refusalOf (exec .now { up with cfg := { Cfg.excfg with bitPeriodUs := 0 } }) = some (.badConfig .wfBitPeriod) := by decide

/-! ### Decoding (30_encoding.md R64): the bytes are the ASCII codes of the line in the comment -/

/-- `rdreg 0xFF` -/
theorem test_decode_rdreg :
    decode [0x72, 0x64, 0x72, 0x65, 0x67, 0x20, 0x30, 0x78, 0x46, 0x46] = .op (.regRead 0xFF) := by decide
/-- `wrreg 0x10, 7` -/
theorem test_decode_wrreg :
    decode [0x77, 0x72, 0x72, 0x65, 0x67, 0x20, 0x30, 0x78, 0x31, 0x30, 0x2C, 0x20, 0x37] = .op (.regWrite 0x10 7) := by
  decide
/-- `rdpins` -/
theorem test_decode_rdpins : decode [0x72, 0x64, 0x70, 0x69, 0x6E, 0x73] = .op .readPins := by decide
/-- `wrpins 0x0002` -/
theorem test_decode_wrpins :
    decode [0x77, 0x72, 0x70, 0x69, 0x6E, 0x73, 0x20, 0x30, 0x78, 0x30, 0x30, 0x30, 0x32] = .op (.writePins 2) := by decide
/-- `wrpins2 0x1, 0x3` -/
theorem test_decode_wrpins2 :
    decode [0x77, 0x72, 0x70, 0x69, 0x6E, 0x73, 0x32, 0x20, 0x30, 0x78, 0x31, 0x2C, 0x20, 0x30, 0x78, 0x33] =
      .op (.writePins2 1 3) := by decide
/-- `setdir 0xFFFF` -/
theorem test_decode_setdir :
    decode [0x73, 0x65, 0x74, 0x64, 0x69, 0x72, 0x20, 0x30, 0x78, 0x46, 0x46, 0x46, 0x46] = .op (.setDirections 0xFFFF) := by
  decide
/-- `setbase 0x34` -/
theorem test_decode_setbase :
    decode [0x73, 0x65, 0x74, 0x62, 0x61, 0x73, 0x65, 0x20, 0x30, 0x78, 0x33, 0x34] = .op (.setBase 0x34) := by decide
/-- `encode 0x41` -/
theorem test_decode_encode :
    decode [0x65, 0x6E, 0x63, 0x6F, 0x64, 0x65, 0x20, 0x30, 0x78, 0x34, 0x31] = .op (.encodeByte 0x41) := by decide
/-- `emit 3` -/
theorem test_decode_emit : decode [0x65, 0x6D, 0x69, 0x74, 0x20, 0x33] = .op (.emitElement 3) := by decide
/-- `frame 255` -/
theorem test_decode_frame : decode [0x66, 0x72, 0x61, 0x6D, 0x65, 0x20, 0x32, 0x35, 0x35] = .op (.emitFrame 0xFF) := by decide
/-- `ctscheck` -/
theorem test_decode_ctscheck : decode [0x63, 0x74, 0x73, 0x63, 0x68, 0x65, 0x63, 0x6B] = .op .ctsCheck := by decide
/-- `idle ; x` -/
theorem test_decode_idle : decode [0x69, 0x64, 0x6C, 0x65, 0x20, 0x3B, 0x20, 0x78] = .op .restoreIdle := by decide
/-- `tx [0x41, 0x54]` -/
theorem test_decode_tx :
    decode [0x74, 0x78, 0x20, 0x5B, 0x30, 0x78, 0x34, 0x31, 0x2C, 0x20, 0x30, 0x78, 0x35, 0x34, 0x5D] =
      .op (.transmit [0x41, 0x54]) := by decide
/-- `init` -/
theorem test_decode_init : decode [0x69, 0x6E, 0x69, 0x74] = .op .lineInit := by decide
/-- `delay_us 50` -/
theorem test_decode_delay_us :
    decode [0x64, 0x65, 0x6C, 0x61, 0x79, 0x5F, 0x75, 0x73, 0x20, 0x35, 0x30] = .op (.delay .us 50) := by decide
/-- `delay_ms 200` -/
theorem test_decode_delay_ms :
    decode [0x64, 0x65, 0x6C, 0x61, 0x79, 0x5F, 0x6D, 0x73, 0x20, 0x32, 0x30, 0x30] = .op (.delay .ms 200) := by decide
/-- `now` -/
theorem test_decode_now : decode [0x6E, 0x6F, 0x77] = .op .now := by decide
/-- `frame 256` is no form of the table: the operand has 8 bits (log 10). -/
theorem test_decode_wide_operand :
    decode [0x66, 0x72, 0x61, 0x6D, 0x65, 0x20, 0x32, 0x35, 0x36] = .unmodelled [0x66, 0x72, 0x61, 0x6D, 0x65] := by decide
/-- `rdpins 1`: READ_PINS has no operand. -/
theorem test_decode_extra_operand :
    decode [0x72, 0x64, 0x70, 0x69, 0x6E, 0x73, 0x20, 0x31] = .unmodelled [0x72, 0x64, 0x70, 0x69, 0x6E, 0x73] := by decide
/-- An address of the opcode table (row REG_READ at page 0x12): the page is the context's own. -/
theorem test_decode_table_word : decodeTableWord 32 0x12345678 = some (.regRead 0x00345678) := by decide

/-! ### Addresses, data words, transactions, lines (sections 2.1 to 2.4) -/

/-- A1, A2, A3, A5. -/
theorem test_addresses :
    addressOf 0x12 0x00345678 = 0x12345678 ∧ addressOf 0xFF 0xFFFFFFFF = 0xFFFFFFFF ∧
      addressOf 0x00 0x01000000 = 0x00000000 ∧ addressOf 0x80 0xFF000001 = 0x80000001 := by decide
/-- A7. -/
theorem test_port_address : ({ up with ctxBasePage := 0x34 } : State).portAddress Cfg.excfg.offWritePins = 0x34400040 := by
  decide
/-- DW1, DW4, DW6. -/
theorem test_data_words :
    sameWord 0x0003 = 0x00030003 ∧ pairWord 0xABCD 0x1234 = 0xABCD1234 ∧ baseWord 0xFF = 0x00FF00FF := by decide
/-- DC1 to DC5. -/
theorem test_decode_ports :
    busDecode Cfg.excfg 0x12 0x12400010 .read 0 = .readPins ∧
      busDecode Cfg.excfg 0x12 0x12400040 .write 0x00030003 = .writePins ∧
      busDecode Cfg.excfg 0x12 0x12400040 .write 0x00010003 = .writePins2 ∧
      busDecode Cfg.excfg 0x12 0x12400030 .write 0 = .setDirections ∧
      busDecode Cfg.excfg 0x12 0x12400020 .write 0 = .setBase := by decide
/-- DC6 to DC10. -/
theorem test_decode_no_port :
    busDecode Cfg.excfg 0x12 0x12400050 .read 0 = .undefinedPort ∧
      busDecode Cfg.excfg 0x12 0x12400040 .read 0 = .undefinedPort ∧
      busDecode Cfg.excfg 0x12 0x12400010 .write 0 = .undefinedPort ∧
      busDecode Cfg.excfg 0x12 0x12410010 .read 0 = .outside ∧
      busDecode Cfg.excfg 0x12 0x34400010 .read 0 = .outside := by decide
/-- LN1, LN2, LN4, LN5, LN6. -/
theorem test_lines :
    (State.resetWith Cfg.excfg 0).line 0 = .undefined ∧
      ({ up with outLatch := none } : State).line 1 = .undefined ∧
      ({ up with outLatch := some 0x0001 } : State).line 1 = .driven false ∧
      ({ up with outLatch := some 0xFFFC } : State).line 2 = .outside ∧
      ({ up with dirMask := some 0x0001 } : State).line 1 = .outside := by decide

/-! ### Register and port operations (sections 2.5 and 2.6) -/

/-- PO14: a read outside the window returns the draw, and is recorded. -/
theorem test_po14_rdreg_outside :
    (nextOf (exec (.regRead 0x00410000) up)).map (fun t => (t.returns, t.trace)) =
      some ([.word 0xDEADBEEF], [.access 0 .read 0x12410000 0xDEADBEEF]) := by decide
/-- PO15. -/
theorem test_po15_rdreg_undefined :
    refusalOf (exec (.regRead 0x00400050) up) = some (.undefinedPort 0x12400050 .read) := by decide
/-- B6: a raw write to set-base moves the device's page alone. -/
theorem test_b6_wrreg_set_base :
    (nextOf (exec (.regWrite 0x00400020 0x00340034) up)).map (fun t => (t.devBasePage, t.ctxBasePage)) =
      some (0x34, 0x12) := by decide
/-- B10: bits [15:8] are nonzero. -/
theorem test_b10_wrreg_bad_base :
    refusalOf (exec (.regWrite 0x00400020 0x01340134) up) = some (.badBaseData 0x01340134) := by decide
/-- PO3: bits 15..2 of the sample 0xFFFB are inputs, bits 1..0 draws (here 1), the other half a draw. -/
theorem test_po3_rdpins :
    (nextOf (exec .readPins { up with env := worldOf [0xFFFB] })).map (·.returns) = some [.word 0xBEEFFFFB] := by decide
/-- PO5 in the lane of PO4: the outputs read the latch back, and the pin word is in the high half. -/
theorem test_po4_po5_rdpins :
    (nextOf (exec .readPins { up with cfg := { Cfg.excfg with readLane := .high, outputReadback := .latch }
                                      env := worldOf [0x0004] })).map (·.returns) = some [.word 0x0007BEEF] := by decide
/-- PO7. -/
theorem test_po7_wrpins :
    (nextOf (exec (.writePins 0x0002) up)).map (fun t => (t.outLatch, t.trace, t.line 0, t.line 1)) =
      some (some 0x0002, [.access 0 .write 0x12400040 0x00020002, .pins 0 0x0002], .driven false, .driven true) := by decide
/-- B8: at a page the device left, the write misses it. -/
theorem test_b8_wrpins_misses :
    (nextOf (exec (.writePins 0x0000) away)).map (fun t => (t.outLatch, t.trace)) =
      some (some 0x0003, [.access 0 .write 0x12400040 0x00000000]) := by decide
/-- PO10. -/
theorem test_po10_wrpins2_refused :
    refusalOf (exec (.writePins2 0x0001 0x0003) up) = some (.unequalHalves 0x0040 0x0001 0x0003) := by decide
/-- PO11. -/
theorem test_po11_wrpins2_merged :
    (nextOf (exec (.writePins2 0x0001 0x0003) { up with cfg := mergeCfg })).map (fun t => (t.outLatch, accessesOf t.trace)) =
      some (some 0x0003, [.access 0 .write 0x12400040 0x00010003]) := by decide
/-- PO12. -/
theorem test_po12_setdir :
    (nextOf (exec (.setDirections 0x0001) up)).map (fun t => (t.dirMask, t.line 1, t.trace)) =
      some (some 0x0001, .outside, [.access 0 .write 0x12400030 0x00010001]) := by decide
/-- B1: the write is at the old page. -/
theorem test_b1_setbase :
    (nextOf (exec (.setBase 0x34) up)).map (fun t => (t.devBasePage, t.ctxBasePage, t.trace)) =
      some (0x34, 0x34, [.access 0 .write 0x12400020 0x00340034]) := by decide
/-- B5. -/
theorem test_b5_setbase_faults : faultOf (exec (.setBase 0x12) gone) = some (.fatalAddress 0x56400020) := by decide

/-! ### The frame encoder (sections 2.7 to 2.9) -/

/-- E7. -/
theorem test_e7_encode :
    (frameOf Cfg.excfg 0x41).elements = [0x02, 0x03, 0x02, 0x02, 0x02, 0x02, 0x02, 0x03, 0x02, 0x03] := by decide
/-- E10: other values, the same shape. -/
theorem test_e10_encode :
    (frameOf { Cfg.excfg with txBit := 3, encZero := 0x50, encStart := 0x50, encOne := 0x58, encStop := 0x58 } 0x41).elements =
      [0x50, 0x58, 0x50, 0x50, 0x50, 0x50, 0x50, 0x58, 0x50, 0x58] := by decide
/-- TM2: δ = 2, ε = 3, from Now = 1000. -/
theorem test_tm2_emit :
    (nextOf (exec (.emitElement 0x03)
      { up with now := 1000, env := { bus := [{ seen 0 with delta := 2 }], delays := [3], clock := [], drawn := 0 } })).map
        (fun t => (t.now, t.trace)) =
      some (1055, [.access 1002 .write 0x12400040 0x00030003, .pins 1002 0x0003]) := by decide
/-- TM7 and E7. -/
theorem test_tm7_frame :
    (nextOf (exec (.emitFrame 0x41) up)).map (fun t => (t.now, t.frame, pinsEvents t.trace)) =
      some (500, none, [(0, 2), (50, 3), (100, 2), (150, 2), (200, 2), (250, 2), (300, 2), (350, 3), (400, 2), (450, 3)]) := by
  decide
/-- The checks of PO1 and PO2. -/
theorem test_ctscheck :
    (nextOf (exec .ctsCheck { up with env := worldOf [0x0000] })).map (·.returns) = some [.clear true] ∧
      (nextOf (exec .ctsCheck { up with env := worldOf [0x0004] })).map (·.returns) = some [.clear false] := by decide
/-- The idle write of T1, as an operation of its own (41_frame_encoder.md R89). -/
theorem test_idle :
    (nextOf (exec .restoreIdle { up with outLatch := some 0 })).map (fun t => (t.outLatch, t.trace)) =
      some (some 0x0003, [.access 0 .write 0x12400040 0x00030003, .pins 0 0x0003]) := by decide
/-- T3: one byte is sent, the second check is closed; 13 transactions; the TX levels of E7, then idle. -/
theorem test_t3_tx :
    let t := nextOf (exec (.transmit [0x41, 0x54]) { up with env := worldOf (List.replicate 11 0 ++ [0x0004, 0]) })
    t.map (fun t => (t.returns, (accessesOf t.trace).length, t.now)) = some ([.sent 1], 13, 500) ∧
      t.map (fun t => (t.txPhase, t.frame, txWaveform t.cfg t.trace)) =
        some (.txDone 1, none, [(0, false), (50, true), (100, false), (150, false), (200, false), (250, false), (300, false),
          (350, true), (400, false), (450, true), (500, true)]) := by decide
/-- P6: write-pins alone is not accessible; the check is recorded, nothing is emitted, and the phase says where. -/
theorem test_p6_tx_faults :
    let s : State := { up with cfg := { Cfg.excfg with
      accessibleRanges := [⟨0x12000000, 0x1240003F⟩, ⟨0x12400041, 0x12FFFFFF⟩] } }
    let t := (perform (.transmit [0xFF]) s).endState
    faultOf (exec (.transmit [0xFF]) s) = some (.fatalAddress 0x12400040) ∧
      t.fault = some (.fatalAddress 0x12400040) ∧ t.txPhase = .txElement 0 0 0 ∧ t.outLatch = some 0x0003 ∧
      t.trace = [.access 0 .read 0x12400010 0xBEEF0003] := by decide

/-! ### LINE_INIT and time (sections 2.8 and 2.10) -/

/-- H1 and H6, to the start of polling: the settle delay overshoots by 7, and t0 is the clock's reading. -/
theorem test_h6_init_starts :
    (nextOf (exec .lineInit { State.resetWith Cfg.excfg 0 with
      env := { bus := List.replicate 5 (seen 0), delays := [7], clock := [0, 1], drawn := 0 } })).map
        (fun t => (t.initState, t.dirMask, t.now, t.trace)) =
      some (.polling 200007, some 0x0003, 200007,
        [.access 0 .write 0x12400030 0x00030003, .access 0 .write 0x12400040 0x00030003, .pins 0 3,
         .access 0 .write 0x12400040 0x00010001, .pins 0 1, .access 200007 .write 0x12400040 0x00030003,
         .pins 200007 3]) := by decide
/-- H1 and H5, one poll from t0 = 0: clear in the window is true; a clock past the window is false before any read. -/
theorem test_h1_h5_init_polls :
    (nextOf (exec .lineInit waiting)).map (fun t => (t.initState, t.returns, (accessesOf t.trace).length)) =
        some (.ready, [.ready true], 1) ∧
      (nextOf (exec .lineInit { waiting with env := { waiting.env with clock := [2000000] } })).map
        (fun t => (t.initState, t.returns, (accessesOf t.trace).length)) = some (.timedOut, [.ready false], 0) := by decide
/-- TM3: an overshoot of 7 is not admissible under a bound of 5 (log 8). -/
theorem test_tm3_delay :
    (nextOf (exec (.delay .us 50) { up with
      now := 1000
      cfg := { Cfg.excfg with bitJitterUs := some 5 }
      env := { up.env with delays := [7] } })).map (·.now) = some 1055 := by decide
/-- TM6 with ε = 0. -/
theorem test_tm6_delay : (nextOf (exec (.delay .ms 200) up)).map (·.now) = some 200000 := by decide
/-- TM10: the reading after a draw of 3 (42_line_init.md R106). -/
theorem test_tm10_now :
    (nextOf (exec .now { up with now := 1000, env := { up.env with clock := [3] } })).map (fun t => (t.now, t.returns)) =
      some (1003, [.time 1003]) := by decide

/-! ### The step -/

/-- Two steps from a queue of `now` and `rdpins`: the first line goes first. -/
theorem test_step_takes_the_first_line :
    (nextOf (step { up with host := [[0x6E, 0x6F, 0x77], [0x72, 0x64, 0x70, 0x69, 0x6E, 0x73]] })).map
        (fun t => (t.returns, t.host)) =
      some ([.time 0], [[0x72, 0x64, 0x70, 0x69, 0x6E, 0x73]]) := by decide
/-- A line that is no operation is refused by its first word: `reset` (60_exceptions.md R111). -/
theorem test_step_unmodelled :
    refusalOf (step { up with host := [[0x72, 0x65, 0x73, 0x65, 0x74]] }) =
      some (.unmodelled [0x72, 0x65, 0x73, 0x65, 0x74]) := by decide

/-! ### Witnesses

One for each statement of Sys2Proof/Certificates/Slice0/Obligations.lean that has hypotheses, named after it: concrete states
and operands that meet the hypotheses of each of its clauses together, at the boundary of their ranges. -/

/-- `up` meets the hypotheses that most statements share. -/
theorem witness_up_is_enabled_and_addressed :
    up.Enabled ∧ up.polling = false ∧ up.Addressed ∧ up.Reaches up.cfg.offReadPins ∧ up.Reaches up.cfg.offWritePins ∧
      up.Reaches up.cfg.offSetDirections ∧ up.Reaches up.cfg.offSetBase := by decide

/-- `away` meets them at a page the device does not hold. -/
theorem witness_away_is_enabled_and_not_addressed :
    away.Enabled ∧ away.polling = false ∧ ¬ away.Addressed ∧ away.Reaches away.cfg.offReadPins ∧
      away.Reaches away.cfg.offWritePins ∧ away.Reaches away.cfg.offSetDirections ∧ away.Reaches away.cfg.offSetBase := by
  decide

/-- `gone` meets the hypotheses of a fault. -/
theorem witness_gone_is_enabled_and_unreached :
    gone.Enabled ∧ gone.polling = false ∧ ¬ gone.Reaches gone.cfg.offReadPins ∧ ¬ gone.Reaches gone.cfg.offWritePins ∧
      ¬ gone.Reaches gone.cfg.offSetDirections ∧ ¬ gone.Reaches gone.cfg.offSetBase := by decide

/-- White space of each kind before the name, and after it nothing, a tab, a comma, a bracket or a comment. -/
theorem witness_UnknownCommandNamesAreUnmodelled :
    (∀ c ∈ ([0x20, 0x09, 0x0D, 0x0A] : List Byte), isBlankByte c = true) ∧ ([0x78] : List Byte) ≠ [] ∧
      (∀ c ∈ ([0x78] : List Byte), isWordByte c = true) ∧ (∀ k : Keyword, k.text ≠ [0x78]) ∧
      ∀ rest ∈ ([[], [0x09], [0x2C], [0x5B], [0x3B]] : List (List Byte)), ∀ c ∈ rest.head?, isWordByte c = false :=
  ⟨by decide, by decide, by decide, fun k => by cases k <;> decide, by decide⟩

theorem witness_StepRunsTheDecodedOperation :
    let s : State := { up with host := [[0x6E, 0x6F, 0x77], []] }
    s.polling = false ∧ s.host = [0x6E, 0x6F, 0x77] :: [[]] ∧ decode [0x6E, 0x6F, 0x77] = .op .now := by decide

theorem witness_StepWithoutAnOperation :
    up.Enabled ∧ up.polling = false ∧ up.host = [] ∧ decode [] = .blank ∧ decode [0x3B] = .blank ∧
      decode [0x78] = .unmodelled [0x78] := by decide

theorem witness_StepContinuesAPollingLineInit : waiting.polling = true := by decide

theorem witness_StoppedMachineStaysStopped :
    ({ up with fault := some (.fatalAddress 0) } : State).fault = some (.fatalAddress 0) ∧
      ({ up with refused := some (.badBaseData 0) } : State).fault = none ∧
      ({ up with refused := some (.badBaseData 0) } : State).refused = some (.badBaseData 0) := by decide

theorem witness_IllFormedConfigurationIsRefused :
    let s : State := { up with cfg := { Cfg.excfg with bitPeriodUs := 0 } }
    s.fault = none ∧ s.refused = none ∧ s.cfg.failing = some .wfBitPeriod := by decide

theorem witness_AddressesAreThePageOverTheOffset :
    (0xFF000010 : Word).extractLsb' 0 24 = (0x00000010 : Word).extractLsb' 0 24 ∧
      Event.access 0 .read 0x12410000 0xDEADBEEF ∈ newEvents up (perform (.regRead 0x00410000) up).endState := by decide

/-- One address and direction for each clause of the decode, at the ends of the window. -/
theorem witness_BusTransactionsDecodeByThePortMap :
    Cfg.excfg.failing = none ∧
      ¬ ((0x123FFFFF : Word).extractLsb' 24 8 = (0x12 : Byte) ∧ (0x123FFFFF : Word).extractLsb' 16 8 = Cfg.excfg.portWindow) ∧
      ((0x12400000 : Word).extractLsb' 24 8 = (0x12 : Byte) ∧ (0x12400000 : Word).extractLsb' 16 8 = Cfg.excfg.portWindow) ∧
      (0x12400000 : Word).extractLsb' 0 16 ≠ Cfg.excfg.offReadPins ∧
      ((0x1240FFFF : Word).extractLsb' 24 8 = (0x12 : Byte) ∧ (0x1240FFFF : Word).extractLsb' 16 8 = Cfg.excfg.portWindow) ∧
      (0x1240FFFF : Word).extractLsb' 0 16 ≠ Cfg.excfg.offWritePins ∧
      (0x1240FFFF : Word).extractLsb' 0 16 ≠ Cfg.excfg.offSetDirections ∧
      (0x1240FFFF : Word).extractLsb' 0 16 ≠ Cfg.excfg.offSetBase ∧
      (0x12400010 : Word).extractLsb' 0 16 = Cfg.excfg.offReadPins ∧
      (0x12400040 : Word).extractLsb' 0 16 = Cfg.excfg.offWritePins ∧
      (0x12400030 : Word).extractLsb' 0 16 = Cfg.excfg.offSetDirections ∧
      (0x12400020 : Word).extractLsb' 0 16 = Cfg.excfg.offSetBase := by decide

theorem witness_OneAccessIsCheckedAndIssuedOnce :
    up.cfg.accessible 0x56400010 = false ∧
      (∃ w t, access 0x12400010 .read 0 up = .done w t) ∧
      (∃ r t, access 0x12400010 .write 0 up = .refused r t) :=
  ⟨by decide, ⟨_, _, rfl⟩, ⟨_, _, rfl⟩⟩

/-- Outside the window, at read-pins, and at another offset of the window. -/
theorem witness_RegReadCompletes :
    up.Enabled ∧ up.cfg.accessible (up.regAddress 0x0041FFFF) = true ∧
      inWindow up.cfg up.devBasePage (up.regAddress 0x0041FFFF) = false ∧
      up.cfg.accessible (up.regAddress 0xFF400010) = true ∧
      inWindow up.cfg up.devBasePage (up.regAddress 0xFF400010) = true ∧
      offsetOf (up.regAddress 0xFF400010) = up.cfg.offReadPins ∧
      inWindow up.cfg up.devBasePage (up.regAddress 0x00400000) = true ∧
      offsetOf (up.regAddress 0x00400000) ≠ up.cfg.offReadPins := by decide

/-- Outside the window, at write-pins, at set-directions with equal halves, at set-base with a page in both halves, and at
read-pins. -/
theorem witness_RegWriteCompletes :
    up.Enabled ∧ up.cfg.accessible (up.regAddress 0x00120000) = true ∧
      inWindow up.cfg up.devBasePage (up.regAddress 0x00120000) = false ∧
      inWindow up.cfg up.devBasePage (up.regAddress 0x00400040) = true ∧
      offsetOf (up.regAddress 0x00400040) = up.cfg.offWritePins ∧
      offsetOf (up.regAddress 0x00400030) = up.cfg.offSetDirections ∧ highHalf 0xFFFFFFFF = lowHalf 0xFFFFFFFF ∧
      offsetOf (up.regAddress 0x00400020) = up.cfg.offSetBase ∧ (0x00FF00FF : Word) = baseWord 0xFF ∧
      offsetOf (up.regAddress 0x00400010) ≠ up.cfg.offWritePins ∧
      offsetOf (up.regAddress 0x00400010) ≠ up.cfg.offSetDirections ∧
      offsetOf (up.regAddress 0x00400010) ≠ up.cfg.offSetBase := by decide

/-- Unequal halves at set-directions, and data that is no page at set-base, without and with a merge function. -/
theorem witness_RawWritesWithUnusualData :
    let s : State := { up with cfg := mergeCfg }
    up.Enabled ∧ s.Enabled ∧ up.cfg.accessible (up.regAddress 0x00400030) = true ∧
      inWindow up.cfg up.devBasePage (up.regAddress 0x00400030) = true ∧
      offsetOf (up.regAddress 0x00400030) = up.cfg.offSetDirections ∧ highHalf 0x00010003 ≠ lowHalf 0x00010003 ∧
      inWindow up.cfg up.devBasePage (up.regAddress 0x00400020) = true ∧
      offsetOf (up.regAddress 0x00400020) = up.cfg.offSetBase ∧ (∀ p : Byte, (0x01000100 : Word) ≠ baseWord p) ∧
      up.cfg.pairedWrite = .refuse ∧ s.cfg.pairedWrite.result 0x0001 0x0003 = some 0x0003 ∧
      s.cfg.pairedWrite.result 0x0100 0x0100 = some 0x0100 := by decide

theorem witness_ReadPinsCompletes :
    let s : State := { up with cfg := { Cfg.excfg with readLane := .high } }
    up.Enabled ∧ up.Reaches up.cfg.offReadPins ∧ up.Addressed ∧ up.cfg.readLane = .low ∧
      s.Enabled ∧ s.Reaches s.cfg.offReadPins ∧ s.Addressed ∧ s.cfg.readLane = .high ∧
      away.Enabled ∧ away.Reaches away.cfg.offReadPins ∧ ¬ away.Addressed := by decide

/-- Pins 0 and 15 of the mask 0x0003, both read-backs, and both unknown registers. -/
theorem witness_PinWordBits :
    let s : State := { up with cfg := { Cfg.excfg with outputReadback := .latch } }
    (State.resetWith Cfg.excfg 0).dirMask = none ∧ up.dirMask = some 0x0003 ∧ (0x0003 : Half).getLsbD 15 = false ∧
      (0x0003 : Half).getLsbD 0 = true ∧ up.cfg.outputReadback = .draw ∧ s.cfg.outputReadback = .latch ∧
      s.outLatch = some 0x0003 ∧ ({ s with outLatch := none } : State).outLatch = none := by decide

theorem witness_WritePinsCompletes :
    up.Enabled ∧ up.Reaches up.cfg.offWritePins ∧ up.Addressed ∧
      away.Enabled ∧ away.Reaches away.cfg.offWritePins ∧ ¬ away.Addressed := by decide

theorem witness_WritePins2Completes :
    let s : State := { up with cfg := mergeCfg }
    up.Enabled ∧ up.Reaches up.cfg.offWritePins ∧ up.Addressed ∧ (0x0001 : Half) ≠ 0x0003 ∧ up.cfg.pairedWrite = .refuse ∧
      s.Enabled ∧ s.Reaches s.cfg.offWritePins ∧ s.Addressed ∧ s.cfg.pairedWrite.result 0x0001 0x0003 = some 0x0003 ∧
      away.Enabled ∧ away.Reaches away.cfg.offWritePins ∧ ¬ away.Addressed := by decide

theorem witness_SetDirectionsCompletes :
    up.Enabled ∧ up.Reaches up.cfg.offSetDirections ∧ up.Addressed ∧
      away.Enabled ∧ away.Reaches away.cfg.offSetDirections ∧ ¬ away.Addressed := by decide

theorem witness_SetBaseCompletes :
    up.Enabled ∧ up.Reaches up.cfg.offSetBase ∧ up.Addressed ∧
      away.Enabled ∧ away.Reaches away.cfg.offSetBase ∧ ¬ away.Addressed := by decide

theorem witness_LinesFollowTheMask :
    (State.resetWith Cfg.excfg 0).dirMask = none ∧ up.dirMask = some 0x0003 ∧ (0x0003 : Half).getLsbD 2 = false ∧
      (0x0003 : Half).getLsbD 1 = true ∧ ({ up with outLatch := none } : State).outLatch = none ∧
      up.outLatch = some 0x0003 := by decide

theorem witness_EncodeByteCompletes : up.Enabled := by decide

theorem witness_TxLevelsDetermineTheByte :
    Cfg.excfg.failing = none ∧
      (frameTable Cfg.excfg 0xFF).map (fun e => e.getLsbD Cfg.excfg.txBit) =
        (frameTable Cfg.excfg 0xFF).map (fun e => e.getLsbD Cfg.excfg.txBit) := by decide

theorem witness_EmitElementCompletes :
    up.Enabled ∧ up.Reaches up.cfg.offWritePins ∧ up.Addressed ∧
      away.Enabled ∧ away.Reaches away.cfg.offWritePins ∧ ¬ away.Addressed := by decide

theorem witness_EmitFrameCompletes :
    up.Enabled ∧ up.Reaches up.cfg.offWritePins ∧ up.Addressed ∧
      away.Enabled ∧ away.Reaches away.cfg.offWritePins ∧ ¬ away.Addressed := by decide

/-- Exactly ten draws, whose samples are changed. -/
theorem witness_EmissionIgnoresThePeer :
    (∀ d : BusDraw, ({ d with sample := 0xFFFF } : BusDraw).delta = d.delta) ∧
      10 ≤ ({ up with env := worldOf (List.replicate 10 0) } : State).env.bus.length :=
  ⟨fun _ => rfl, by decide⟩

theorem witness_CtsCheckCompletes :
    up.Enabled ∧ up.Reaches up.cfg.offReadPins ∧ up.Addressed ∧ up.dirMask = some 0x0003 ∧
      (0x0003 : Half).getLsbD up.cfg.ctsBit = false ∧ away.Enabled ∧ away.Reaches away.cfg.offReadPins ∧
      ¬ away.Addressed := by decide

/-- CTS an output whose latch reads back (40_port_ops.md R77): the check sees the latch, not the sample. -/
theorem test_ctscheck_reads_the_latch_back :
    (nextOf (exec .ctsCheck { up with
      cfg := { Cfg.excfg with outputReadback := .latch }
      dirMask := some 0x0007 })).map (·.returns) = some [.clear true] := by decide

theorem witness_RestoreIdleCompletes :
    up.Enabled ∧ up.Reaches up.cfg.offWritePins ∧ up.Addressed ∧ up.dirMask = some 0x0003 ∧
      (0x0003 : Half).getLsbD up.cfg.txBit = true ∧ (0x0003 : Half).getLsbD up.cfg.rtsBit = true := by decide

/-- An empty buffer where read-pins is not reached, and a buffer of one byte, at both pages. -/
theorem witness_TransmitCompletesWithItsCount :
    let s : State := { up with cfg := { Cfg.excfg with accessibleRanges := [⟨0x12400040, 0x12400040⟩] } }
    s.Enabled ∧ s.Reaches s.cfg.offWritePins ∧ ¬ s.Reaches s.cfg.offReadPins ∧
      up.Enabled ∧ up.Reaches up.cfg.offWritePins ∧ up.Reaches up.cfg.offReadPins ∧ up.Addressed ∧
      away.Enabled ∧ away.Reaches away.cfg.offWritePins ∧ away.Reaches away.cfg.offReadPins ∧ ¬ away.Addressed := by
  decide

theorem witness_TransmitEmitsTheFramesItCounts :
    up.Addressed ∧ (∃ t, exec (.transmit [0x41]) up = .next t) ∧ up.dirMask = some 0x0003 ∧
      (0x0003 : Half).getLsbD up.cfg.txBit = true :=
  ⟨by decide, exists_next (by decide), by decide, by decide⟩

theorem witness_TransmitHoldsEveryElement :
    (¬ away.Addressed ∧ ∃ t, exec (.transmit [0x41]) away = .next t) ∧
    up.Addressed ∧ ∃ t, exec (.transmit [0x41]) up = .next t ∧ t.returns = up.returns ++ [.sent 1] := by
  obtain ⟨t, ht⟩ := exists_next (o := exec (.transmit [0x41]) up) (by decide)
  have h : (nextOf (exec (.transmit [0x41]) up)).map (·.returns) = some [.sent 1] := by decide
  rw [ht] at h
  have h' : t.returns = [.sent 1] := by simpa [nextOf] using h
  exact ⟨⟨by decide, exists_next (by decide)⟩, by decide, t, ht, h'.trans rfl⟩

/-- Closed at the first check of one byte (k = 0), and open for all of one byte (k = 1, the whole buffer). -/
theorem witness_TransmitStopsAtTheFirstClosedCheck :
    let s : State := { up with env := worldOf [0x0004] }
    s.Enabled ∧ s.Addressed ∧ s.Reaches s.cfg.offWritePins ∧ s.Reaches s.cfg.offReadPins ∧ s.dirMask = some 0x0003 ∧
      (0x0003 : Half).getLsbD s.cfg.ctsBit = false ∧
      (∃ d, s.env.bus[11 * 0]? = some d ∧ d.sample.getLsbD s.cfg.ctsBit = true) ∧
      (∀ j, j < 1 → ∃ d, up.env.bus[11 * j]? = some d ∧ d.sample.getLsbD up.cfg.ctsBit = false) := by
  refine ⟨by decide, by decide, by decide, by decide, by decide, by decide, ⟨seen 0x0004, rfl, by decide⟩, ?_⟩
  intro j hj
  obtain rfl : j = 0 := by omega
  exact ⟨seen 0, rfl, by decide⟩

theorem witness_LineInitDrivesTheHandshake :
    up.Enabled ∧ up.polling = false ∧ up.Addressed ∧ up.Reaches up.cfg.offSetDirections ∧
      up.Reaches up.cfg.offWritePins := by decide

theorem witness_LineInitAtAnotherPageMisses :
    away.Enabled ∧ away.polling = false ∧ ¬ away.Addressed ∧ away.Reaches away.cfg.offSetDirections ∧
      away.Reaches away.cfg.offWritePins := by decide

/-- A clock at the timeout exactly; one microsecond before it with CTS clear, and with CTS set. -/
theorem witness_LineInitPollsOnce :
    let at2000 : State := { waiting with env := { waiting.env with clock := [2000000] } }
    let before : State := { waiting with env := { waiting.env with clock := [1999999] } }
    let closed : State := { before with env := { worldOf [0x0004] with clock := [1999999] } }
    let after (s : State) : State := { s with now := s.now + s.clockAdvance, env := Env.afterClock s.env }
    waiting.Enabled ∧ waiting.initState = .polling 0 ∧ waiting.Reaches waiting.cfg.offReadPins ∧
      0 + at2000.cfg.hsTimeoutMs * 1000 ≤ (after at2000).now ∧
      (after before).now < 0 + before.cfg.hsTimeoutMs * 1000 ∧
      (pinWordOf before.cfg (after before).readPinsWord).getLsbD before.cfg.ctsBit = false ∧
      (after closed).now < 0 + closed.cfg.hsTimeoutMs * 1000 ∧
      (pinWordOf closed.cfg (after closed).readPinsWord).getLsbD closed.cfg.ctsBit = true := by decide

theorem witness_PollingEndsWhenTheClockGetsOn :
    let s : State := { waiting with env := { waiting.env with clock := [1999999, 1] } }
    s.Enabled ∧ s.initState = .polling 0 ∧ s.Reaches s.cfg.offReadPins ∧
      0 + s.cfg.hsTimeoutMs * 1000 ≤ s.now + s.env.clock.sum := by decide

/-- A run in which CTS is never clear and the clock reaches the timeout at the second reading: it ends, so `clock_progress`
(42_line_init.md R106) holds of it. -/
theorem witness_PollingEndsUnderClockProgress :
    let s : State := { waiting with env := { worldOf [0x0004] with clock := [1999999, 1] } }
    s.Enabled ∧ s.initState = .polling 0 ∧ s.Reaches s.cfg.offReadPins ∧ s.ClockProgress := by
  refine ⟨by decide, by decide, by decide, fun h => ?_⟩
  obtain ⟨t, ht, hw⟩ := h 2
  have ended : (nextOf (Sys2Proof.core.run 2 { waiting with env := { worldOf [0x0004] with clock := [1999999, 1] } })).map
      (fun t => decide t.Waits) = some true := by decide
  rw [ht] at ended
  exact absurd (of_decide_eq_true (Option.some.inj ended)) hw

theorem witness_ReadyPatternAssertsRtsAlone : Cfg.excfg.failing = none := by decide

theorem witness_DelayCompletes :
    let s : State := { up with cfg := { Cfg.excfg with bitJitterUs := some 0 } }
    s.Enabled ∧ s.cfg.bitJitterUs = some 0 := by decide

theorem witness_NowCompletes : up.Enabled := by decide

/-- No port is reached; write-pins alone is not reached; and a polling LINE_INIT before its timeout. -/
theorem witness_InaccessibleAddressFaults :
    let s : State := { up with cfg := { Cfg.excfg with accessibleRanges := [⟨0x12000000, 0x1240003F⟩] } }
    let p : State := { gone with initState := .polling 0 }
    gone.Enabled ∧ gone.polling = false ∧ gone.cfg.accessible (gone.regAddress 0) = false ∧
      ¬ gone.Reaches gone.cfg.offReadPins ∧ ¬ gone.Reaches gone.cfg.offWritePins ∧
      ¬ gone.Reaches gone.cfg.offSetDirections ∧ ¬ gone.Reaches gone.cfg.offSetBase ∧
      s.Enabled ∧ s.Reaches s.cfg.offReadPins ∧ s.Reaches s.cfg.offSetDirections ∧ ¬ s.Reaches s.cfg.offWritePins ∧
      p.Enabled ∧ p.initState = .polling 0 ∧ p.now + p.clockAdvance < 0 + p.cfg.hsTimeoutMs * 1000 := by decide

theorem witness_StopsOfOneAccessLeaveTheStateAlone :
    (∃ r t, perform (.setBase 0x12) gone = .fault r t) ∧ (∃ r t, perform (.writePins2 1 3) up = .refused r t) :=
  ⟨⟨_, _, rfl⟩, ⟨_, _, rfl⟩⟩

theorem witness_EmissionFaultsBeforeAnyPinChanges :
    (∃ r t, perform (.emitFrame 0) gone = .fault r t) ∧ (∃ r t, perform (.transmit [0]) gone = .fault r t) ∧
      (∃ r t, perform (.transmit []) gone = .fault r t) :=
  ⟨⟨_, _, rfl⟩, ⟨_, _, rfl⟩, ⟨_, _, rfl⟩⟩

/-- The example configuration with write-pins alone not accessible (program P6 of 95_test_vectors.md). -/
def noPins : State :=
  { up with cfg := { Cfg.excfg with accessibleRanges := [⟨0x12000000, 0x1240003F⟩, ⟨0x12400041, 0x12FFFFFF⟩] } }

theorem witness_LineInitFaultsKeepWhatItDid :
    gone.cfg.failing = none ∧ gone.polling = false ∧ ¬ gone.Reaches gone.cfg.offSetDirections ∧
      noPins.cfg.failing = none ∧ noPins.polling = false ∧ noPins.Reaches noPins.cfg.offSetDirections ∧
      ¬ noPins.Reaches noPins.cfg.offWritePins ∧
      (let s : State := { gone with initState := .polling 0 }
       s.initState = .polling 0 ∧ s.now + s.clockAdvance < 0 + s.cfg.hsTimeoutMs * 1000 ∧
         ¬ s.Reaches s.cfg.offReadPins) := by decide

/-- A LINE_INIT that faults at write-pins keeps the mask it has written (60_exceptions.md R110, 42_line_init.md R96). -/
theorem test_init_faults_at_write_pins :
    let t := (perform .lineInit { noPins with dirMask := none }).endState
    t.dirMask = some 0x0003 ∧ t.initState = .directionsSet ∧ t.outLatch = some 0x0003 ∧
      t.trace = [.access 0 .write 0x12400030 0x00030003] := by decide

theorem witness_StopsAreSetInTheState :
    (∃ r t, performStep { gone with host := [[0x69, 0x64, 0x6C, 0x65]] } = .fault r t) ∧
      (∃ r t, performStep { up with host := [[0x78]] } = .refused r t) ∧
      (up.Enabled ∧ up.polling = false ∧ decode [0x78] = .unmodelled [0x78]) ∧
      (let s : State := { up with cfg := { Cfg.excfg with bitPeriodUs := 0 } }
       s.fault = none ∧ s.refused = none ∧ s.cfg.failing = some .wfBitPeriod) :=
  ⟨⟨_, _, rfl⟩, ⟨_, _, rfl⟩, by decide, by decide⟩

theorem witness_ClockAndRecordOnlyGrow : ∃ t, step { up with host := [[0x72, 0x64, 0x70, 0x69, 0x6E, 0x73]] } = .next t :=
  exists_next (by decide)

theorem witness_ConfigurationNeverChanges : ∃ t, step { up with host := [[0x69, 0x64, 0x6C, 0x65]] } = .next t :=
  exists_next (by decide)

/-- The reset state of EXCFG with `idle` to run. -/
theorem witness_StepKeepsTheInvariant :
    let s : State := { State.resetWith Cfg.excfg 0 with host := [[0x69, 0x64, 0x6C, 0x65]] }
    s.Inv ∧ ∃ t, step s = .next t :=
  ⟨⟨rfl, List.Pairwise.nil, nofun, nofun, ⟨rfl, rfl⟩, .inl rfl, .inl rfl⟩, exists_next (by decide)⟩

theorem witness_FirstStepAfterResetRunsTheTableWord : decodeTableWord 32 0xFFFFFFFF = some (.regRead 0x00FFFFFF) := by decide

theorem witness_OnlySetBaseMovesTheContext :
    (∃ t, exec (.setBase 0xFF) up = .next t) ∧ (∃ t, exec .now up = .next t) :=
  ⟨exists_next (by decide), exists_next (by decide)⟩

theorem witness_OnlySetBaseMendsADivergence :
    away.ctxBasePage ≠ away.devBasePage ∧ (∃ t, exec (.setBase away.devBasePage) away = .next t) ∧
      (∃ t, exec .restoreIdle away = .next t) :=
  ⟨by decide, exists_next (by decide), exists_next (by decide)⟩

/-- An operation that changes the mask, one that changes the device's page, one that changes the latch. -/
theorem witness_PortRegistersHaveTheirWriters :
    (nextOf (exec (.setDirections 0) up)).map (·.dirMask) = some (some 0) ∧
      (nextOf (exec (.setBase 0xFF) up)).map (·.devBasePage) = some 0xFF ∧
      (nextOf (exec (.emitElement 0xFF) up)).map (·.outLatch) = some (some 0x00FF) := by decide

end Sys2Proof.Tests
end

section
/-! SUPPORT. Family `00_scope.md`: the configuration's checks read as R6's ten facts, and the two bridges from `exec` and
`step` to what an operation and a step perform. -/

namespace Sys2Proof

/-! ### The ten checks of 00_scope.md R6 -/

/-- Something holds of every check when it holds of each of the ten of R6. -/
theorem ConfigCheck.forall_iff (p : ConfigCheck → Prop) :
    (∀ c, p c) ↔ p .wfOffsetsDistinct ∧ p .wfPinsDistinct ∧ p .wfTxOutput ∧ p .wfCtsInput ∧ p .wfRtsOutput ∧
      p .wfIdleTxHigh ∧ p .wfIdleRtsDeasserted ∧ p .wfEncHighNibble ∧ p .wfEncOneBit ∧ p .wfBitPeriod := by
  constructor
  · intro h
    exact ⟨h _, h _, h _, h _, h _, h _, h _, h _, h _, h _⟩
  · rintro ⟨h1, h2, h3, h4, h5, h6, h7, h8, h9, h10⟩ c
    cases c <;> assumption

theorem ConfigCheck.passes_wfOffsetsDistinct_iff (cfg : Cfg) :
    ConfigCheck.wfOffsetsDistinct.passes cfg = true ↔
      cfg.offReadPins ≠ cfg.offSetBase ∧ cfg.offReadPins ≠ cfg.offSetDirections ∧ cfg.offReadPins ≠ cfg.offWritePins ∧
        cfg.offSetBase ≠ cfg.offSetDirections ∧ cfg.offSetBase ≠ cfg.offWritePins ∧
        cfg.offSetDirections ≠ cfg.offWritePins := by
  simp [ConfigCheck.passes, and_assoc]

theorem ConfigCheck.passes_wfPinsDistinct_iff (cfg : Cfg) :
    ConfigCheck.wfPinsDistinct.passes cfg = true ↔
      cfg.txBit.val ≠ cfg.rtsBit.val ∧ cfg.txBit.val ≠ cfg.ctsBit.val ∧ cfg.rtsBit.val ≠ cfg.ctsBit.val := by
  simp [ConfigCheck.passes, and_assoc]

theorem ConfigCheck.passes_wfCtsInput_iff (cfg : Cfg) :
    ConfigCheck.wfCtsInput.passes cfg = true ↔ cfg.dirMask.getLsbD cfg.ctsBit = false := by
  simp only [ConfigCheck.passes, Bool.not_eq_true']

/-- The high nibble of an element is its bits 4 to 7. -/
theorem ConfigCheck.passes_wfEncHighNibble_iff (cfg : Cfg) :
    ConfigCheck.wfEncHighNibble.passes cfg = true ↔
      ∀ k, 4 ≤ k → k < 8 → cfg.encOne.getLsbD k = cfg.encZero.getLsbD k := by
  rw [ConfigCheck.passes, beq_iff_eq, BitVec.eq_of_getLsbD_eq_iff]
  simp only [BitVec.getLsbD_extractLsb]
  constructor
  · intro h k hk hk8
    simpa [Nat.add_sub_of_le hk, show k - 4 < 4 by omega] using h (k - 4) (by omega)
  · intro h i hi
    rw [h (4 + i) (by omega) (by omega)]

/-- The bits at which two elements differ are those of their exclusive or. -/
theorem ConfigCheck.passes_wfEncOneBit_iff (cfg : Cfg) :
    ConfigCheck.wfEncOneBit.passes cfg = true ↔
      ∀ k, k < 8 → (cfg.encOne.getLsbD k ≠ cfg.encZero.getLsbD k ↔ k = cfg.txBit.val) := by
  rw [ConfigCheck.passes, beq_iff_eq, BitVec.eq_of_getLsbD_eq_iff]
  refine forall₂_congr fun k _ => ?_
  have htx : cfg.txBit.val < 8 := by omega
  rw [BitVec.getLsbD_xor, ← BitVec.twoPow_eq, BitVec.getLsbD_twoPow, ← Bool.coe_iff_coe, Bool.xor_iff_ne]
  simp only [htx, decide_true, Bool.true_and, decide_eq_true_eq, eq_comm (a := cfg.txBit.val)]

/-- Settles O9: a configuration is well-formed when every check passes, and each check is one of R6's facts. -/
theorem wellFormedMeansTheTenChecks : Obligations.WellFormedMeansTheTenChecks := by
  unfold Obligations.WellFormedMeansTheTenChecks
  intro cfg
  rw [cfg.failing_eq_none, ConfigCheck.forall_iff, ConfigCheck.passes_wfOffsetsDistinct_iff,
    ConfigCheck.passes_wfPinsDistinct_iff, ConfigCheck.passes_wfCtsInput_iff,
    ConfigCheck.passes_wfEncHighNibble_iff, ConfigCheck.passes_wfEncOneBit_iff]
  simp only [ConfigCheck.passes, decide_eq_true_eq]

end Sys2Proof

namespace Sys2Proof.Machine

/-! ### The bridges to what is performed (log 14) -/

/-- An operation's meaning once its command line is taken stands under the guard of the state before that. -/
theorem exec_issued_eq_guarded (i : Instr) (s : State) (rest : List (List Byte)) :
    exec i (s.issued rest) = s.guarded (perform i (s.issued rest)).outcome := by
  rw [exec_eq_conclude, State.conclude, State.guarded_congr (s := s) (t := s.issued rest) rfl rfl rfl]

/-- Settles O10: it is `exec_eq_conclude`, the outcome of an operation being the guard, then the operation. -/
theorem meaningIsGuardedPerformance : Obligations.MeaningIsGuardedPerformance := by
  unfold Obligations.MeaningIsGuardedPerformance
  exact exec_eq_conclude

/-- Settles O56: the guard before a step is the guard of its outcome, and under it each command line's answer is the
outcome of what it performs. -/
theorem stepIsTheOutcomeOfItsPerformance : Obligations.StepIsTheOutcomeOfItsPerformance := by
  unfold Obligations.StepIsTheOutcomeOfItsPerformance
  intro s
  rw [performStep, State.entered_outcome, step]
  cases s.initState with
  | polling t0 => exact exec_eq_conclude .lineInit s
  | _ =>
    rcases s.hostNext with _ | ⟨i | _ | name, rest⟩
    · rfl
    · exact exec_issued_eq_guarded i s rest
    · rfl
    · rfl

end Sys2Proof.Machine
end

section
/-! SUPPORT. Family `10_state.md`: what a step and an operation may change, from which follow the configuration that stays
(R30), the clock and the record that grow (R25, R27), the writers of each field (R16, R81) and the invariant. -/

namespace Sys2Proof.Machine

/-! ### A stopped machine (10_state.md R26) -/

theorem State.guarded_of_fault {s : State} {r : Fault} (hf : s.fault = some r) (k : Host.Outcome State Fault Refusal) :
    s.guarded k = .fault r := by
  simp only [State.guarded, hf]

theorem State.guarded_of_refused {s : State} {r : Refusal} (hf : s.fault = none) (hr : s.refused = some r)
    (k : Host.Outcome State Fault Refusal) : s.guarded k = .refused r := by
  simp only [State.guarded, hf, hr]

/-- Settles O7: a step and every operation stand under the guard, which answers the stop. -/
theorem stoppedMachineStaysStopped : Obligations.StoppedMachineStaysStopped := by
  unfold Obligations.StoppedMachineStaysStopped
  refine fun s => ⟨fun r hf => ⟨?_, fun i => ?_⟩, fun r hf hr => ⟨?_, fun i => ?_⟩⟩
  · rw [step_eq_guarded, State.guarded_of_fault hf]
  · rw [exec_eq_conclude, State.conclude, State.guarded_of_fault hf]
  · rw [step_eq_guarded, State.guarded_of_refused hf hr]
  · rw [exec_eq_conclude, State.conclude, State.guarded_of_refused hf hr]

/-! ### The lines (10_state.md R20) -/

/-- Settles O24: the cases of the output function, one by one. -/
theorem linesFollowTheMask : Obligations.LinesFollowTheMask := by
  unfold Obligations.LinesFollowTheMask
  refine fun s i => ⟨fun hm => ?_, fun m hm hi => ?_, fun m hm hi hl => ?_, fun m l hm hi hl => ?_⟩
  · simp only [State.line, hm]
  · simp only [State.line, hm, hi, Bool.false_eq_true, if_false]
  · simp only [State.line, hm, hi, hl, if_true]
  · simp only [State.line, hm, hi, hl, if_true]

/-! ### What a step and an operation end in -/

/-- A step that answers a next state took command lines from the host, or none, and then ran an operation or did nothing
more. -/
theorem step_eq_next {s t : State} (h : step s = .next t) :
    ∃ rest, t = s.issued rest ∨ ∃ i, exec i (s.issued rest) = .next t := by
  rw [step_eq_guarded] at h
  obtain ⟨-, -, -, h⟩ := State.guarded_eq_next h
  split at h
  · exact ⟨s.host, .inr ⟨.lineInit, h⟩⟩
  · split at h
    · exact ⟨s.host, .inl (Host.Outcome.next.inj h).symm⟩
    · exact ⟨_, .inr ⟨_, h⟩⟩
    · exact ⟨_, .inl (Host.Outcome.next.inj h).symm⟩
    · cases h

/-- Every operation, done or stopped, ends where a sequence of moves does, but for the context's page. -/
theorem perform_endState (i : Instr) (s : State) : ∃ m p, Moves s m ∧ (perform i s).endState = m.setCtxPage p := by
  by_cases hi : ∃ p, i = .setBase p
  · obtain ⟨p, rfl⟩ := hi
    obtain ⟨m, hm, he | he⟩ := performSetBase_moves p s
    · exact ⟨m, m.ctxBasePage, hm, he⟩
    · exact ⟨m, p, hm, congrArg Run.endState he⟩
  · exact ⟨_, _, perform_moves i s (not_exists.1 hi), rfl⟩

theorem perform_cfg (i : Instr) (s : State) : (perform i s).endState.cfg = s.cfg := by
  obtain ⟨m, p, hm, he⟩ := perform_endState i s
  exact he ▸ hm.fixed.1

theorem perform_returns (i : Instr) (s : State) : (perform i s).endState.returns = s.returns := by
  obtain ⟨m, p, hm, he⟩ := perform_endState i s
  exact he ▸ hm.fixed.2.2.2

theorem perform_grows (i : Instr) (s : State) :
    s.now ≤ (perform i s).endState.now ∧ s.trace <+: (perform i s).endState.trace := by
  obtain ⟨m, p, hm, he⟩ := perform_endState i s
  exact he ▸ hm.grows

/-- An operation that answers a next state answers its end state with its value returned, if it has one. -/
theorem exec_eq_next_endState {i : Instr} {s t : State} (h : exec i s = .next t) :
    ∃ vs, t = { (perform i s).endState with returns := s.returns ++ vs } := by
  obtain ⟨-, v, u, hu, rfl⟩ := exec_eq_next h
  exact ⟨v.toList, by rw [← perform_returns i s, hu, Run.endState_done]⟩

/-- Settles O48: no move changes the configuration, and taking a command line does not. -/
theorem configurationNeverChanges : Obligations.ConfigurationNeverChanges := by
  unfold Obligations.ConfigurationNeverChanges
  refine ⟨fun s t h => ?_, perform_cfg⟩
  obtain ⟨rest, rfl | ⟨i, h⟩⟩ := step_eq_next h
  · rfl
  · obtain ⟨vs, rfl⟩ := exec_eq_next_endState h
    exact perform_cfg i (s.issued rest)

/-- Settles O47: the clock and the record grow with every move, and an operation's end appends to the values returned. -/
theorem clockAndRecordOnlyGrow : Obligations.ClockAndRecordOnlyGrow := by
  unfold Obligations.ClockAndRecordOnlyGrow
  intro s t h
  obtain ⟨rest, rfl | ⟨i, h⟩⟩ := step_eq_next h
  · exact ⟨le_rfl, List.prefix_rfl, List.prefix_rfl⟩
  · obtain ⟨vs, rfl⟩ := exec_eq_next_endState h
    obtain ⟨hnow, htrace⟩ := perform_grows i (s.issued rest)
    exact ⟨hnow, htrace, List.prefix_append _ _⟩

/-- SET_BASE that is done leaves the context at its operand (40_port_ops.md R76). -/
theorem performSetBase_done_ctxBasePage {p : Byte} {s t : State} {v : Option Returned}
    (h : performSetBase p s = .done v t) : t.ctxBasePage = p := by
  obtain ⟨w, u, hset, hu⟩ := Run.bind_eq_done h
  cases hu
  obtain ⟨_, _, -, hu⟩ := Run.bind_eq_done hset
  cases hu
  rfl

/-- Settles O53: no move changes the context's page, and SET_BASE, the one operation that is more than moves, sets it. -/
theorem onlySetBaseMovesTheContext : Obligations.OnlySetBaseMovesTheContext := by
  unfold Obligations.OnlySetBaseMovesTheContext
  intro i s t h
  by_cases hi : ∃ p, i = .setBase p
  · obtain ⟨p, rfl⟩ := hi
    obtain ⟨-, v, u, hu, rfl⟩ := exec_eq_next h
    exact .inl ⟨p, rfl, performSetBase_done_ctxBasePage (t := u) hu⟩
  · obtain ⟨vs, rfl⟩ := exec_eq_next_endState h
    exact .inr ⟨not_exists.1 hi, (perform_moves i s (not_exists.1 hi)).fixed.2.1⟩

/-! ### The fields an operation writes (40_port_ops.md R81) -/

/-- The port registers and the sequencers, as fields an operation may write. -/
inductive StateField where
  | dirMask
  | devBasePage
  | outLatch
  | txPhase
  | initState
deriving DecidableEq

/-- From `s` to `t` nothing stopped, and of the port registers and the sequencers only those of `ws` may differ. -/
structure State.ChangesOnly (ws : List StateField) (s t : State) : Prop where
  fault       : t.fault = s.fault
  refused     : t.refused = s.refused
  dirMask     : .dirMask ∉ ws → t.dirMask = s.dirMask
  devBasePage : .devBasePage ∉ ws → t.devBasePage = s.devBasePage
  outLatch    : .outLatch ∉ ws → t.outLatch = s.outLatch
  txPhase     : .txPhase ∉ ws → t.txPhase = s.txPhase
  initState   : .initState ∉ ws → t.initState = s.initState

/-- Where it is done, a part of an operation that began at `s` has changed only `ws`. -/
def Run.ChangesOnly {α : Type} (ws : List StateField) (s : State) (x : Run α) : Prop :=
  ∀ a t, x = .done a t → s.ChangesOnly ws t

section
variable {ws : List StateField} {s t u : State} {α β : Type}

theorem State.ChangesOnly.refl : s.ChangesOnly ws s :=
  ⟨rfl, rfl, fun _ => rfl, fun _ => rfl, fun _ => rfl, fun _ => rfl, fun _ => rfl⟩

theorem State.ChangesOnly.trans (h : s.ChangesOnly ws t) (k : t.ChangesOnly ws u) : s.ChangesOnly ws u where
  fault         := k.fault.trans h.fault
  refused       := k.refused.trans h.refused
  dirMask n     := (k.dirMask n).trans (h.dirMask n)
  devBasePage n := (k.devBasePage n).trans (h.devBasePage n)
  outLatch n    := (k.outLatch n).trans (h.outLatch n)
  txPhase n     := (k.txPhase n).trans (h.txPhase n)
  initState n   := (k.initState n).trans (h.initState n)

theorem State.ChangesOnly.mono {ws' : List StateField} (hsub : ws ⊆ ws') (h : s.ChangesOnly ws t) : s.ChangesOnly ws' t where
  fault         := h.fault
  refused       := h.refused
  dirMask n     := h.dirMask (mt (@hsub _) n)
  devBasePage n := h.devBasePage (mt (@hsub _) n)
  outLatch n    := h.outLatch (mt (@hsub _) n)
  txPhase n     := h.txPhase (mt (@hsub _) n)
  initState n   := h.initState (mt (@hsub _) n)

/-- The fields that are no `StateField` may take any value. -/
theorem State.changesOnly_rest (s : State) (cfg : Cfg) (page : Byte) (frame : Option Frame) (now : Nat) (trace : List Event)
    (host : List (List Byte)) (returns : List Returned) (env : Env) :
    s.ChangesOnly ws { s with
      cfg := cfg, ctxBasePage := page, frame := frame, now := now, trace := trace, host := host, returns := returns,
      env := env } :=
  ⟨rfl, rfl, fun _ => rfl, fun _ => rfl, fun _ => rfl, fun _ => rfl, fun _ => rfl⟩

theorem State.changesOnly_setMask (h : .dirMask ∈ ws) (s : State) (m : Half) : s.ChangesOnly ws (s.setMask m) :=
  ⟨rfl, rfl, absurd h, fun _ => rfl, fun _ => rfl, fun _ => rfl, fun _ => rfl⟩

theorem State.changesOnly_setDevPage (h : .devBasePage ∈ ws) (s : State) (p : Byte) : s.ChangesOnly ws (s.setDevPage p) :=
  ⟨rfl, rfl, fun _ => rfl, absurd h, fun _ => rfl, fun _ => rfl, fun _ => rfl⟩

theorem State.changesOnly_latchPins (h : .outLatch ∈ ws) (s : State) (v : Half) : s.ChangesOnly ws (s.latchPins v) :=
  ⟨rfl, rfl, fun _ => rfl, fun _ => rfl, absurd h, fun _ => rfl, fun _ => rfl⟩

theorem State.changesOnly_inTx (h : .txPhase ∈ ws) (s : State) (p : TxPhase) : s.ChangesOnly ws (s.inTx p) :=
  ⟨rfl, rfl, fun _ => rfl, fun _ => rfl, fun _ => rfl, absurd h, fun _ => rfl⟩

theorem State.changesOnly_inInit (h : .initState ∈ ws) (s : State) (p : InitState) : s.ChangesOnly ws (s.inInit p) :=
  ⟨rfl, rfl, fun _ => rfl, fun _ => rfl, fun _ => rfl, fun _ => rfl, absurd h⟩

/-- The sequencer's mark before an element is a write of its position, inside TRANSMIT only (10_state.md R22). -/
theorem State.changesOnly_atElement {pos : Option (Nat × Nat)} (h : pos = none ∨ .txPhase ∈ ws) (s : State) (k : Nat) :
    s.ChangesOnly ws (s.atElement pos k) := by
  cases pos with
  | none => exact .refl
  | some p => exact s.changesOnly_inTx (h.resolve_left nofun) _

theorem State.changesOnly_atHold {pos : Option (Nat × Nat)} (h : pos = none ∨ .txPhase ∈ ws) (s : State) (k : Nat) :
    s.ChangesOnly ws (s.atHold pos k) := by
  cases pos with
  | none => exact .refl
  | some p => exact s.changesOnly_inTx (h.resolve_left nofun) _

theorem Run.ChangesOnly.done (h : s.ChangesOnly ws t) (a : α) : (Run.done a t).ChangesOnly ws s := by
  rintro _ _ ⟨⟩
  exact h

/-- A part run from a state reached so. -/
theorem Run.ChangesOnly.after {x : Run α} (h : s.ChangesOnly ws t) (hx : x.ChangesOnly ws t) : x.ChangesOnly ws s :=
  fun a u hu => h.trans (hx a u hu)

theorem Run.ChangesOnly.mono {ws' : List StateField} {x : Run α} (hsub : ws ⊆ ws') (hx : x.ChangesOnly ws s) :
    x.ChangesOnly ws' s :=
  fun a t h => (hx a t h).mono hsub

theorem Run.ChangesOnly.bind {x : Run α} {k : α → State → Run β} (hx : x.ChangesOnly ws s)
    (hk : ∀ a s', (k a s').ChangesOnly ws s') : (x.bind k).ChangesOnly ws s := by
  intro b t h
  obtain ⟨a, s', hs', h⟩ := Run.bind_eq_done h
  exact (hx a s' hs').trans (hk a s' b t h)

theorem Run.ChangesOnly.map {x : Run α} (hx : x.ChangesOnly ws s) (f : α → β) : (x.map f).ChangesOnly ws s :=
  hx.bind fun _ _ => .done .refl _

end

/-! ### The port registers a transaction writes -/

/-- The port register that what a transaction decodes to writes (30_encoding.md R66). -/
def BusOp.writes : BusOp → List StateField
  | .writePins | .writePins2 => [.outLatch]
  | .setDirections => [.dirMask]
  | .setBase => [.devBasePage]
  | .outside | .readPins | .undefinedPort => []

/-- A completed access changes no port register but the one of its decode. -/
theorem access_changesOnly (a : Word) (dir : Dir) (data : Word) (s : State) :
    (access a dir data s).ChangesOnly (busDecode s.cfg s.devBasePage a dir data).writes s := by
  intro w t h
  unfold access at h
  by_cases ha : s.cfg.accessible a = true
  · rw [if_pos ha] at h
    cases hd : busDecode s.cfg s.devBasePage a dir data <;> rw [hd] at h <;> dsimp only at h
    case outside => cases dir <;> cases h <;> exact State.changesOnly_rest ..
    case readPins => cases h; exact State.changesOnly_rest ..
    case writePins => cases h; exact (State.changesOnly_rest ..).trans (State.changesOnly_latchPins (.head _) ..)
    case writePins2 =>
      cases hm : mergedHalf s.cfg (highHalf data) (lowHalf data) <;> rw [hm] at h <;> cases h
      exact (State.changesOnly_rest ..).trans (State.changesOnly_latchPins (.head _) ..)
    case setDirections =>
      cases hm : mergedHalf s.cfg (highHalf data) (lowHalf data) <;> rw [hm] at h <;> cases h
      exact (State.changesOnly_rest ..).trans (State.changesOnly_setMask (.head _) ..)
    case setBase =>
      cases hm : mergedPage s.cfg (highHalf data) (lowHalf data) <;> rw [hm] at h <;> cases h
      exact (State.changesOnly_rest ..).trans (State.changesOnly_setDevPage (.head _) ..)
    case undefinedPort => cases h
  · rw [if_neg ha] at h
    cases h

/-- A read writes no port register. -/
theorem writes_busDecode_read (cfg : Cfg) (dev : Byte) (a data : Word) :
    (busDecode cfg dev a .read data).writes = [] := by
  have hdir := busDecode_dir cfg dev a .read data
  generalize busDecode cfg dev a .read data = op at hdir
  cases op with
  | outside | readPins | undefinedPort => rfl
  | writePins | writePins2 | setDirections | setBase => cases hdir

/-- A write to a port writes what it does at the device's page, or nothing (70_reset_and_hazards.md R131). -/
theorem writes_busDecode_port {s : State} {off : Half} {data : Word} {ws : List StateField}
    (h : s.ctxBasePage = s.devBasePage → (busDecode s.cfg s.devBasePage (s.portAddress off) .write data).writes ⊆ ws) :
    (busDecode s.cfg s.devBasePage (s.portAddress off) .write data).writes ⊆ ws := by
  by_cases hp : s.ctxBasePage = s.devBasePage
  · exact h hp
  · rw [busDecode_outside (by simpa using hp)]
    exact List.nil_subset _

theorem regRead_changesOnly (o : Word) (s : State) : (regRead o s).ChangesOnly [] s :=
  writes_busDecode_read s.cfg s.devBasePage (s.regAddress o) 0 ▸ access_changesOnly _ .read 0 s

theorem regWrite_changesOnly (o v : Word) (s : State) :
    (regWrite o v s).ChangesOnly [.dirMask, .devBasePage, .outLatch] s := by
  refine (access_changesOnly _ .write v s).mono ?_
  cases busDecode s.cfg s.devBasePage (s.regAddress o) .write v <;> simp [BusOp.writes]

theorem writePort16_writePins_changesOnly (hi lo : Half) (s : State) :
    (writePort16 s.cfg.offWritePins hi lo s).ChangesOnly [.outLatch] s := by
  refine (access_changesOnly _ .write _ s).mono (writes_busDecode_port fun hp => ?_)
  rw [busDecode_writePins hp]
  split <;> exact List.Subset.refl _

theorem setDirections_changesOnly {s : State} (hc : s.cfg.failing = none) (m : Half) :
    (setDirections m s).ChangesOnly [.dirMask] s := by
  refine (access_changesOnly _ .write _ s).mono (writes_busDecode_port fun hp => ?_)
  rw [busDecode_setDirections hc hp]
  exact List.Subset.refl _

theorem setBase_changesOnly {s : State} (hc : s.cfg.failing = none) (p : Byte) :
    (setBase p s).ChangesOnly [.devBasePage] s := by
  refine .bind ((access_changesOnly _ .write _ s).mono (writes_busDecode_port fun hp => ?_)) fun w s' =>
    .done (s'.changesOnly_rest ..) w
  rw [busDecode_setBase hc hp]
  exact List.Subset.refl _

/-! ### The operations of several parts -/

section
variable {ws : List StateField} (hl : .outLatch ∈ ws)
include hl

theorem writePins_changesOnly (d : Half) (s : State) : (writePins d s).ChangesOnly ws s :=
  (writePort16_writePins_changesOnly d d s).mono (by simpa using hl)

theorem emitElement_changesOnly (e : Byte) (s : State) : (emitElement e s).ChangesOnly ws s :=
  .bind (writePins_changesOnly hl _ s) fun _ s' => .done (s'.changesOnly_rest ..) ()

theorem emitElements_changesOnly {pos : Option (Nat × Nat)} (hpos : pos = none ∨ .txPhase ∈ ws) (es : List Byte) :
    ∀ (k : Nat) (s : State), (emitElements pos k es s).ChangesOnly ws s := by
  induction es with
  | nil => exact fun k s => .done .refl ()
  | cons e es ih =>
    intro k s
    refine .after (s.changesOnly_atElement hpos k) (.bind (writePins_changesOnly hl _ _) fun _ s' => ?_)
    exact .after ((s'.changesOnly_atHold hpos k).trans (State.changesOnly_rest ..)) (ih _ _)

theorem emitFrame_changesOnly {pos : Option (Nat × Nat)} (hpos : pos = none ∨ .txPhase ∈ ws) (b : Byte) (s : State) :
    (emitFrame pos b s).ChangesOnly ws s :=
  .after (s.changesOnly_rest ..)
    (.bind (emitElements_changesOnly hl hpos _ 0 _) fun _ s' => .done (s'.changesOnly_rest ..) ())

end

theorem ctsCheck_changesOnly (s : State) : (ctsCheck s).ChangesOnly [] s :=
  .bind (regRead_changesOnly _ s) fun _ _ => .done .refl _

theorem transmitLoop_changesOnly (bs : List Byte) :
    ∀ (j sent : Nat) (s : State), (transmitLoop bs j sent s).ChangesOnly [.outLatch, .txPhase] s := by
  induction bs with
  | nil => exact fun j sent s => .done .refl sent
  | cons b bs ih =>
    intro j sent s
    refine .after (s.changesOnly_inTx (by simp) (.txCheck j sent))
      (.bind ((ctsCheck_changesOnly _).mono (List.nil_subset _)) fun clear s1 => ?_)
    cases clear with
    | false => exact .done .refl sent
    | true => exact .bind (emitFrame_changesOnly (by simp) (.inr (by simp)) b s1) fun _ s2 => ih _ _ s2

theorem transmit_changesOnly (buf : List Byte) (s : State) :
    (transmit buf s).ChangesOnly [.outLatch, .txPhase] s :=
  .bind (transmitLoop_changesOnly buf 0 0 s) fun sent s1 =>
    .after (s1.changesOnly_inTx (by simp) (.txRestore sent))
      (.bind (writePins_changesOnly (by simp) _ _) fun _ s2 => .done (s2.changesOnly_inTx (by simp) _) sent)

theorem lineInitWrites_changesOnly (s : State) : (lineInitWrites s).ChangesOnly [.dirMask, .outLatch, .initState] s := by
  have inInit (s : State) (p : InitState) : s.ChangesOnly [.dirMask, .outLatch, .initState] (s.inInit p) :=
    s.changesOnly_inInit (by simp) p
  have pins (d : Half) (s : State) : (writePins d s).ChangesOnly [.dirMask, .outLatch, .initState] s :=
    writePins_changesOnly (by simp) d s
  refine .after (inInit s .directionsSet) (.bind (pins _ _) fun _ s1 => ?_)
  refine .after (inInit s1 .idleHigh) (.bind (pins _ _) fun _ s2 => ?_)
  refine .after (((inInit s2 .readyAsserted).trans (inInit _ .settling)).trans (State.changesOnly_rest ..))
    (.bind (pins _ _) fun _ s3 => ?_)
  exact .done (((inInit s3 .idleSettled).trans (State.changesOnly_rest ..)).trans (inInit _ _)) _

theorem lineInitStart_changesOnly {s : State} (hc : s.cfg.failing = none) :
    (lineInitStart s).ChangesOnly [.dirMask, .outLatch, .initState] s :=
  .bind ((setDirections_changesOnly hc _).mono (by simp)) fun _ s1 => lineInitWrites_changesOnly s1

theorem pollOnce_changesOnly (t0 : Nat) (s : State) : (pollOnce t0 s).ChangesOnly [.initState] s := by
  refine .after (t := s.clockRead) (s.changesOnly_rest ..) ?_
  unfold pollOnce
  dsimp only
  split
  · exact .done (State.changesOnly_inInit (by simp) _ _) _
  · refine .bind ((ctsCheck_changesOnly _).mono (List.nil_subset _)) fun clear s1 => ?_
    cases clear with
    | true => exact .done (s1.changesOnly_inInit (by simp) _) _
    | false => exact .done .refl _

theorem performLineInit_changesOnly {s : State} (hc : s.cfg.failing = none) :
    (performLineInit s).ChangesOnly [.dirMask, .outLatch, .initState] s := by
  unfold performLineInit
  split
  · exact ((pollOnce_changesOnly _ s).mono (by simp)).map _
  · exact (lineInitStart_changesOnly hc).map _

/-- The fields each operation may write: the writers that 40_port_ops.md R81 and the rules of 41 and 42 name. -/
def fieldsWritten : Instr → List StateField
  | .regWrite _ _ => [.dirMask, .devBasePage, .outLatch]
  | .writePins _ | .writePins2 _ _ | .emitElement _ | .emitFrame _ | .restoreIdle => [.outLatch]
  | .setDirections _ => [.dirMask]
  | .setBase _ => [.devBasePage]
  | .transmit _ => [.outLatch, .txPhase]
  | .lineInit => [.dirMask, .outLatch, .initState]
  | .regRead _ | .readPins | .encodeByte _ | .ctsCheck | .delay _ _ | .now => []

/-- An operation of a well-formed configuration that is done has changed only the fields it may write. -/
theorem perform_changesOnly (i : Instr) {s : State} (hc : s.cfg.failing = none) :
    (perform i s).ChangesOnly (fieldsWritten i) s := by
  cases i with
  | regRead o => exact (regRead_changesOnly o s).map _
  | regWrite o v => exact (regWrite_changesOnly o v s).map _
  | readPins => exact (regRead_changesOnly _ s).map _
  | writePins d => exact (writePins_changesOnly (.head _) d s).map _
  | writePins2 hi lo => exact (writePort16_writePins_changesOnly hi lo s).map _
  | setDirections m => exact (setDirections_changesOnly hc m).map _
  | setBase p => exact (setBase_changesOnly hc p).map _
  | encodeByte b => exact .done (s.changesOnly_rest ..) _
  | emitElement e => exact (emitElement_changesOnly (.head _) e s).map _
  | emitFrame b => exact (emitFrame_changesOnly (.head _) (.inl rfl) b s).map _
  | ctsCheck => exact (ctsCheck_changesOnly s).map _
  | restoreIdle => exact (writePins_changesOnly (.head _) _ s).map _
  | transmit buf => exact (transmit_changesOnly buf s).map _
  | lineInit => exact performLineInit_changesOnly hc
  | delay u n => exact .done (s.changesOnly_rest ..) _
  | now => exact .done (s.changesOnly_rest ..) _

theorem exec_changesOnly {i : Instr} {s t : State} (h : exec i s = .next t) : s.ChangesOnly (fieldsWritten i) t := by
  obtain ⟨⟨-, -, hc⟩, v, u, hu, rfl⟩ := exec_eq_next h
  exact (perform_changesOnly i hc v u hu).trans (u.changesOnly_rest ..)

theorem dirMask_mem_fieldsWritten {i : Instr} :
    .dirMask ∈ fieldsWritten i ↔ (∃ o v, i = .regWrite o v) ∨ (∃ m, i = .setDirections m) ∨ i = .lineInit := by
  cases i <;> simp [fieldsWritten]

theorem devBasePage_mem_fieldsWritten {i : Instr} :
    .devBasePage ∈ fieldsWritten i ↔ (∃ o v, i = .regWrite o v) ∨ (∃ p, i = .setBase p) := by
  cases i <;> simp [fieldsWritten]

theorem outLatch_mem_fieldsWritten {i : Instr} :
    .outLatch ∈ fieldsWritten i ↔ (∃ o v, i = .regWrite o v) ∨ (∃ d, i = .writePins d) ∨ (∃ h l, i = .writePins2 h l) ∨
      (∃ e, i = .emitElement e) ∨ (∃ b, i = .emitFrame b) ∨ i = .restoreIdle ∨ (∃ buf, i = .transmit buf) ∨
      i = .lineInit := by
  cases i <;> simp [fieldsWritten]

theorem txPhase_mem_fieldsWritten {i : Instr} : .txPhase ∈ fieldsWritten i ↔ ∃ buf, i = .transmit buf := by
  cases i <;> simp [fieldsWritten]

theorem initState_mem_fieldsWritten {i : Instr} : .initState ∈ fieldsWritten i ↔ i = .lineInit := by
  cases i <;> simp [fieldsWritten]

/-- Settles O55: an operation changes only the fields it may write, and those lists name each register's writers. -/
theorem portRegistersHaveTheirWriters : Obligations.PortRegistersHaveTheirWriters := by
  unfold Obligations.PortRegistersHaveTheirWriters
  intro i s t h
  have hw := exec_changesOnly h
  exact ⟨fun hne => dirMask_mem_fieldsWritten.1 (not_imp_comm.1 hw.dirMask hne),
    fun hne => devBasePage_mem_fieldsWritten.1 (not_imp_comm.1 hw.devBasePage hne),
    fun hne => outLatch_mem_fieldsWritten.1 (not_imp_comm.1 hw.outLatch hne)⟩

/-! ### The invariant -/

/-- Between two steps the line-initialisation sequencer rests, or polls from a time that has passed (10_state.md R24). -/
def State.InitRests (s : State) : Prop :=
  s.initState = .unconfigured ∨ s.initState = .ready ∨ s.initState = .timedOut ∨
    ∃ t0, s.initState = .polling t0 ∧ t0 ≤ s.now

/-- A sequencer that does not move rests as the clock gets on. -/
theorem State.InitRests.later {s t : State} (h : s.InitRests) (hi : t.initState = s.initState) (hn : s.now ≤ t.now) :
    t.InitRests := by
  unfold State.InitRests at h ⊢
  rw [hi]
  exact h.imp_right (.imp_right (.imp_right fun ⟨t0, h0, hle⟩ => ⟨t0, h0, hle.trans hn⟩))

/-- TRANSMIT that is done leaves its sequencer at `TxDone` (41_frame_encoder.md R91). -/
theorem performTransmit_done_txPhase {buf : List Byte} {s t : State} {v : Option Returned}
    (h : performTransmit buf s = .done v t) : ∃ n, t.txPhase = .txDone n := by
  obtain ⟨_, u, htx, hu⟩ := Run.bind_eq_done h
  cases hu
  obtain ⟨_, _, -, h⟩ := Run.bind_eq_done htx
  obtain ⟨_, _, -, h⟩ := Run.bind_eq_done h
  cases h
  exact ⟨_, rfl⟩

/-- LINE_INIT's start ends polling from the clock's reading (42_line_init.md R102). -/
theorem lineInitStart_done_initState {s t : State} {n : Nat} (h : lineInitStart s = .done n t) :
    t.initState = .polling t.now := by
  obtain ⟨_, _, -, h⟩ := Run.bind_eq_done h
  obtain ⟨_, _, -, h⟩ := Run.bind_eq_done h
  obtain ⟨_, _, -, h⟩ := Run.bind_eq_done h
  obtain ⟨_, _, -, h⟩ := Run.bind_eq_done h
  cases h
  rfl

/-- A poll that is done ends the polling or leaves the sequencer as it is (R102). -/
theorem pollOnce_done_initState {s t : State} {t0 : Nat} {r : Option Bool} (h : pollOnce t0 s = .done r t) :
    t.initState = .timedOut ∨ t.initState = .ready ∨ t.initState = s.initState := by
  unfold pollOnce at h
  dsimp only at h
  split at h
  · cases h
    exact .inl rfl
  · obtain ⟨clear, u, hu, h⟩ := Run.bind_eq_done h
    cases clear with
    | true => cases h; exact .inr (.inl rfl)
    | false => cases h; exact .inr (.inr ((ctsCheck_changesOnly _ _ _ hu).initState (by simp)))

/-- LINE_INIT, started or polling, leaves its sequencer at rest or polling from a time that has passed. -/
theorem performLineInit_done_initRests {s t : State} {v : Option Returned} (hs : s.InitRests)
    (h : performLineInit s = .done v t) : t.InitRests := by
  have hnow : s.now ≤ t.now := by
    have hm := (performLineInit_moves s).grows.1
    rwa [h] at hm
  unfold performLineInit at h
  split at h
  · obtain ⟨r, u, hpoll, hu⟩ := Run.bind_eq_done h
    cases hu
    obtain ht | ht | ht := pollOnce_done_initState hpoll
    · exact .inr (.inr (.inl ht))
    · exact .inr (.inl ht)
    · exact hs.later ht hnow
  · obtain ⟨n, u, hstart, hu⟩ := Run.bind_eq_done h
    cases hu
    exact .inr (.inr (.inr ⟨_, lineInitStart_done_initState hstart, le_rfl⟩))

/-- An operation keeps the transmitter at rest: TRANSMIT alone moves it, and ends it done. -/
theorem exec_txRests {i : Instr} {s t : State} (hs : s.txPhase = .txIdle ∨ ∃ n, s.txPhase = .txDone n)
    (h : exec i s = .next t) : t.txPhase = .txIdle ∨ ∃ n, t.txPhase = .txDone n := by
  by_cases hi : .txPhase ∈ fieldsWritten i
  · obtain ⟨buf, rfl⟩ := txPhase_mem_fieldsWritten.1 hi
    obtain ⟨-, v, u, hu, rfl⟩ := exec_eq_next h
    exact .inr (performTransmit_done_txPhase (t := u) hu)
  · rwa [(exec_changesOnly h).txPhase hi]

/-- An operation keeps the line-initialisation sequencer at rest, or polling: LINE_INIT alone moves it. -/
theorem exec_initRests {i : Instr} {s t : State} (hs : s.InitRests) (h : exec i s = .next t) : t.InitRests := by
  by_cases hi : .initState ∈ fieldsWritten i
  · obtain rfl := initState_mem_fieldsWritten.1 hi
    obtain ⟨-, v, u, hu, rfl⟩ := exec_eq_next h
    exact performLineInit_done_initRests (t := u) hs hu
  · refine hs.later ((exec_changesOnly h).initState hi) ?_
    obtain ⟨vs, rfl⟩ := exec_eq_next_endState h
    exact (perform_grows i s).1

theorem State.Inv.recorded {s : State} (hs : s.Inv) : s.Recorded := ⟨hs.latch, hs.ordered, hs.past, hs.issued⟩

/-- An operation keeps the record: the values returned and the context's page are no part of it. -/
theorem exec_recorded {i : Instr} {s t : State} (hs : s.Recorded) (h : exec i s = .next t) : t.Recorded := by
  obtain ⟨vs, rfl⟩ := exec_eq_next_endState h
  obtain ⟨m, p, hm, he⟩ := perform_endState i s
  obtain ⟨hlatch, hordered, hpast, hissued⟩ := hm.recorded hs
  rw [he]
  exact ⟨hlatch, hordered, hpast, hissued⟩

/-- An operation that answers a next state keeps the invariant. -/
theorem exec_inv {i : Instr} {s t : State} (hs : s.Inv) (h : exec i s = .next t) : t.Inv := by
  obtain ⟨hlatch, hordered, hpast, hissued⟩ := exec_recorded hs.recorded h
  have hw := exec_changesOnly h
  exact ⟨hlatch, hordered, hpast, hissued, ⟨hw.fault.trans hs.runs.1, hw.refused.trans hs.runs.2⟩,
    exec_txRests hs.txRests h, exec_initRests hs.initRests h⟩

/-- Taking a command line from the host keeps the invariant. -/
theorem State.Inv.taken {s : State} (hs : s.Inv) (rest : List (List Byte)) : (s.issued rest).Inv :=
  ⟨hs.latch, hs.ordered, hs.past, hs.issued, hs.runs, hs.txRests, hs.initRests⟩

/-- Settles O49: taking a command line keeps the invariant, and so does every operation. -/
theorem stepKeepsTheInvariant : Obligations.StepKeepsTheInvariant := by
  unfold Obligations.StepKeepsTheInvariant
  intro s t hs h
  obtain ⟨rest, rfl | ⟨i, h⟩⟩ := step_eq_next h
  · exact hs.taken rest
  · exact exec_inv (hs.taken rest) h

end Sys2Proof.Machine
end

section
/-! SUPPORT. Family `20_memory.md`: the address law (R35, R36), and what an operation's accesses add to the record (R27,
R38). -/

namespace Sys2Proof.Machine

/-! ### Addresses -/

/-- An address is its own page above its own low 24 bits. -/
theorem addressOf_pageOf (a : Word) : addressOf (pageOf a) a = a := by
  have h : pageOf a ++ a.extractLsb' 0 24 = a.extractLsb' 0 32 :=
    BitVec.extractLsb'_append_extractLsb'_eq_extractLsb' rfl
  rw [addressOf_eq, h, BitVec.extractLsb'_eq_self]

/-- Settles O12: the offset is `portReg`'s definition, the address the law's, and its three fields are
`State.portAddress_eq`. -/
theorem portAddressFields : Obligations.PortAddressFields := by
  unfold Obligations.PortAddressFields
  exact fun s off => ⟨rfl, rfl, s.portAddress_eq off⟩

/-! ### What is recorded after an earlier state -/

/-- What was recorded is what was appended. -/
theorem newEvents_eq_of_trace {s t : State} {es : List Event} (h : t.trace = s.trace ++ es) : newEvents s t = es := by
  rw [newEvents, h, List.drop_left]

theorem not_mem_newEvents {s t : State} (h : t.trace = s.trace) (e : Event) : e ∉ newEvents s t := by
  rw [newEvents_eq_of_trace (es := []) (by rw [h, List.append_nil])]
  exact List.not_mem_nil

theorem newEvents_complete (s : State) (a : Word) (dir : Dir) (d : Word) :
    newEvents s (s.complete a dir d) = [.access (s.now + s.busDraw.delta) dir a d] :=
  newEvents_eq_of_trace (s.complete_trace a dir d)

theorem newEvents_latchPins (s : State) (v : Half) : newEvents s (s.latchPins v) = [.pins s.now v] :=
  newEvents_eq_of_trace (s.latchPins_trace v)

/-- What is recorded in two parts is the first's, then the second's. -/
theorem newEvents_trans {s t u : State} (hst : s.trace <+: t.trace) (htu : t.trace <+: u.trace) :
    newEvents s u = newEvents s t ++ newEvents t u := by
  obtain ⟨es, hes⟩ := hst
  obtain ⟨fs, hfs⟩ := htu
  rw [newEvents_eq_of_trace hes.symm, newEvents_eq_of_trace hfs.symm]
  exact newEvents_eq_of_trace (by rw [← hfs, ← hes, List.append_assoc])

/-- A move records no access but that of a completed one, which is at the context's page. -/
theorem Move.newAccess_page {s t : State} (hm : Move s t) {time : Nat} {dir : Dir} {a d : Word}
    (he : Event.access time dir a d ∈ newEvents s t) : pageOf a = s.ctxBasePage := by
  cases hm with
  | complete a' dir' d' ha hp =>
    rw [newEvents_complete, List.mem_singleton] at he
    cases he
    exact hp
  | latchPins v hp =>
    rw [newEvents_latchPins, List.mem_singleton] at he
    cases he
  | _ => exact absurd he (not_mem_newEvents rfl _)

/-- Every access a sequence of moves records is at the page the context held at its start, which no move changes. -/
theorem Moves.newAccess_page {s t : State} (h : Moves s t) {time : Nat} {dir : Dir} {a d : Word}
    (he : Event.access time dir a d ∈ newEvents s t) : pageOf a = s.ctxBasePage := by
  induction h with
  | refl => exact absurd he (not_mem_newEvents rfl _)
  | @tail u v hsu huv ih =>
    rw [newEvents_trans (Moves.grows hsu).2 (Moves.grows (.single huv)).2, List.mem_append] at he
    obtain he | he := he
    · exact ih he
    · exact (huv.newAccess_page he).trans (Moves.fixed hsu).2.1

/-- Every access an operation records is at the page the context held when it began; SET_BASE's move of the context comes
after its access (40_port_ops.md R76). -/
theorem perform_newAccess_page {i : Instr} {s : State} {time : Nat} {dir : Dir} {a d : Word}
    (he : Event.access time dir a d ∈ newEvents s (perform i s).endState) : pageOf a = s.ctxBasePage := by
  obtain ⟨m, p, hm, hend⟩ := perform_endState i s
  rw [hend] at he
  exact Moves.newAccess_page (t := m) hm he

/-- Settles O11: an address holds the page above the offset's low 24 bits, and an access at the context's page is at the
address law's for its own low 24 bits. -/
theorem addressesAreThePageOverTheOffset : Obligations.AddressesAreThePageOverTheOffset := by
  unfold Obligations.AddressesAreThePageOverTheOffset
  refine ⟨fun p o => ⟨rfl, addressOf_eq p o, fun o' h => (addressOf_inj p o' o).2 h⟩, fun s o => rfl,
    fun i s t dir a d he => ⟨a, ?_⟩⟩
  rw [← perform_newAccess_page he, addressOf_pageOf]

/-! ### One access -/

/-- An access that is done recorded itself and no other access, at the clock it ends with: the effect on the port leaves
the clock and adds no access (40_port_ops.md R80, the spec's decision D41). -/
theorem access_done_record {a : Word} {dir : Dir} {data w : Word} {s t : State} :
    access a dir data s = .done w t → t.now = s.now + s.busDraw.delta ∧
      accessesOf (newEvents s t) = [.access t.now dir a (match dir with | .read => w | .write => data)] := by
  intro h
  obtain ⟨-, ht | ⟨rfl, -, ⟨v, rfl⟩ | ⟨m, rfl⟩ | ⟨p, rfl⟩⟩⟩ := access_done h
  · rw [ht, newEvents_complete]
    cases dir <;> exact ⟨rfl, rfl⟩
  · refine ⟨rfl, ?_⟩
    rw [newEvents_trans (t := s.complete a .write data) (List.prefix_append ..) (List.prefix_append ..),
      newEvents_complete, newEvents_latchPins]
    rfl
  · exact ⟨rfl, congrArg accessesOf (newEvents_complete s a .write data)⟩
  · exact ⟨rfl, congrArg accessesOf (newEvents_complete s a .write data)⟩

/-- Settles O14: the three results of an access, of which only the done one records anything. -/
theorem oneAccessIsCheckedAndIssuedOnce : Obligations.OneAccessIsCheckedAndIssuedOnce := by
  unfold Obligations.OneAccessIsCheckedAndIssuedOnce
  exact fun a dir data s => ⟨fun ha => access_inaccessible ha dir data,
    fun w t h => ⟨(access_done h).1, access_done_record h⟩, fun r t h => access_refused h⟩

end Sys2Proof.Machine
end

section
/-! SUPPORT. Family `30_encoding.md`: the command lines (R64), the decode of a bus transaction (R66), raw writes of unusual
data (R54, R62), and the elements of a frame (R56). -/

namespace Sys2Proof

/-! ### Command lines (30_encoding.md R64) -/

/-- Settles O1: each instruction's round trip is its own law. -/
theorem decodingAnEncodedOperationGivesItBack : Obligations.DecodingAnEncodedOperationGivesItBack := by
  unfold Obligations.DecodingAnEncodedOperationGivesItBack
  intro i
  cases i with
  | regRead o => exact Laws.RoundTrip.regRead o
  | regWrite o v => exact Laws.RoundTrip.regWrite o v
  | readPins => exact Laws.RoundTrip.readPins
  | writePins d => exact Laws.RoundTrip.writePins d
  | writePins2 hi lo => exact Laws.RoundTrip.writePins2 hi lo
  | setDirections m => exact Laws.RoundTrip.setDirections m
  | setBase p => exact Laws.RoundTrip.setBase p
  | encodeByte b => exact Laws.RoundTrip.encodeByte b
  | emitElement e => exact Laws.RoundTrip.emitElement e
  | emitFrame b => exact Laws.RoundTrip.emitFrame b
  | ctsCheck => exact Laws.RoundTrip.ctsCheck
  | restoreIdle => exact Laws.RoundTrip.restoreIdle
  | transmit buf => exact Laws.RoundTrip.transmit buf
  | lineInit => exact Laws.RoundTrip.lineInit
  | delay unit n => exact Laws.RoundTrip.delay unit n
  | now => exact Laws.RoundTrip.now

/-- Settles O2: the decoder evaluated on each line. -/
theorem sampleCommandLinesDecode : Obligations.SampleCommandLinesDecode := by
  unfold Obligations.SampleCommandLinesDecode
  exact ⟨by decide, by decide, by decide, by decide, by decide⟩

end Sys2Proof

namespace Sys2Proof.Machine

/-! ### The decode of a transaction (30_encoding.md R66) -/

theorem busDecode_of_not_inWindow {cfg : Cfg} {dev : Byte} {a : Word} (hw : inWindow cfg dev a = false) (dir : Dir)
    (data : Word) : busDecode cfg dev a dir data = .outside := by
  simp [busDecode, hw]

section
variable {cfg : Cfg} {dev : Byte} {a : Word} (hw : inWindow cfg dev a = true)
include hw

/-- A read in the window. -/
theorem busDecode_read_of_inWindow (data : Word) :
    busDecode cfg dev a .read data = if offsetOf a = cfg.offReadPins then .readPins else .undefinedPort := by
  simp [busDecode, hw]

/-- A write in the window: the ports in the order of R55's map. -/
theorem busDecode_write_of_inWindow (data : Word) :
    busDecode cfg dev a .write data =
      if offsetOf a = cfg.offWritePins then if highHalf data = lowHalf data then .writePins else .writePins2
      else if offsetOf a = cfg.offSetDirections then .setDirections
      else if offsetOf a = cfg.offSetBase then .setBase
      else .undefinedPort := by
  simp [busDecode, hw]

/-- A write at set-directions is no write at write-pins, the offsets being distinct (00_scope.md R6). -/
theorem busDecode_write_offSetDirections (hc : cfg.failing = none) (ho : offsetOf a = cfg.offSetDirections) (data : Word) :
    busDecode cfg dev a .write data = .setDirections := by
  obtain ⟨-, -, -, -, -, hdw⟩ := Cfg.offsets_distinct hc
  rw [busDecode_write_of_inWindow hw, ho, if_neg hdw, if_pos rfl]

/-- A write at set-base is at no other write port. -/
theorem busDecode_write_offSetBase (hc : cfg.failing = none) (ho : offsetOf a = cfg.offSetBase) (data : Word) :
    busDecode cfg dev a .write data = .setBase := by
  obtain ⟨-, -, -, hbd, hbw, -⟩ := Cfg.offsets_distinct hc
  rw [busDecode_write_of_inWindow hw, ho, if_neg hbw, if_neg hbd, if_pos rfl]

/-- A write at no write port's offset is refused (R61). -/
theorem busDecode_write_of_no_port (how : offsetOf a ≠ cfg.offWritePins) (hod : offsetOf a ≠ cfg.offSetDirections)
    (hob : offsetOf a ≠ cfg.offSetBase) (data : Word) : busDecode cfg dev a .write data = .undefinedPort := by
  rw [busDecode_write_of_inWindow hw, if_neg how, if_neg hod, if_neg hob]

end

/-- Settles O13: the two directions' decodes in the window, each clause being one of their branches. -/
theorem busTransactionsDecodeByThePortMap : Obligations.BusTransactionsDecodeByThePortMap := by
  unfold Obligations.BusTransactionsDecodeByThePortMap
  intro cfg dev a dir data hc inside off op
  have hin : inWindow cfg dev a = true ↔ inside := inWindow_iff cfg dev a
  refine ⟨fun h => ?_, fun h hd ho => ?_, fun h hd ho => ?_, fun h hd ho => ?_, fun h hd ho => ?_, fun h hd ho => ?_,
    fun h hd how hod hob => ?_⟩
  · exact busDecode_of_not_inWindow (Bool.eq_false_iff.2 (mt hin.1 h)) dir data
  all_goals subst hd
  · exact (busDecode_read_of_inWindow (hin.2 h) data).trans (if_pos ho)
  · exact (busDecode_write_of_inWindow (hin.2 h) data).trans (if_pos ho)
  · exact busDecode_write_offSetDirections (hin.2 h) hc ho data
  · exact busDecode_write_offSetBase (hin.2 h) hc ho data
  · exact (busDecode_read_of_inWindow (hin.2 h) data).trans (if_neg ho)
  · exact busDecode_write_of_no_port (hin.2 h) how hod hob data

/-! ### The data checks (30_encoding.md R54, R62) -/

theorem mergedHalf_of_ne {hi lo : Half} (h : hi ≠ lo) (cfg : Cfg) : mergedHalf cfg hi lo = cfg.pairedWrite.result hi lo :=
  if_neg h

/-- A half with a zero high byte is its low byte zero-extended. -/
theorem zext_low_of_high_zero {d : Half} (h : d.extractLsb' 8 8 = 0#8) : (d.extractLsb' 0 8).setWidth 16 = d := by
  have hd : d.extractLsb' 8 8 ++ d.extractLsb' 0 8 = d.extractLsb' 0 16 :=
    BitVec.extractLsb'_append_extractLsb'_eq_extractLsb' rfl
  rw [h, BitVec.extractLsb'_eq_self] at hd
  rwa [BitVec.setWidth_eq_append (by decide)]

/-- A data word is a page in both halves exactly when its halves are equal and their high byte is zero (R54). -/
theorem exists_eq_baseWord_iff (v : Word) :
    (∃ p : Byte, v = baseWord p) ↔ highHalf v = lowHalf v ∧ (highHalf v).extractLsb' 8 8 = 0 := by
  constructor
  · rintro ⟨p, rfl⟩
    rw [baseWord, sameWord, highHalf_pairWord, lowHalf_pairWord]
    exact ⟨rfl, zext_high_byte p⟩
  · rintro ⟨he, hz⟩
    rw [he] at hz
    refine ⟨(lowHalf v).extractLsb' 0 8, ?_⟩
    calc v = pairWord (highHalf v) (lowHalf v) := (pairWord_halves v).symm
      _ = sameWord (lowHalf v) := by rw [he, sameWord]
      _ = baseWord ((lowHalf v).extractLsb' 0 8) := by rw [baseWord, zext_low_of_high_zero hz]

/-- Data that is no page goes to the merge function, of whose half the page is the low byte (log 17). -/
theorem mergedPage_of_ne_baseWord {v : Word} (h : ∀ p : Byte, v ≠ baseWord p) (cfg : Cfg) :
    mergedPage cfg (highHalf v) (lowHalf v) =
      (cfg.pairedWrite.result (highHalf v) (lowHalf v)).map fun m => m.extractLsb' 0 8 :=
  if_neg fun hv => not_exists.2 h ((exists_eq_baseWord_iff v).2 hv)

/-! ### Accesses at set-directions and set-base -/

section
variable {a data : Word} {s : State} (ha : s.cfg.accessible a = true)
include ha

theorem access_setDirections_of_merged (hd : busDecode s.cfg s.devBasePage a .write data = .setDirections) {m : Half}
    (hm : mergedHalf s.cfg (highHalf data) (lowHalf data) = some m) :
    access a .write data s = .done 0 ((s.complete a .write data).setMask m) := by
  simp [access, ha, hd, hm]

theorem access_setDirections_of_unmerged (hd : busDecode s.cfg s.devBasePage a .write data = .setDirections)
    (hm : mergedHalf s.cfg (highHalf data) (lowHalf data) = none) :
    access a .write data s =
      s.refuse (.unequalHalves s.cfg.offSetDirections (highHalf data) (lowHalf data)) := by
  simp [access, ha, hd, hm]

theorem access_setBase_of_merged (hd : busDecode s.cfg s.devBasePage a .write data = .setBase) {p : Byte}
    (hm : mergedPage s.cfg (highHalf data) (lowHalf data) = some p) :
    access a .write data s = .done 0 ((s.complete a .write data).setDevPage p) := by
  simp [access, ha, hd, hm]

theorem access_setBase_of_unmerged (hd : busDecode s.cfg s.devBasePage a .write data = .setBase)
    (hm : mergedPage s.cfg (highHalf data) (lowHalf data) = none) :
    access a .write data s = s.refuse (.badBaseData data) := by
  simp [access, ha, hd, hm]

end

/-! ### Raw writes -/

theorem perform_regWrite (o v : Word) (s : State) :
    perform (.regWrite o v) s = (access (s.regAddress o) .write v s).map fun _ => some .nothing := rfl

/-- REG_WRITE whose access is done returns nothing from the access's state (40_port_ops.md R69). -/
theorem exec_regWrite_of_done {o v w : Word} {s t : State} (he : s.Enabled)
    (h : access (s.regAddress o) .write v s = .done w t) :
    exec (.regWrite o v) s = .next { t with returns := t.returns ++ [.nothing] } :=
  exec_of_done he (by rw [perform_regWrite, h, Run.map_done])

/-- REG_WRITE whose access is refused is refused (40_port_ops.md R69). -/
theorem exec_regWrite_of_refused {o v : Word} {s : State} {r : Refusal} (he : s.Enabled)
    (h : access (s.regAddress o) .write v s = s.refuse r) : exec (.regWrite o v) s = .refused r :=
  exec_of_refused he (by rw [perform_regWrite, h, State.refuse, Run.map_refused])

/-- Settles O17: unequal halves, and data that is no page, leave the port's value to the merge function; `refuse` has no
result. -/
theorem rawWritesWithUnusualData : Obligations.RawWritesWithUnusualData := by
  unfold Obligations.RawWritesWithUnusualData
  intro o v s he ha hw a t
  refine ⟨fun ho hne => ?_, fun ho hp => ?_⟩
  · have hd := busDecode_write_offSetDirections hw he.2.2 ho v
    have hm := mergedHalf_of_ne hne s.cfg
    constructor
    · intro hr
      rw [hr] at hm
      exact exec_regWrite_of_refused he (access_setDirections_of_unmerged ha hd hm)
    · intro m hres
      exact exec_regWrite_of_done he (access_setDirections_of_merged ha hd (hm.trans hres))
  · have hd := busDecode_write_offSetBase hw he.2.2 ho v
    have hm := mergedPage_of_ne_baseWord hp s.cfg
    constructor
    · intro hr
      rw [hr] at hm
      exact exec_regWrite_of_refused he (access_setBase_of_unmerged ha hd hm)
    · intro m hres
      rw [hres] at hm
      exact exec_regWrite_of_done he (access_setBase_of_merged ha hd hm)

/-! ### The frame (30_encoding.md R56) -/

/-- A frame's elements in emission order are R56's table. -/
theorem frameOf_elements (cfg : Cfg) (b : Byte) : (frameOf cfg b).elements = frameTable cfg b := rfl

theorem length_frameTable (cfg : Cfg) (b : Byte) : (frameTable cfg b).length = 10 := rfl

/-- The elements 1 to 8 are the data bits', the least significant first. -/
theorem frameTable_getElem?_bit (cfg : Cfg) (b : Byte) {i : Nat} (hi : i < 8) :
    (frameTable cfg b)[i + 1]? = some (if b.getLsbD i then cfg.encOne else cfg.encZero) := by
  rw [frameTable, List.cons_append, List.getElem?_cons_succ, List.getElem?_append_left (by simpa using hi),
    List.getElem?_map, List.getElem?_range hi, Option.map_some]

/-- Settles O25: the frame is R56's table, read at its first element, its data bits and its last. -/
theorem frameHasTheTableElements : Obligations.FrameHasTheTableElements := by
  unfold Obligations.FrameHasTheTableElements
  intro cfg b
  rw [frameOf_elements]
  exact ⟨length_frameTable cfg b, rfl, fun i hi => frameTable_getElem?_bit cfg b hi, rfl⟩

end Sys2Proof.Machine
end

section
/-! SUPPORT. Family `40_port_ops.md`: the pin word (R71, R77), and the exact next state of each register and port operation
(R68 to R76). -/

namespace Sys2Proof.Machine

/-! ### The pin word (40_port_ops.md R71, R77) -/

/-- Before SET_DIRECTIONS every pin reads as a draw. -/
theorem State.pinWord_of_noMask {s : State} (hm : s.dirMask = none) (d : BusDraw) : s.pinWord d = d.floating := by
  simp only [State.pinWord, hm]

/-- Under a mask each pin reads as its direction says. -/
theorem State.getLsbD_pinWord {s : State} {m : Half} (hm : s.dirMask = some m) (d : BusDraw) (i : Fin 16) :
    (s.pinWord d).getLsbD i = if m.getLsbD i then (s.outputBits d).getLsbD i else d.sample.getLsbD i := by
  simp only [State.pinWord, hm, BitVec.getLsbD_or, BitVec.getLsbD_and, BitVec.getLsbD_not, i.isLt, decide_true,
    Bool.true_and]
  cases m.getLsbD i <;> simp

theorem State.outputBits_of_draw {s : State} (hr : s.cfg.outputReadback = .draw) (d : BusDraw) :
    s.outputBits d = d.floating := by
  simp only [State.outputBits, hr]

theorem State.outputBits_of_noLatch {s : State} (hl : s.outLatch = none) (d : BusDraw) : s.outputBits d = d.floating := by
  unfold State.outputBits
  cases s.cfg.outputReadback <;> simp only [hl]

theorem State.outputBits_of_latch {s : State} {l : Half} (hr : s.cfg.outputReadback = .latch) (hl : s.outLatch = some l)
    (d : BusDraw) : s.outputBits d = l := by
  simp only [State.outputBits, hr, hl]

/-- Settles O19: a bit of the pin word is chosen by its mask bit, and an output pin's by the configuration and the latch. -/
theorem pinWordBits : Obligations.PinWordBits := by
  unfold Obligations.PinWordBits
  refine fun s d i => ⟨fun hm => ?_, fun m hm hi => ?_, fun m hm hi => ?_⟩
  · rw [State.pinWord_of_noMask hm]
  · rw [State.getLsbD_pinWord hm, hi, if_neg Bool.false_ne_true]
  · rw [State.getLsbD_pinWord hm, hi, if_pos rfl]
    refine ⟨fun hr => ?_, fun _ hl => ?_, fun l hr hl => ?_⟩
    · rw [State.outputBits_of_draw hr]
    · rw [State.outputBits_of_noLatch hl]
    · rw [State.outputBits_of_latch hr hl]

/-! ### From an operation's access to what it answers -/

theorem perform_regRead (o : Word) (s : State) :
    perform (.regRead o) s = (access (s.regAddress o) .read 0 s).map fun w => some (.word w) := rfl

theorem perform_readPins (s : State) : perform .readPins s = (readPins s).map fun w => some (.word w) := rfl

theorem perform_writePins (d : Half) (s : State) :
    perform (.writePins d) s = (writePins d s).map fun _ => some .nothing := rfl

theorem perform_writePins2 (hi lo : Half) (s : State) :
    perform (.writePins2 hi lo) s = (writePort16 s.cfg.offWritePins hi lo s).map fun _ => some .nothing := rfl

theorem perform_setDirections (m : Half) (s : State) :
    perform (.setDirections m) s = (setDirections m s).map fun _ => some .nothing := rfl

theorem perform_setBase (p : Byte) (s : State) :
    perform (.setBase p) s = (setBase p s).map fun _ => some .nothing := rfl

/-- An operation that returns a value of its access answers the access's end state with that value returned. -/
theorem exec_of_map_done {i : Instr} {s t : State} {x : Run Word} {v : Word → Returned} {w : Word} (he : s.Enabled)
    (hi : perform i s = x.map fun w => some (v w)) (hx : x = .done w t) :
    exec i s = .next { t with returns := t.returns ++ [v w] } :=
  exec_of_done he (by rw [hi, hx, Run.map_done])

/-- An operation whose access is refused is refused. -/
theorem exec_of_map_refused {i : Instr} {s : State} {r : Refusal} {x : Run Word} {v : Word → Option Returned}
    (he : s.Enabled) (hi : perform i s = x.map v) (hx : x = s.refuse r) : exec i s = .refused r :=
  exec_of_refused he (by rw [hi, hx, State.refuse, Run.map_refused])

/-- A completed write to write-pins: the access and then the `Pins` event at its time (10_state.md R27; log 19). -/
theorem State.complete_latchPins (s : State) (a data : Word) (v : Half) :
    (s.complete a .write data).latchPins v = { s with
      outLatch := some v
      now := s.now + s.busDraw.delta
      env := Env.afterBus s.env
      trace := s.trace ++ [.access (s.now + s.busDraw.delta) .write a data, .pins (s.now + s.busDraw.delta) v] } := by
  simp [State.latchPins, State.complete]

/-! ### READ_PINS (40_port_ops.md R71) -/

theorem readWord_of_low {cfg : Cfg} (h : cfg.readLane = .low) (pins other : Half) :
    readWord cfg pins other = pairWord other pins := by
  simp only [readWord, h]

theorem readWord_of_high {cfg : Cfg} (h : cfg.readLane = .high) (pins other : Half) :
    readWord cfg pins other = pairWord pins other := by
  simp only [readWord, h]

theorem State.readPinsWord_of_addressed {s : State} (hp : s.Addressed) :
    s.readPinsWord = readWord s.cfg (s.pinWord s.busDraw) s.busDraw.otherHalf := if_pos hp

theorem State.readPinsWord_of_not_addressed {s : State} (hp : ¬ s.Addressed) : s.readPinsWord = s.busDraw.outside :=
  if_neg hp

/-- Settles O18: the word is `State.readPinsWord`, whose halves the lane names. -/
theorem readPinsCompletes : Obligations.ReadPinsCompletes := by
  unfold Obligations.ReadPinsCompletes
  refine fun s he ha => ⟨s.readPinsWord, exec_of_map_done he (perform_readPins s) (readPins_done ha), fun hp hl => ?_, fun hp hl => ?_,
    State.readPinsWord_of_not_addressed⟩
  · rw [State.readPinsWord_of_addressed hp, readWord_of_low hl]
    exact ⟨lowHalf_pairWord .., highHalf_pairWord ..⟩
  · rw [State.readPinsWord_of_addressed hp, readWord_of_high hl]
    exact ⟨highHalf_pairWord .., lowHalf_pairWord ..⟩

/-! ### WRITE_PINS and WRITE_PINS2 (40_port_ops.md R72, R73) -/

/-- Settles O20: WRITE_PINS hits the device at its page and misses it elsewhere. -/
theorem writePinsCompletes : Obligations.WritePinsCompletes := by
  unfold Obligations.WritePinsCompletes
  refine fun d s he ha => ⟨fun hp => ?_, fun hp => ?_⟩
  · have hw := writePins_hit ha hp d
    rw [State.complete_latchPins] at hw
    exact exec_of_map_done he (perform_writePins d s) hw
  · exact exec_of_map_done he (perform_writePins d s) (writePins_miss ha hp d)

/-- The access of a write of two halves to a port. -/
theorem writePort16_eq (off hi lo : Half) (s : State) :
    writePort16 off hi lo s = access (s.portAddress off) .write (pairWord hi lo) s := rfl

/-- A port write at another page misses the device (70_reset_and_hazards.md R131). -/
theorem writePort16_miss {s : State} {off : Half} (ha : s.Reaches off) (hp : ¬ s.Addressed) (hi lo : Half) :
    writePort16 off hi lo s = .done 0 (s.complete (s.portAddress off) .write (pairWord hi lo)) :=
  access_write_outside ha (busDecode_outside (by simpa using hp) _ _)

section
variable {s : State} {hi lo : Half} (ha : s.Reaches s.cfg.offWritePins) (hp : s.Addressed) (hne : hi ≠ lo)
include ha hp hne

/-- Unequal halves at write-pins leave the latch to the merge function (30_encoding.md R62). -/
theorem writePort16_writePins_of_merged {v : Half} (hm : s.cfg.pairedWrite.result hi lo = some v) :
    writePort16 s.cfg.offWritePins hi lo s =
      .done 0 ((s.complete (s.portAddress s.cfg.offWritePins) .write (pairWord hi lo)).latchPins v) := by
  rw [writePort16_eq, access, if_pos ha, busDecode_writePins hp, highHalf_pairWord, lowHalf_pairWord, if_neg hne]
  simp only [mergedHalf_of_ne hne, hm]

/-- Unequal halves at write-pins are refused without one. -/
theorem writePort16_writePins_of_unmerged (hm : s.cfg.pairedWrite.result hi lo = none) :
    writePort16 s.cfg.offWritePins hi lo s = s.refuse (.unequalHalves s.cfg.offWritePins hi lo) := by
  rw [writePort16_eq, access, if_pos ha, busDecode_writePins hp, highHalf_pairWord, lowHalf_pairWord, if_neg hne]
  simp only [mergedHalf_of_ne hne, hm]

end

/-- Settles O21: equal halves are WRITE_PINS's own write; unequal ones are left to the merge function, of which `refuse` has
no result. -/
theorem writePins2Completes : Obligations.WritePins2Completes := by
  unfold Obligations.WritePins2Completes
  refine fun hi lo s he ha => ⟨fun h => ?_, fun hne hp hr => ?_, fun v hne hp hm => ?_, fun hp => ?_⟩
  · subst h
    exact exec_congr rfl
  · have hm : s.cfg.pairedWrite.result hi lo = none := by rw [hr]; rfl
    exact exec_of_map_refused he (perform_writePins2 hi lo s) (writePort16_writePins_of_unmerged ha hp hne hm)
  · have hw := writePort16_writePins_of_merged ha hp hne hm
    rw [State.complete_latchPins] at hw
    exact exec_of_map_done he (perform_writePins2 hi lo s) hw
  · exact exec_of_map_done he (perform_writePins2 hi lo s) (writePort16_miss ha hp hi lo)

/-! ### SET_DIRECTIONS and SET_BASE (40_port_ops.md R75, R76) -/

/-- Settles O22: SET_DIRECTIONS hits the device at its page and misses it elsewhere. -/
theorem setDirectionsCompletes : Obligations.SetDirectionsCompletes := by
  unfold Obligations.SetDirectionsCompletes
  refine fun m s he ha => ⟨fun hp => ?_, fun hp => ?_⟩
  · exact exec_of_map_done he (perform_setDirections m s) (setDirections_hit he.2.2 ha hp m)
  · exact exec_of_map_done he (perform_setDirections m s) (setDirections_miss ha hp m)

/-- The device's page of a page in both halves is that page, on every board (30_encoding.md R54; log 17). -/
theorem mergedPage_baseWord (cfg : Cfg) (p : Byte) :
    mergedPage cfg (highHalf (baseWord p)) (lowHalf (baseWord p)) = some p := by
  rw [mergedPage, if_pos ((exists_eq_baseWord_iff _).1 ⟨p, rfl⟩), baseWord, sameWord, lowHalf_pairWord, zext_low_byte]

/-- SET_BASE at the device's page writes there and then moves both copies. -/
theorem setBase_hit {s : State} (hc : s.cfg.failing = none) (ha : s.Reaches s.cfg.offSetBase) (hp : s.Addressed)
    (p : Byte) :
    setBase p s =
      .done 0 (((s.complete (s.portAddress s.cfg.offSetBase) .write (baseWord p)).setDevPage p).setCtxPage p) :=
  congrArg (Run.bind · fun w t => .done w (t.setCtxPage p))
    (access_setBase_of_merged ha (busDecode_setBase hc hp _) (mergedPage_baseWord s.cfg p))

/-- SET_BASE at another page misses the device and moves the context's copy alone (70_reset_and_hazards.md R131). -/
theorem setBase_miss {s : State} (ha : s.Reaches s.cfg.offSetBase) (hp : ¬ s.Addressed) (p : Byte) :
    setBase p s = .done 0 ((s.complete (s.portAddress s.cfg.offSetBase) .write (baseWord p)).setCtxPage p) :=
  congrArg (Run.bind · fun w t => .done w (t.setCtxPage p)) (writePort16_miss ha hp _ _)

/-- Settles O23: the write is at the page the context holds before it, and the context follows. -/
theorem setBaseCompletes : Obligations.SetBaseCompletes := by
  unfold Obligations.SetBaseCompletes
  refine fun p s he ha => ⟨fun hp => ?_, fun hp => ?_⟩
  · exact exec_of_map_done he (perform_setBase p s) (setBase_hit he.2.2 ha hp p)
  · exact exec_of_map_done he (perform_setBase p s) (setBase_miss ha hp p)

/-! ### REG_READ and REG_WRITE (40_port_ops.md R65, R68, R69) -/

/-- An address is its three fields (30_encoding.md R51). -/
theorem fields_append (a : Word) : pageOf a ++ (windowOf a ++ offsetOf a) = a := by
  have hlow : windowOf a ++ offsetOf a = a.extractLsb' 0 24 :=
    BitVec.extractLsb'_append_extractLsb'_eq_extractLsb' rfl
  rw [hlow, ← addressOf_eq, addressOf_pageOf]

/-- In the device's window the address of a raw access is that of the port at its offset (R65). -/
theorem State.regAddress_eq_portAddress {s : State} {o : Word} {off : Half}
    (hw : inWindow s.cfg s.devBasePage (s.regAddress o) = true) (ho : offsetOf (s.regAddress o) = off) :
    s.regAddress o = s.portAddress off := by
  obtain ⟨-, hwin⟩ := (inWindow_iff ..).1 hw
  rw [State.portAddress_eq, ← ho, ← hwin, ← pageOf_regAddress s o, fields_append]

/-- An access at an offset of the window that is no port of its direction is refused (30_encoding.md R61). -/
theorem access_undefinedPort {a : Word} {dir : Dir} {data : Word} {s : State} (ha : s.cfg.accessible a = true)
    (hd : busDecode s.cfg s.devBasePage a dir data = .undefinedPort) :
    access a dir data s = s.refuse (.undefinedPort a dir) := by
  simp [access, ha, hd]

/-- Settles O15: a read outside the window, the read of READ_PINS, and a read of no readable port. -/
theorem regReadCompletes : Obligations.RegReadCompletes := by
  unfold Obligations.RegReadCompletes
  refine fun o s he ha => ⟨fun hw => ?_, fun hw ho => exec_congr ?_, fun hw ho => ?_⟩
  · exact exec_of_map_done he (perform_regRead o s) (access_read_outside ha (busDecode_of_not_inWindow hw _ _))
  · rw [perform_regRead, perform_readPins, readPins_eq, State.regAddress_eq_portAddress hw ho]
  · have hd := (busDecode_read_of_inWindow hw 0).trans (if_neg ho)
    exact exec_of_map_refused he (perform_regRead o s) (access_undefinedPort ha hd)

/-- Settles O16: a write outside the window, the write of WRITE_PINS2, the two ports that take their data as it stands, and
a write to no writable port. -/
theorem regWriteCompletes : Obligations.RegWriteCompletes := by
  unfold Obligations.RegWriteCompletes
  intro o v s he ha a t inside
  refine ⟨fun hw => ?_, fun hw ho => exec_congr ?_, fun hw ho heq => ?_, fun p hw ho hv => ?_, fun hw how hod hob => ?_⟩
  · have hd := busDecode_of_not_inWindow (Bool.eq_false_iff.2 hw) .write v
    exact exec_regWrite_of_done he (access_write_outside ha hd)
  · rw [perform_regWrite, perform_writePins2, writePort16_eq, pairWord_halves, State.regAddress_eq_portAddress hw ho]
  · have hd := busDecode_write_offSetDirections hw he.2.2 ho v
    exact exec_regWrite_of_done he (access_setDirections_of_merged ha hd (if_pos heq))
  · subst hv
    have hd := busDecode_write_offSetBase hw he.2.2 ho (baseWord p)
    exact exec_regWrite_of_done he (access_setBase_of_merged ha hd (mergedPage_baseWord s.cfg p))
  · have hd := busDecode_write_of_no_port hw how hod hob v
    exact exec_regWrite_of_refused he (access_undefinedPort ha hd)

end Sys2Proof.Machine
end

section
/-! SUPPORT. Family `41_frame_encoder.md`: a frame and its byte (R83, R95), the emission of elements and its independence of
the peer (R84, R85, R90), the check and the idle restore (R88, R89), and TRANSMIT as a whole (R91 to R95). -/

namespace Sys2Proof.Machine

/-! ### What an operation returns (log 13) -/

/-- A state with one more value returned to the host. -/
def State.returned (s : State) (v : Returned) : State := { s with returns := s.returns ++ [v] }

theorem exec_returned_of_done {i : Instr} {s t : State} {v : Returned} (he : s.Enabled)
    (h : perform i s = .done (some v) t) : exec i s = .next (t.returned v) :=
  exec_of_done he h

/-- Returning a value records nothing. -/
theorem newEvents_returned {s t : State} {l : List Event} (h : t.trace = s.trace ++ l) (v : Returned) :
    newEvents s (t.returned v) = l :=
  newEvents_eq_of_trace h

/-! ### A frame and its byte (41_frame_encoder.md R83, R95) -/

/-- Settles O26: the frame stored and returned is `frameOf`, whose elements are R56's table. -/
theorem encodeByteCompletes : Obligations.EncodeByteCompletes := by
  unfold Obligations.EncodeByteCompletes
  intro b s he
  exact ⟨frameOf s.cfg b, exec_of_done (t := s.encoded b) he rfl, frameOf_elements s.cfg b⟩

/-- A data bit is read back from the TX level of its element, `ENC_ONE` and `ENC_ZERO` differing there (30_encoding.md
R57). -/
theorem txLevel_bitElement_inj {cfg : Cfg} (h : cfg.failing = none) {x y : Bool}
    (heq : (if x then cfg.encOne else cfg.encZero).getLsbD cfg.txBit =
      (if y then cfg.encOne else cfg.encZero).getLsbD cfg.txBit) : x = y := by
  have hne := Cfg.enc_tx_differ h
  cases x <;> cases y
  case false.false | true.true => rfl
  case false.true => exact absurd heq.symm hne
  case true.false => exact absurd heq hne

/-- Settles O27: the elements 1 to 8 carry the bits of the byte, each readable from its TX level. -/
theorem txLevelsDetermineTheByte : Obligations.TxLevelsDetermineTheByte := by
  unfold Obligations.TxLevelsDetermineTheByte
  intro cfg b b' hc heq
  refine BitVec.eq_of_getLsbD_eq fun i hi => txLevel_bitElement_inj hc ?_
  have hlevel := congrArg (·[i + 1]?) heq
  simpa only [List.getElem?_map, frameTable_getElem?_bit cfg _ hi, Option.map_some, Option.some.injEq] using hlevel

/-! ### Emission (41_frame_encoder.md R84, R85) -/

theorem perform_emitElement (e : Byte) (s : State) :
    perform (.emitElement e) s = (emitElement e s).map fun _ => some .nothing := rfl

/-- EMIT_ELEMENT whose write is done holds the element for a bit period and returns nothing. -/
theorem exec_emitElement_of_done {e : Byte} {s t : State} {w : Word} (he : s.Enabled)
    (h : writePins (elementWord e) s = .done w t) :
    exec (.emitElement e) s =
      .next { t.delayed t.cfg.bitPeriodUs with returns := t.returns ++ [.nothing] } :=
  exec_of_done (t := t.delayed t.cfg.bitPeriodUs) he
    (by rw [perform_emitElement, emitElement, h, Run.bind_done, Run.map_done])

/-- Settles O28: the write hits the device at its page and misses it elsewhere, and the overshoot only adds to the bit
period. -/
theorem emitElementCompletes : Obligations.EmitElementCompletes := by
  unfold Obligations.EmitElementCompletes
  refine fun e s he ha => ⟨fun hp => ?_, fun hp => ?_⟩
  · have hw := writePins_hit ha hp (elementWord e)
    rw [State.complete_latchPins] at hw
    exact ⟨_, Nat.le_add_right _ _, exec_emitElement_of_done he hw⟩
  · exact ⟨_, Nat.le_add_right _ _, exec_emitElement_of_done he (writePins_miss ha hp (elementWord e))⟩

theorem perform_emitFrame (b : Byte) (s : State) :
    perform (.emitFrame b) s = (emitFrame none b s).map fun _ => some .nothing := rfl

/-- The last element of a frame is the stop element. -/
theorem getLast?_frameTable (cfg : Cfg) (b : Byte) : (frameTable cfg b).getLast? = some cfg.encStop := rfl

/-- Settles O29: an emission of the ten elements of the frame's table, and then the frame discarded. -/
theorem emitFrameCompletes : Obligations.EmitFrameCompletes := by
  unfold Obligations.EmitFrameCompletes
  intro b s he ha
  obtain ⟨t, l, ht, em, hphase⟩ := emitElements_done none (frameTable s.cfg b) 0 (s.encoded b) ha
  have hperform : perform (.emitFrame b) s = .done (some .nothing) t.frameDropped := by
    rw [perform_emitFrame, emitFrame_done ht, Run.map_done]
  have hnew : newEvents s (t.frameDropped.returned .nothing) = l :=
    newEvents_returned (t := t.frameDropped) em.trace .nothing
  refine ⟨t.frameDropped.returned .nothing, exec_returned_of_done he hperform, rfl,
    congrArg (· ++ [Returned.nothing]) em.same.returns, ?_⟩
  rw [hnew]
  refine ⟨em.writes, em.reads, fun hp => ⟨?_, em.words hp, em.spaced hp⟩, fun hp => (em.miss hp).symm, em.held,
    ⟨l, em.trace.symm⟩, em.same.cfg, em.same.devBasePage, em.same.ctxBasePage, em.same.dirMask, hphase rfl,
    em.same.initState, em.same.fault, em.same.refused, em.same.host⟩
  have hlatch := em.latch hp
  rwa [getLast?_frameTable] at hlatch

/-! ### Emission and the peer (41_frame_encoder.md R90) -/

/-- The machine with its listed draws of bus accesses changed by `g`. -/
def State.mapDraws (g : BusDraw → BusDraw) (s : State) : State :=
  { s with env := { s.env with bus := s.env.bus.map g } }

/-- A part of an operation with the state it ends in changed by `f`, done or stopped. -/
def Run.mapState {α : Type} (f : State → State) : Run α → Run α
  | .done a s => .done a (f s)
  | .fault r s => .fault r (f s)
  | .refused r s => .refused r (f s)

/-- An outcome with its next state changed by `f`. -/
def mapNext (f : State → State) : Host.Outcome State Fault Refusal → Host.Outcome State Fault Refusal
  | .next s => .next (f s)
  | .fault r => .fault r
  | .refused r => .refused r

/-- A sequence whose parts each commute with a change of the state commutes with it. -/
theorem Run.bind_mapState {α β : Type} {f : State → State} {x : Run α} {k : α → State → Run β}
    (hk : ∀ a s, x = .done a s → k a (f s) = (k a s).mapState f) :
    (x.mapState f).bind k = (x.bind k).mapState f := by
  cases x with
  | done a s => exact hk a s rfl
  | fault r s => rfl
  | refused r s => rfl

theorem State.guarded_mapNext (f : State → State) (s : State) (k : Host.Outcome State Fault Refusal) :
    s.guarded (mapNext f k) = mapNext f (s.guarded k) := by
  unfold State.guarded
  cases s.fault with
  | some r => rfl
  | none =>
    cases s.refused with
    | some r => rfl
    | none => cases s.cfg.failing <;> rfl

theorem Run.outcome_mapDraws (g : BusDraw → BusDraw) (x : Run (Option Returned)) :
    (x.mapState (State.mapDraws g)).outcome = mapNext (State.mapDraws g) x.outcome := by
  cases x with
  | done v s => cases v <;> rfl
  | fault r s => rfl
  | refused r s => rfl

/-- An operation whose performance commutes with a change of the draws answers so. -/
theorem exec_mapDraws {i : Instr} {s : State} {g : BusDraw → BusDraw}
    (h : perform i (s.mapDraws g) = (perform i s).mapState (State.mapDraws g)) :
    exec i (s.mapDraws g) = mapNext (State.mapDraws g) (exec i s) := by
  rw [exec_eq_conclude, exec_eq_conclude, State.conclude, State.conclude, h, Run.outcome_mapDraws,
    State.guarded_congr (s := s) (t := s.mapDraws g) rfl rfl rfl, State.guarded_mapNext]

/-- An access that is done took one draw. -/
theorem access_done_env {a : Word} {dir : Dir} {data w : Word} {s t : State} (h : access a dir data s = .done w t) :
    t.env = Env.afterBus s.env := by
  obtain ⟨-, ht | ⟨-, -, ⟨v, rfl⟩ | ⟨m, rfl⟩ | ⟨p, rfl⟩⟩⟩ := access_done h
  · rw [ht, State.complete_env]
  all_goals rfl

/-- A wait takes no draw of a bus access. -/
theorem State.delayed_mapDraws (g : BusDraw → BusDraw) (s : State) (n : Nat) :
    (s.mapDraws g).delayed n = (s.delayed n).mapDraws g := by
  have henv : Env.afterDelay (s.mapDraws g).env = ((s.delayed n).mapDraws g).env := by
    simp only [State.mapDraws, State.delayed, Env.afterDelay]
    cases s.env.delays <;> rfl
  rw [State.delayed, henv]
  rfl

section
variable {g : BusDraw → BusDraw} (hg : ∀ d, (g d).delta = d.delta)
include hg

/-- A completed access whose draw is listed takes of it its access time alone. -/
theorem State.complete_mapDraws {s : State} (hbus : 0 < s.env.bus.length) (a : Word) (dir : Dir) (data : Word) :
    (s.mapDraws g).complete a dir data = (s.complete a dir data).mapDraws g := by
  cases hs : s.env.bus with
  | nil => rw [hs] at hbus; cases hbus
  | cons d ds => simp [State.complete, State.mapDraws, State.busDraw, Env.afterBus, hs, hg]

/-- A pin write whose draw is listed takes of it its access time alone, done or stopped. -/
theorem writePins_mapDraws {s : State} (hbus : 0 < s.env.bus.length) (d : Half) :
    writePins d (s.mapDraws g) = (writePins d s).mapState (State.mapDraws g) := by
  by_cases ha : s.Reaches s.cfg.offWritePins
  · by_cases hp : s.Addressed
    · rw [writePins_hit ha hp, writePins_hit (s := s.mapDraws g) ha hp, State.complete_mapDraws hg hbus]
      rfl
    · rw [writePins_miss ha hp, writePins_miss (s := s.mapDraws g) ha hp, State.complete_mapDraws hg hbus]
      rfl
  · rw [writePins_unreached ha, writePins_unreached (s := s.mapDraws g) ha]
    rfl

/-- An emission of elements whose draws are listed takes of them their access times alone. -/
theorem emitElements_mapDraws (pos : Option (Nat × Nat)) (es : List Byte) :
    ∀ (k : Nat) (s : State), es.length ≤ s.env.bus.length →
      emitElements pos k es (s.mapDraws g) = (emitElements pos k es s).mapState (State.mapDraws g) := by
  induction es with
  | nil => exact fun _ _ _ => rfl
  | cons e es ih =>
    intro k s hlen
    rw [List.length_cons] at hlen
    have hmark : (s.mapDraws g).atElement pos k = (s.atElement pos k).mapDraws g := by cases pos <;> rfl
    have hbus : 0 < (s.atElement pos k).env.bus.length := by rw [State.atElement_env]; omega
    rw [emitElements, emitElements, hmark, writePins_mapDraws hg hbus]
    refine Run.bind_mapState fun w t ht => ?_
    have hhold : (t.mapDraws g).atHold pos k = (t.atHold pos k).mapDraws g := by cases pos <;> rfl
    rw [hhold, State.delayed_mapDraws]
    refine ih (k + 1) _ ?_
    have henv : t.env = Env.afterBus s.env := by rw [access_done_env ht, State.atElement_env]
    rw [State.delayed_env, Env.afterDelay_bus, State.atHold_env, henv, Env.afterBus_bus, List.length_drop]
    omega

theorem emitFrame_mapDraws (pos : Option (Nat × Nat)) (b : Byte) {s : State} (hlen : 10 ≤ s.env.bus.length) :
    emitFrame pos b (s.mapDraws g) = (emitFrame pos b s).mapState (State.mapDraws g) := by
  have hemit := emitElements_mapDraws hg pos (frameTable s.cfg b) 0 (s.encoded b) hlen
  exact (congrArg (Run.bind · fun _ t => .done () t.frameDropped) hemit).trans (Run.bind_mapState fun _ _ _ => rfl)

end

/-- Settles O30: an emission takes of a listed draw its access time alone. -/
theorem emissionIgnoresThePeer : Obligations.EmissionIgnoresThePeer := by
  unfold Obligations.EmissionIgnoresThePeer
  intro b s g hg hlen
  have hperform : perform (.emitFrame b) (s.mapDraws g) = (perform (.emitFrame b) s).mapState (State.mapDraws g) := by
    rw [perform_emitFrame, perform_emitFrame, emitFrame_mapDraws hg none b hlen]
    exact Run.bind_mapState fun _ _ _ => rfl
  exact exec_mapDraws hperform

/-! ### The check and the idle restore (41_frame_encoder.md R88, R89) -/

theorem perform_ctsCheck (s : State) : perform .ctsCheck s = (ctsCheck s).map fun b => some (.clear b) := rfl

/-- Settles O31: the check is READ_PINS, and what it answers is the sense of that word. -/
theorem ctsCheckCompletes : Obligations.CtsCheckCompletes := by
  unfold Obligations.CtsCheckCompletes
  refine fun s he ha => ⟨exec_of_map_done he (perform_readPins s) (readPins_done ha), ?_,
    State.readPinsWord_of_not_addressed, fun hp m hm hb => Bool.not_inj (ctsClear_readPinsWord hp hm hb)⟩
  exact exec_of_done he (by rw [perform_ctsCheck, ctsCheck_done ha, Run.map_done])

theorem perform_restoreIdle (s : State) : perform .restoreIdle s = perform (.writePins s.cfg.idlePattern) s := rfl

/-- An output drives its bit of the latch (10_state.md R20). -/
theorem State.line_of_output {s : State} {m l : Half} {i : Fin 16} (hm : s.dirMask = some m) (hi : m.getLsbD i = true)
    (hl : s.outLatch = some l) : s.line i = .driven (l.getLsbD i) := by
  obtain ⟨-, -, -, h⟩ := linesFollowTheMask s i
  exact h m l hm hi hl

/-- With the idle pattern latched the TX line is high where the mask makes it an output (00_scope.md R6). -/
theorem State.txLine_of_idle {s : State} {m : Half} {cfg : Cfg} (hc : cfg.failing = none)
    (hl : s.outLatch = some cfg.idlePattern) (hm : s.dirMask = some m) (hi : m.getLsbD cfg.txBit = true) :
    s.line (cfg.txBit.castLE (by decide)) = .driven true :=
  (State.line_of_output hm hi hl).trans (congrArg Line.driven (Cfg.idle_tx_high hc))

/-- With the idle pattern latched the RTS line is high where the mask makes it an output (00_scope.md R6). -/
theorem State.rtsLine_of_idle {s : State} {m : Half} {cfg : Cfg} (hc : cfg.failing = none)
    (hl : s.outLatch = some cfg.idlePattern) (hm : s.dirMask = some m) (hi : m.getLsbD cfg.rtsBit = true) :
    s.line cfg.rtsBit = .driven true :=
  (State.line_of_output hm hi hl).trans (congrArg Line.driven (Cfg.idle_rts_high hc))

/-- Settles O32: the restore is WRITE_PINS of the idle pattern, whose TX and RTS bits are high. -/
theorem restoreIdleCompletes : Obligations.RestoreIdleCompletes := by
  unfold Obligations.RestoreIdleCompletes
  refine fun s => ⟨exec_congr (perform_restoreIdle s), fun he ha => ?_⟩
  obtain ⟨t, _, ht, hsame, -, -, -, hnow, -, -, -, -, hhit⟩ := writePins_spec ha s.cfg.idlePattern
  have hperform : perform .restoreIdle s = .done (some .nothing) t := by
    rw [perform_restoreIdle, perform_writePins, ht, Run.map_done]
  refine ⟨t.returned .nothing, exec_returned_of_done he hperform, hnow, hsame.dirMask, fun hp => ?_⟩
  obtain ⟨-, hlatch⟩ := hhit hp
  exact ⟨hlatch, fun m hm => ⟨State.txLine_of_idle he.2.2 hlatch (hsame.dirMask.trans hm),
    State.rtsLine_of_idle he.2.2 hlatch (hsame.dirMask.trans hm)⟩⟩

/-! ### TRANSMIT as a whole (41_frame_encoder.md R91 to R95) -/

/-- What TRANSMIT does, sending `n` bytes of `buf` and then the idle pattern: from `s` to `t`, recording `l`. -/
structure Transmission (s t : State) (l : List Event) (buf : List Byte) (n : Nat) : Prop where
  count  : n ≤ buf.length
  same   : s.SameSettings t
  phase  : t.txPhase = .txDone n
  frame  : t.frame = if n = 0 then s.frame else none
  trace  : t.trace = s.trace ++ l
  held   : s.now + n * (10 * s.cfg.bitPeriodUs) ≤ t.now
  issued : (accessesOf l).length = n * 11 + (if n < buf.length then 1 else 0) + 1
  checks : (readsOf l).map (fun w => ctsClear s.cfg (pinWordOf s.cfg w)) =
    List.replicate n true ++ if n < buf.length then [false] else []
  miss   : ¬ s.Addressed → t.outLatch = s.outLatch
  latch  : s.Addressed → t.outLatch = some s.cfg.idlePattern
  words  : s.Addressed → (pinsEvents l).map (·.2) = (buf.take n).flatMap (frameWords s.cfg) ++ [s.cfg.idlePattern]
  spaced : s.Addressed → spacedBy s.cfg.bitPeriodUs ((pinsEvents l).map (·.1))

theorem Transmission.returns {s t : State} {l : List Event} {buf : List Byte} {n : Nat} (tm : Transmission s t l buf n) :
    (t.returned (.sent n)).returns = s.returns ++ [.sent n] :=
  congrArg (· ++ [Returned.sent n]) tm.same.returns

/-- The sequencer's marks are no settings. -/
theorem State.SameSettings.inTx {s t : State} {p : TxPhase} (h : (s.inTx p).SameSettings t) (q : TxPhase) :
    s.SameSettings (t.inTx q) :=
  ⟨h.cfg, h.devBasePage, h.ctxBasePage, h.dirMask, h.initState, h.fault, h.refused, h.host, h.returns⟩

/-- TRANSMIT is its loop and then the idle restore. -/
theorem transmit_of_done {buf : List Byte} {s u v : State} {n : Nat} {w : Word} (hloop : transmitLoop buf 0 0 s = .done n u)
    (hidle : restoreIdle (u.inTx (.txRestore n)) = .done w v) : transmit buf s = .done n (v.inTx (.txDone n)) := by
  rw [transmit, hloop, Run.bind_done, hidle, Run.bind_done]

/-- The loop leaves reachable what was: it changes neither the configuration nor the context's page. -/
theorem transmitLoop_reaches {buf : List Byte} {s u : State} {j sent n : Nat} (h : transmitLoop buf j sent s = .done n u)
    (p : TxPhase) : (u.inTx p).Reaches (u.inTx p).cfg.offWritePins ↔ s.Reaches s.cfg.offWritePins := by
  have hmoves := transmitLoop_moves buf j sent s
  rw [h, Run.endState_done] at hmoves
  obtain ⟨hcfg, hctx, -, -⟩ := hmoves.fixed
  rw [State.inTx_cfg, hcfg]
  exact State.reaches_congr hcfg hctx _

/-- TRANSMIT is done where its accesses are accessible. -/
theorem transmit_done {buf : List Byte} {s : State} (hw : s.Reaches s.cfg.offWritePins)
    (hr : buf = [] ∨ s.Reaches s.cfg.offReadPins) :
    ∃ n t l, transmit buf s = .done n t ∧ Transmission s t l buf n := by
  obtain ⟨n, u, l, hloop, sd⟩ := transmitLoop_done buf 0 0 s hw hr
  rw [Nat.zero_add] at hloop
  obtain ⟨v, m, hidle, same, htrace, hframe, -, hnow, -, hwrites, hreads, hmiss, hhit⟩ :=
    writePins_spec ((transmitLoop_reaches hloop (.txRestore n)).2 hw) u.cfg.idlePattern
  have hpage : s.ctxBasePage = s.devBasePage ↔ u.ctxBasePage = u.devBasePage := by
    rw [sd.same.ctxBasePage, sd.same.devBasePage]
  have hlater : u.now ≤ v.now := hnow ▸ Nat.le_add_right _ _
  refine ⟨n, v.inTx (.txDone n), l ++ m, transmit_of_done hloop hidle, ⟨sd.count, ?_, rfl, hframe.trans sd.frame, ?_,
    sd.held.trans hlater, ?_, ?_, fun hp => ?_, fun hp => ?_, fun hp => ?_, fun hp => ?_⟩⟩
  · exact sd.same.trans (same.inTx _)
  · rw [State.inTx_trace, htrace, State.inTx_trace, sd.trace, List.append_assoc]
  · rw [accessesOf_append, List.length_append, sd.issued, hwrites]
  · rw [readsOf_append, hreads, List.append_nil, sd.checks]
  · exact (hmiss (mt hpage.2 hp)).2.trans (sd.miss hp).2
  · rw [State.inTx_outLatch, (hhit (hpage.1 hp)).2, sd.same.cfg]
  · rw [pinsEvents_append, List.map_append, sd.words hp, (hhit (hpage.1 hp)).1, sd.same.cfg]
    rfl
  · rw [pinsEvents_append, List.map_append, (hhit (hpage.1 hp)).1]
    refine spacedBy_append _ u.now _ (sd.spaced hp) (fun b hb => ?_) trivial
    obtain rfl : v.now = b := by simpa using hb
    exact hlater

/-- TRANSMIT's count is its loop's. -/
theorem transmit_count_eq {buf : List Byte} {s t u : State} {n k : Nat} (h : transmit buf s = .done n t)
    (hloop : transmitLoop buf 0 0 s = .done k u) : n = k := by
  obtain ⟨_, _, hloop', hrest⟩ := Run.bind_eq_done h
  cases hloop.symm.trans hloop'
  obtain ⟨_, _, -, hsent⟩ := Run.bind_eq_done hrest
  cases hsent
  rfl

/-- TRANSMIT that is done had its accesses accessible: the idle restore's, and a check's when there is a byte. -/
theorem transmit_reached {buf : List Byte} {s t : State} {n : Nat} (h : transmit buf s = .done n t) :
    s.Reaches s.cfg.offWritePins ∧ (buf = [] ∨ s.Reaches s.cfg.offReadPins) := by
  obtain ⟨sent, u, hloop, hrest⟩ := Run.bind_eq_done h
  obtain ⟨_, _, hidle, -⟩ := Run.bind_eq_done hrest
  refine ⟨(transmitLoop_reaches hloop _).1 (writePins_reached hidle), ?_⟩
  cases buf with
  | nil => exact .inl rfl
  | cons b bs =>
    obtain ⟨_, _, hcheck, -⟩ := Run.bind_eq_done hloop
    obtain ⟨_, _, hread, -⟩ := Run.bind_eq_done hcheck
    have hreached := readPins_reached hread
    exact .inr hreached

theorem perform_transmit (buf : List Byte) (s : State) :
    perform (.transmit buf) s = (transmit buf s).map fun n => some (.sent n) := rfl

theorem exec_transmit_of_done {buf : List Byte} {s t : State} {n : Nat} (he : s.Enabled) (h : transmit buf s = .done n t) :
    exec (.transmit buf) s = .next (t.returned (.sent n)) :=
  exec_returned_of_done he (by rw [perform_transmit, h, Run.map_done])

/-- A TRANSMIT that answers a next state transmitted, and the next state is where that ended with the count returned. -/
theorem exec_transmit_eq_next {buf : List Byte} {s t : State} (h : exec (.transmit buf) s = .next t) :
    s.Enabled ∧ ∃ n u l, Transmission s u l buf n ∧ t = u.returned (.sent n) ∧ newEvents s t = l := by
  obtain ⟨he, v, u, hu, rfl⟩ := exec_eq_next h
  obtain ⟨n, u', hdone, hv⟩ := Run.bind_eq_done hu
  cases hv
  obtain ⟨hw, hr⟩ := transmit_reached hdone
  obtain ⟨n', u', l, hdone', tm⟩ := transmit_done hw hr
  cases hdone.symm.trans hdone'
  exact ⟨he, n, u, l, tm, rfl, newEvents_eq_of_trace tm.trace⟩

/-- Settles O33: a transmission, which is done where its accesses are accessible. -/
theorem transmitCompletesWithItsCount : Obligations.TransmitCompletesWithItsCount := by
  unfold Obligations.TransmitCompletesWithItsCount
  intro buf s he hw hr
  obtain ⟨n, t, l, ht, tm⟩ := transmit_done hw hr
  refine ⟨t.returned (.sent n), n, exec_transmit_of_done he ht, tm.returns, tm.count, tm.phase, tm.frame, ?_⟩
  rw [newEvents_returned tm.trace]
  exact ⟨tm.issued, tm.checks, tm.latch, tm.miss, ⟨l, tm.trace.symm⟩, tm.same.cfg, tm.same.devBasePage,
    tm.same.ctxBasePage, tm.same.dirMask, tm.same.initState, tm.same.fault, tm.same.refused, tm.same.host⟩

/-- The levels of a waveform are the TX bits of its pin words (10_state.md R27). -/
theorem txWaveform_levels (cfg : Cfg) (l : List Event) :
    (txWaveform cfg l).map (·.2) = ((pinsEvents l).map (·.2)).map fun w => w.getLsbD cfg.txBit := by
  simp only [txWaveform, List.map_map, Function.comp_def]

theorem txWaveform_times (cfg : Cfg) (l : List Event) : (txWaveform cfg l).map (·.1) = (pinsEvents l).map (·.1) := by
  simp only [txWaveform, List.map_map, Function.comp_def]

/-- The widening of an element keeps its TX bit (30_encoding.md R58). -/
theorem frameWords_levels (cfg : Cfg) (b : Byte) :
    (frameWords cfg b).map (fun w => w.getLsbD cfg.txBit) = (frameTable cfg b).map fun e => e.getLsbD cfg.txBit := by
  have htx : cfg.txBit.val < 16 := by omega
  simp only [frameWords, List.map_map, Function.comp_def, BitVec.getLsbD_setWidth, htx, decide_true, Bool.true_and]

/-- Settles O34: the words of a transmission, their TX bits, and the idle pattern latched at its end. -/
theorem transmitEmitsTheFramesItCounts : Obligations.TransmitEmitsTheFramesItCounts := by
  unfold Obligations.TransmitEmitsTheFramesItCounts
  intro buf s t hp h
  obtain ⟨⟨-, -, hc⟩, n, u, l, tm, rfl, hnew⟩ := exec_transmit_eq_next h
  rw [hnew]
  refine ⟨n, tm.returns, tm.words hp, ?_, fun m hm =>
    State.txLine_of_idle hc (tm.latch hp) (tm.same.dirMask.trans hm)⟩
  rw [txWaveform_levels, tm.words hp, List.map_append, List.map_flatMap, List.map_singleton, Cfg.idle_tx_high hc]
  simp only [frameWords_levels]

/-- Settles O35: the spacing of a transmission's pin words, and the ten bit periods each byte it counts took. -/
theorem transmitHoldsEveryElement : Obligations.TransmitHoldsEveryElement := by
  unfold Obligations.TransmitHoldsEveryElement
  intro buf s t h
  obtain ⟨-, n, u, l, tm, rfl, hnew⟩ := exec_transmit_eq_next h
  refine ⟨fun hp => ?_, fun n' hn => ?_⟩
  · rw [hnew, txWaveform_times]
    exact tm.spaced hp
  · obtain rfl : n = n' := by simpa using tm.returns.symm.trans hn
    exact tm.held

/-- Settles O36: the loop follows the levels the peer drives at its checks, and TRANSMIT returns its count. -/
theorem transmitStopsAtTheFirstClosedCheck : Obligations.TransmitStopsAtTheFirstClosedCheck := by
  unfold Obligations.TransmitStopsAtTheFirstClosedCheck
  intro buf s m k he hp hw hr hm hb hk hlow hhigh
  obtain ⟨n, t, l, ht, tm⟩ := transmit_done hw (.inr hr)
  obtain ⟨u, hloop⟩ := transmitLoop_count buf 0 0 k s m hw hr hp hm hb hk hlow hhigh
  rw [Nat.zero_add] at hloop
  obtain rfl : n = k := transmit_count_eq ht hloop
  exact ⟨t.returned (.sent n), exec_transmit_of_done he ht, tm.returns⟩

end Sys2Proof.Machine
end

section
/-! SUPPORT. Family `42_line_init.md`: LINE_INIT's handshake (R96 to R101), its poll loop and how that ends (R102 to
R104), and the timing primitives DELAY and NOW (R105, R106). -/

namespace Sys2Proof.Machine

/-! ### DELAY and NOW (42_line_init.md R105, R106) -/

/-- A bounded jitter bounds the overshoot (log 8). -/
theorem State.overshoot_le {s : State} {j : Nat} (h : s.cfg.bitJitterUs = some j) : s.overshoot ≤ j := by
  simp only [State.overshoot, h]
  exact Nat.min_le_right ..

/-- A delay advances the clock by at least its operand. -/
theorem State.le_now_delayed (s : State) (n : Nat) : s.now + n ≤ (s.delayed n).now := Nat.le_add_right ..

/-- Under a bounded jitter a delay advances the clock by at most that more than its operand. -/
theorem State.now_delayed_le {s : State} {j : Nat} (h : s.cfg.bitJitterUs = some j) (n : Nat) :
    (s.delayed n).now ≤ s.now + n + j :=
  Nat.add_le_add_left (State.overshoot_le h) _

theorem State.now_le_clockRead (s : State) : s.now ≤ s.clockRead.now := Nat.le_add_right ..

theorem perform_delay (unit : TimeUnit) (n : Nat) (s : State) :
    perform (.delay unit n) s = .done (some .nothing) (s.delayed (microseconds unit n)) := rfl

theorem perform_now (s : State) : perform .now s = .done (some (.time s.clockRead.now)) s.clockRead := rfl

/-- Settles O42: DELAY is one wait of its operand in microseconds. -/
theorem delayCompletes : Obligations.DelayCompletes := by
  unfold Obligations.DelayCompletes
  intro unit n s he us
  have hus : us = microseconds unit n := by cases unit <;> rfl
  rw [hus]
  exact ⟨_, s.le_now_delayed _, fun j hj => State.now_delayed_le hj _, exec_of_done he (perform_delay unit n s)⟩

/-- Settles O43: NOW is one clock reading. -/
theorem nowCompletes : Obligations.NowCompletes := by
  unfold Obligations.NowCompletes
  exact fun s he => ⟨_, s.now_le_clockRead, exec_of_done he (perform_now s)⟩

end Sys2Proof.Machine

namespace Sys2Proof

/-! ### READY_PATTERN (42_line_init.md R99, 30_encoding.md R60) -/

theorem Cfg.getLsbD_readyPattern (cfg : Cfg) {i : Nat} (hi : i < 16) :
    cfg.readyPattern.getLsbD i = if i = cfg.rtsBit.val then false else cfg.idlePattern.getLsbD i := by
  rw [Cfg.readyPattern, BitVec.getLsbD_and, BitVec.getLsbD_not, ← BitVec.twoPow_eq, BitVec.getLsbD_twoPow]
  by_cases h : i = cfg.rtsBit.val
  · simp [h]
  · simp [h, hi, Ne.symm h]

/-- Settles O41: the bits of the ready pattern, read at the TX and the RTS bit. -/
theorem readyPatternAssertsRtsAlone : Obligations.ReadyPatternAssertsRtsAlone := by
  unfold Obligations.ReadyPatternAssertsRtsAlone
  refine fun cfg => ⟨fun i hi => cfg.getLsbD_readyPattern hi, fun hc => ⟨?_, ?_, Cfg.idle_rts_high hc⟩⟩
  · obtain ⟨hne, -, -⟩ := Cfg.pins_distinct hc
    rw [cfg.getLsbD_readyPattern (by omega), if_neg hne, Cfg.idle_tx_high hc]
  · rw [cfg.getLsbD_readyPattern cfg.rtsBit.isLt, if_pos rfl]

end Sys2Proof

namespace Sys2Proof.Machine

/-! ### The handshake (42_line_init.md R96 to R101) -/

/-- The handshake of a LINE_INIT begun at `s` has come to `t`: the mask, the latch and the sequencer stand as given,
`es` is what it has recorded, and but for the clock and the draws nothing else has changed. -/
def State.HandshakeAt (s t : State) (mask latch : Option Half) (p : InitState) (es : List Event) : Prop :=
  t = { s with
    dirMask := mask
    outLatch := latch
    initState := p
    now := t.now
    env := t.env
    trace := s.trace ++ es }

section
variable {s t : State} {mask latch : Option Half} {p : InitState} {es : List Event}

theorem State.handshakeAt_self (s : State) : s.HandshakeAt s s.dirMask s.outLatch s.initState [] := by
  rw [State.HandshakeAt, List.append_nil]

theorem State.HandshakeAt.inInit (h : s.HandshakeAt t mask latch p es) (q : InitState) :
    s.HandshakeAt (t.inInit q) mask latch q es :=
  congrArg (State.inInit · q) h

/-- A write that misses the device is recorded alone (70_reset_and_hazards.md R131). -/
theorem State.HandshakeAt.complete (h : s.HandshakeAt t mask latch p es) (a data : Word) :
    s.HandshakeAt (t.complete a .write data) mask latch p
      (es ++ [.access (t.complete a .write data).now .write a data]) := by
  rw [State.HandshakeAt, ← List.append_assoc]
  exact congrArg (State.complete · a .write data) h

theorem State.HandshakeAt.setMask (h : s.HandshakeAt t mask latch p es) (m : Half) :
    s.HandshakeAt (t.setMask m) (some m) latch p es :=
  congrArg (State.setMask · m) h

/-- A pin write at the device's page is recorded and latched, the access before its `Pins` event (log 19). -/
theorem State.HandshakeAt.pinsStep (h : s.HandshakeAt t mask latch p es) (v : Half) (q : InitState) :
    s.HandshakeAt (t.pinsStep v q) mask (some v) q (es ++
      [.access (t.pinsStep v q).now .write (s.portAddress s.cfg.offWritePins) (sameWord v),
       .pins (t.pinsStep v q).now v]) := by
  rw [State.HandshakeAt, ← List.append_assoc, State.pinsStep, State.complete_latchPins, h]
  rfl

/-- A pin write at another page misses the device. -/
theorem State.HandshakeAt.missStep (h : s.HandshakeAt t mask latch p es) (v : Half) (q : InitState) :
    s.HandshakeAt (t.missStep v q) mask latch q (es ++
      [.access (t.missStep v q).now .write (s.portAddress s.cfg.offWritePins) (sameWord v)]) := by
  rw [State.HandshakeAt, ← List.append_assoc]
  exact congrArg (State.missStep · v q) h

theorem State.HandshakeAt.settle (h : s.HandshakeAt t mask latch p es) :
    s.HandshakeAt t.settle mask latch .settling es := by
  rw [State.HandshakeAt, h]
  rfl

theorem State.HandshakeAt.startPolling (h : s.HandshakeAt t mask latch p es) :
    s.HandshakeAt t.startPolling mask latch (.polling t.clockRead.now) es :=
  congrArg State.startPolling h

end

/-- The settle delay lasts at least the settle time (42_line_init.md R100). -/
theorem State.le_now_settle (s : State) : s.now + s.cfg.settleMs * 1000 ≤ s.settle.now := Nat.le_add_right ..

/-- LINE_INIT whose mask and pin writes are done answers the state they end in, and is under way. -/
theorem exec_lineInit_of_done {s u t : State} {w : Word} {t0 : Nat} (he : s.Enabled) (hs : s.polling = false)
    (hmask : setDirections s.cfg.dirMask s = .done w u) (hwrites : lineInitWrites u = .done t0 t) :
    exec .lineInit s = .next t := by
  refine exec_of_pending he ((performLineInit_start hs).trans ?_)
  rw [lineInitStart_eq, hmask, Run.bind_done, hwrites, Run.map_done]

/-- Settles O37: the mask, then the three pin writes with the settle delay before the last, each hitting the device. -/
theorem lineInitDrivesTheHandshake : Obligations.LineInitDrivesTheHandshake := by
  unfold Obligations.LineInitDrivesTheHandshake
  intro s he hs hp hd hw aDir aPin idle ready
  have hexec := exec_lineInit_of_done he hs (setDirections_hit he.2.2 hd hp _) (lineInitWrites_hit hp hw)
  have hwrite := s.handshakeAt_self.complete aDir (sameWord s.cfg.dirMask)
  have hmask := (hwrite.setMask s.cfg.dirMask).inInit .directionsSet
  have hready := (hmask.pinsStep idle .idleHigh).pinsStep ready .readyAsserted
  have hpoll := (hready.settle.pinsStep idle .idleSettled).startPolling
  refine ⟨_, _, _, _, _, _, ?_, ?_, ?_, ?_, ?_, hexec.trans (congrArg Host.Outcome.next hpoll)⟩
  · exact Nat.le_add_right ..
  · exact Nat.le_add_right ..
  · exact Nat.le_add_right ..
  · exact (State.le_now_settle _).trans (Nat.le_add_right ..)
  · exact State.now_le_clockRead _

/-- Settles O38: the same writes, each missing the device. -/
theorem lineInitAtAnotherPageMisses : Obligations.LineInitAtAnotherPageMisses := by
  unfold Obligations.LineInitAtAnotherPageMisses
  intro s he hs hp hd hw
  have hexec := exec_lineInit_of_done he hs (setDirections_miss hd hp _) (lineInitWrites_miss hp hw)
  have hwrite := s.handshakeAt_self.complete (s.portAddress s.cfg.offSetDirections) (sameWord s.cfg.dirMask)
  have hidle := (hwrite.inInit .directionsSet).missStep s.cfg.idlePattern .idleHigh
  have hready := hidle.missStep s.cfg.readyPattern .readyAsserted
  have hpoll := (hready.settle.missStep s.cfg.idlePattern .idleSettled).startPolling
  refine ⟨_, _, _, _, _, _, ?_, ?_, ?_, ?_, ?_, hexec.trans (congrArg Host.Outcome.next hpoll)⟩
  · exact Nat.le_add_right ..
  · exact Nat.le_add_right ..
  · exact Nat.le_add_right ..
  · exact (State.le_now_settle _).trans (Nat.le_add_right ..)
  · exact State.now_le_clockRead _

/-! ### The poll loop (42_line_init.md R102 to R104) -/

/-- LINE_INIT in `Polling(t0)` whose poll ends the loop returns what it found. -/
theorem exec_lineInit_of_polled {s t : State} {t0 : Nat} {b : Bool} (he : s.Enabled) (hi : s.initState = .polling t0)
    (hpoll : pollOnce t0 s = .done (some b) t) : exec .lineInit s = .next (t.returned (.ready b)) := by
  refine exec_returned_of_done he ((performLineInit_polling hi).trans ?_)
  rw [hpoll, Run.map_done, Option.map_some]

/-- LINE_INIT in `Polling(t0)` whose poll does not end the loop is still under way. -/
theorem exec_lineInit_of_polling_on {s t : State} {t0 : Nat} (he : s.Enabled) (hi : s.initState = .polling t0)
    (hpoll : pollOnce t0 s = .done none t) : exec .lineInit s = .next t := by
  refine exec_of_pending he ((performLineInit_polling hi).trans ?_)
  rw [hpoll, Run.map_done, Option.map_none]

theorem ctsClear_eq_true_iff (cfg : Cfg) (w : Half) : ctsClear cfg w = true ↔ w.getLsbD cfg.ctsBit = false := by
  rw [ctsClear, Bool.not_eq_true']

/-- Settles O39: a late poll times out; an early one ends by the CTS bit of the pin word it reads. -/
theorem lineInitPollsOnce : Obligations.LineInitPollsOnce := by
  unfold Obligations.LineInitPollsOnce
  intro s t0 he hi c
  refine ⟨fun hlate => exec_lineInit_of_polled he hi (pollOnce_late hlate), fun hearly ha => ?_⟩
  have hpoll := pollOnce_early (s := s) hearly ha
  refine ⟨fun hclear => ?_, fun hset => ?_⟩
  · exact exec_lineInit_of_polled he hi (hpoll.trans (if_pos ((ctsClear_eq_true_iff ..).2 hclear)))
  · refine exec_lineInit_of_polling_on he hi (hpoll.trans (if_neg ?_))
    rw [ctsClear_eq_true_iff]
    exact ne_false_of_eq_true hset

/-! ### How polling ends (42_line_init.md R103, R106) -/

/-- A LINE_INIT polls since `t0` and can go on: it is enabled, and read-pins is in reach. -/
structure State.Polls (s : State) (t0 : Nat) : Prop where
  enabled : s.Enabled
  inPoll  : s.initState = .polling t0
  reaches : s.Reaches s.cfg.offReadPins

/-- A LINE_INIT that polled at `s` is done at `t`, ready or timed out, and has returned which. -/
def State.PollEndsAt (s t : State) : Prop :=
  (t.initState = .ready ∧ t.returns = s.returns ++ [.ready true]) ∨
    (t.initState = .timedOut ∧ t.returns = s.returns ++ [.ready false])

/-- A poll at `s` before the timeout found CTS set, and the LINE_INIT polls on at `t`. -/
structure State.PollsOn (s t : State) (t0 : Nat) : Prop where
  early   : s.clockRead.now < t0 + s.cfg.hsTimeoutMs * 1000
  polls   : t.Polls t0
  cfg     : t.cfg = s.cfg
  returns : t.returns = s.returns
  later   : s.clockRead.now ≤ t.now
  clock   : t.env.clock = (Env.afterClock s.env).clock

theorem step_of_polling {s : State} {t0 : Nat} (hi : s.initState = .polling t0) : step s = exec .lineInit s := by
  simp only [step, hi]

/-- A step of a polling LINE_INIT is one poll, which ends it or goes on. -/
theorem State.Polls.step_cases {s : State} {t0 : Nat} (h : s.Polls t0) :
    ∃ t, step s = .next t ∧ (s.PollEndsAt t ∨ s.PollsOn t t0) := by
  obtain ⟨he, hi, ha⟩ := h
  rw [step_of_polling hi]
  obtain ⟨hlate, hearly⟩ := lineInitPollsOnce s t0 he hi
  by_cases ht : t0 + s.cfg.hsTimeoutMs * 1000 ≤ s.clockRead.now
  · exact ⟨_, hlate ht, .inl (.inr ⟨rfl, rfl⟩)⟩
  · have ht' := Nat.lt_of_not_le ht
    obtain ⟨hclear, hset⟩ := hearly ht' ha
    cases hb : (pinWordOf s.cfg s.clockRead.readPinsWord).getLsbD s.cfg.ctsBit with
    | false => exact ⟨_, hclear hb, .inl (.inl ⟨rfl, rfl⟩)⟩
    | true =>
      exact ⟨_, hset hb, .inr ⟨ht', ⟨he, hi, ha⟩, rfl, rfl, Nat.le_add_right .., Env.afterBus_clock _⟩⟩

/-- What ends a LINE_INIT that polls on ends it from the poll before. -/
theorem State.PollsOn.endsAt {s t u : State} {t0 : Nat} (h : s.PollsOn t t0) (hu : t.PollEndsAt u) :
    s.PollEndsAt u := by
  rwa [State.PollEndsAt, ← h.returns]

/-- A LINE_INIT polls on only from before the timeout. -/
theorem State.PollsOn.now_lt {s t : State} {t0 : Nat} (h : s.PollsOn t t0) : s.now < t0 + s.cfg.hsTimeoutMs * 1000 :=
  s.now_le_clockRead.trans_lt h.early

/-- A listed clock reading is taken off the list (log 5). -/
theorem State.clockRead_of_listed {s : State} {d : Nat} {ds : List Nat} (h : s.env.clock = d :: ds) :
    s.clockRead.now = s.now + d ∧ s.clockRead.env.clock = ds := by
  simp only [State.clockRead_now, State.clockAdvance, State.clockRead_env, Env.afterClock, h, and_self]

/-- Polling ends within the listed clock readings and one more, if they reach the timeout: a poll that goes on takes one
of them. -/
theorem State.Polls.ends_of_listed {t0 : Nat} (ds : List Nat) :
    ∀ s : State, s.Polls t0 → s.env.clock = ds → t0 + s.cfg.hsTimeoutMs * 1000 ≤ s.now + ds.sum →
      ∃ k t, k ≤ ds.length + 1 ∧ Sys2Proof.core.run k s = .next t ∧ s.PollEndsAt t := by
  induction ds with
  | nil =>
    intro s h _ hsum
    obtain ⟨t, ht, hend | hon⟩ := h.step_cases
    · exact ⟨1, t, le_rfl, run_one ht, hend⟩
    · exact absurd hsum hon.now_lt.not_ge
  | cons d ds ih =>
    intro s h hds hsum
    obtain ⟨hnow, hclock⟩ := State.clockRead_of_listed hds
    obtain ⟨t, ht, hend | hon⟩ := h.step_cases
    · exact ⟨1, t, by omega, run_one ht, hend⟩
    · have hlater := hon.later
      have hsum' : t0 + t.cfg.hsTimeoutMs * 1000 ≤ t.now + ds.sum := by
        rw [hon.cfg]
        rw [List.sum_cons] at hsum
        omega
      obtain ⟨k, u, hk, hu, hend⟩ := ih t hon.polls (hon.clock.trans hclock) hsum'
      exact ⟨k + 1, u, Nat.succ_le_succ hk, (run_succ ht k).trans hu, hon.endsAt hend⟩

/-- Settles O40: the coming clock readings are the list of the state. -/
theorem pollingEndsWhenTheClockGetsOn : Obligations.PollingEndsWhenTheClockGetsOn := by
  unfold Obligations.PollingEndsWhenTheClockGetsOn
  exact fun s t0 he hi ha hsum => State.Polls.ends_of_listed s.env.clock s ⟨he, hi, ha⟩ rfl hsum

/-- A LINE_INIT that polls at `s` ends, sooner or later. -/
def State.PollEnds (s : State) : Prop := ∃ k t, Sys2Proof.core.run k s = .next t ∧ s.PollEndsAt t

/-- A LINE_INIT that never ends polls on, and what it polls on at never ends either. -/
theorem State.Polls.step_of_not_ends {s : State} {t0 : Nat} (h : s.Polls t0) (hnot : ¬ s.PollEnds) :
    ∃ t, step s = .next t ∧ s.PollsOn t t0 ∧ ¬ t.PollEnds := by
  obtain ⟨t, ht, hend | hon⟩ := h.step_cases
  · exact absurd ⟨1, t, run_one ht, hend⟩ hnot
  · exact ⟨t, ht, hon, fun ⟨k, u, hu, hend⟩ => hnot ⟨k + 1, u, (run_succ ht k).trans hu, hon.endsAt hend⟩⟩

/-- A LINE_INIT that never ends is polling at every step of its run, with the clock before the timeout. -/
theorem State.Polls.run_of_not_ends {t0 : Nat} (k : Nat) :
    ∀ s : State, s.Polls t0 → ¬ s.PollEnds →
      ∃ t, Sys2Proof.core.run k s = .next t ∧ t.Polls t0 ∧ t.now < t0 + s.cfg.hsTimeoutMs * 1000 := by
  induction k with
  | zero =>
    intro s h hnot
    obtain ⟨_, _, hon, _⟩ := h.step_of_not_ends hnot
    exact ⟨s, rfl, h, hon.now_lt⟩
  | succ k ih =>
    intro s h hnot
    obtain ⟨t, ht, hon, hnot'⟩ := h.step_of_not_ends hnot
    obtain ⟨u, hu, hpolls, hnow⟩ := ih t hon.polls hnot'
    exact ⟨u, (run_succ ht k).trans hu, hpolls, hon.cfg ▸ hnow⟩

/-- A polling LINE_INIT does not wait for the host. -/
theorem State.Polls.not_waits {s : State} {t0 : Nat} (h : s.Polls t0) : ¬ s.Waits := by
  rintro ⟨hpolling, -⟩
  simp only [State.polling, h.inPoll, Bool.true_eq_false] at hpolling

/-- A LINE_INIT that never ends makes its run the infinite one below the timeout (R103). -/
theorem State.Polls.forever_of_not_ends {s : State} {t0 : Nat} (h : s.Polls t0) (hnot : ¬ s.PollEnds) :
    s.RunsForever ∧
      ∀ (k : Nat) (t : State), Sys2Proof.core.run k s = .next t → t.now < t0 + s.cfg.hsTimeoutMs * 1000 := by
  refine ⟨fun k => ?_, fun k t ht => ?_⟩
  · obtain ⟨t, ht, hpolls, -⟩ := State.Polls.run_of_not_ends k s h hnot
    exact ⟨t, ht, hpolls.not_waits⟩
  · obtain ⟨t', ht', -, hnow⟩ := State.Polls.run_of_not_ends k s h hnot
    cases ht.symm.trans ht'
    exact hnow

/-- Settles O59: a LINE_INIT ends or runs for ever below the timeout, and `clock_progress` rules out the second. -/
theorem pollingEndsUnderClockProgress : Obligations.PollingEndsUnderClockProgress := by
  unfold Obligations.PollingEndsUnderClockProgress
  intro s t0 he hi ha ends
  have hcases := or_iff_not_imp_left.2 (State.Polls.forever_of_not_ends (s := s) (t0 := t0) ⟨he, hi, ha⟩)
  refine ⟨fun hprogress => ?_, hcases⟩
  obtain hends | ⟨hforever, hbelow⟩ := hcases
  · exact hends
  · obtain ⟨k, t, ht, hbound⟩ := hprogress hforever (t0 + s.cfg.hsTimeoutMs * 1000)
    exact absurd hbound (hbelow k t ht).not_ge

end Sys2Proof.Machine
end

section
/-! SUPPORT. Family `60_exceptions.md`: the command lines that are refused (R111), the operation a step runs (R121), the
stops of an ill-formed configuration (R112), and the faults of inaccessible addresses with what is done before them (R107,
R110, R114). -/

namespace Sys2Proof

/-! ### Unknown command names (60_exceptions.md R111) -/

theorem keywordOf_eq_none {name : List Byte} (h : ∀ k : Keyword, k.text ≠ name) : keywordOf name = none := by
  rw [keywordOf, List.find?_eq_none]
  intro k _
  rw [beq_iff_eq]
  exact h k

/-- A line whose first token is a word that names no command. -/
theorem decode_of_unknown {line name : List Byte} {args : List Token} (hl : lexLine line [] = .word name :: args)
    (hk : keywordOf name = none) : decode line = .unmodelled name := by
  simp only [decode, hl, hk]

/-- Settles O3: the white space is dropped, the name is the line's first word, and no command is spelled so. -/
theorem unknownCommandNamesAreUnmodelled : Obligations.UnknownCommandNamesAreUnmodelled := by
  unfold Obligations.UnknownCommandNamesAreUnmodelled
  intro blanks name rest hb hne hw hr hk
  have hline : lexLine (blanks ++ name ++ rest) [] = .word name :: lexLine rest [] := by
    rw [List.append_assoc, lexLine_blanks _ blanks hb, lexLine_word_before hne hw hr]
  exact decode_of_unknown hline (keywordOf_eq_none hk)

/-- The operations that make at most one bus access. -/
def Instr.OfOneAccess : Instr → Prop
  | .emitFrame _ | .transmit _ | .lineInit => False
  | _ => True

/-- The check that an ill-formed configuration is refused by fails (60_exceptions.md R112). -/
theorem Cfg.passes_of_failing {cfg : Cfg} {c : ConfigCheck} (h : cfg.failing = some c) : c.passes cfg = false := by
  have hfound := List.find?_some h
  rwa [Bool.not_eq_true'] at hfound

end Sys2Proof

namespace Sys2Proof.Machine

/-! ### The operation a step runs (60_exceptions.md R121) -/

theorem State.polling_eq_true_iff (s : State) : s.polling = true ↔ ∃ t0, s.initState = .polling t0 := by
  unfold State.polling
  cases s.initState <;> simp

theorem State.initState_ne_polling {s : State} (h : s.polling = false) (t0 : Nat) : s.initState ≠ .polling t0 :=
  fun h0 => Bool.eq_false_iff.1 h (s.polling_eq_true_iff.2 ⟨t0, h0⟩)

theorem State.hostNext_of_cons {s : State} {line : List Byte} {rest : List (List Byte)} (h : s.host = line :: rest) :
    s.hostNext = .line (decode line) rest := by
  simp only [State.hostNext, h]

/-- With no LINE_INIT under way a step runs the operation that the host gives next. -/
theorem step_of_hostNext_op {s : State} {i : Instr} {rest : List (List Byte)} (hs : s.polling = false)
    (h : s.hostNext = .line (.op i) rest) : step s = exec i (s.issued rest) := by
  unfold step
  split
  next t0 h0 => exact absurd h0 (s.initState_ne_polling hs t0)
  next => simp only [h]

/-- Settles O4: the host's next line is the decoded first one. -/
theorem stepRunsTheDecodedOperation : Obligations.StepRunsTheDecodedOperation := by
  unfold Obligations.StepRunsTheDecodedOperation
  intro s line rest i hs hh hd
  exact step_of_hostNext_op hs (by rw [State.hostNext_of_cons hh, hd])

/-- A table word that decodes is a command line that does. -/
theorem decode_tableLine {nbits w : Nat} {i : Instr} (h : decodeTableWord nbits w = some i) :
    decode (tableLine nbits w) = .op i := by
  unfold decodeTableWord at h
  split at h
  next j hj => rw [hj, Option.some.inj h]
  next => cases h

/-- Settles O52: the word's line is the reset state's only one, and taking it leaves the reset state. -/
theorem firstStepAfterResetRunsTheTableWord : Obligations.FirstStepAfterResetRunsTheTableWord := by
  unfold Obligations.FirstStepAfterResetRunsTheTableWord
  intro nbits w i h
  exact stepRunsTheDecodedOperation (State.reset.withFetchWord nbits w) (tableLine nbits w) [] i rfl rfl (decode_tableLine h)

/-! ### Ill-formed configurations (60_exceptions.md R112) -/

theorem State.guarded_of_failing {s : State} {c : ConfigCheck} (hf : s.fault = none) (hr : s.refused = none)
    (hc : s.cfg.failing = some c) (k : Host.Outcome State Fault Refusal) : s.guarded k = .refused (.badConfig c) := by
  simp only [State.guarded, hf, hr, hc]

/-- Settles O8: a step and every operation stand under the guard, which answers a check that fails. -/
theorem illFormedConfigurationIsRefused : Obligations.IllFormedConfigurationIsRefused := by
  unfold Obligations.IllFormedConfigurationIsRefused
  refine fun s c hf hr hc => ⟨Cfg.passes_of_failing hc, ?_, fun i => ?_⟩
  · rw [step_eq_guarded, State.guarded_of_failing hf hr hc]
  · rw [exec_eq_conclude, State.conclude, State.guarded_of_failing hf hr hc]

/-! ### Operations of one access (60_exceptions.md R107, R111) -/

/-- A stop of a part of an operation changes nothing of `s` but its own mark. -/
def Run.StopsAlone {α : Type} (s : State) : Run α → Prop
  | .done _ _ => True
  | .fault r t => t = { s with fault := some r }
  | .refused r t => t = { s with refused := some r }

theorem access_stopsAlone (a : Word) (dir : Dir) (data : Word) (s : State) : (access a dir data s).StopsAlone s := by
  cases h : access a dir data s with
  | done w t => trivial
  | fault r t =>
    obtain ⟨-, rfl, ht⟩ := access_fault h
    exact ht
  | refused r t => exact (access_refused h).2

/-- What follows a part and cannot itself stop adds no stop. -/
theorem Run.StopsAlone.bind_done {α β : Type} {s : State} {x : Run α} (hx : x.StopsAlone s) (f : α → State → β)
    (g : α → State → State) : (x.bind fun a t => .done (f a t) (g a t)).StopsAlone s := by
  cases x with
  | done a t => trivial
  | fault r t => exact hx
  | refused r t => exact hx

theorem Run.StopsAlone.map {α β : Type} {s : State} {x : Run α} (hx : x.StopsAlone s) (f : α → β) :
    (x.map f).StopsAlone s := hx.bind_done (fun a _ => f a) fun _ t => t

theorem perform_stopsAlone {i : Instr} (hi : i.OfOneAccess) (s : State) : (perform i s).StopsAlone s := by
  cases i with
  | regRead o => exact (access_stopsAlone ..).map _
  | regWrite o v => exact (access_stopsAlone ..).map _
  | readPins => exact (access_stopsAlone ..).map _
  | writePins d => exact (access_stopsAlone ..).map _
  | writePins2 hi lo => exact (access_stopsAlone ..).map _
  | setDirections m => exact (access_stopsAlone ..).map _
  | setBase p => exact ((access_stopsAlone ..).bind_done _ _).map _
  | encodeByte b => trivial
  | emitElement e => exact ((access_stopsAlone ..).bind_done _ _).map _
  | ctsCheck => exact ((access_stopsAlone ..).bind_done _ _).map _
  | restoreIdle => exact (access_stopsAlone ..).map _
  | delay u n => trivial
  | now => trivial
  | emitFrame b => exact hi.elim
  | transmit buf => exact hi.elim
  | lineInit => exact hi.elim

/-- Settles O45: an access that stops leaves its state alone, and what each of these operations does after its access does
not stop. -/
theorem stopsOfOneAccessLeaveTheStateAlone : Obligations.StopsOfOneAccessLeaveTheStateAlone := by
  unfold Obligations.StopsOfOneAccessLeaveTheStateAlone
  intro i s t hi
  have hone : i.OfOneAccess := by cases i <;> exact hi
  have hstop := perform_stopsAlone hone s
  constructor
  · intro r h
    rwa [h] at hstop
  · intro r h
    rwa [h] at hstop

/-! ### Faults inside a frame and a TRANSMIT (60_exceptions.md R110, 41_frame_encoder.md R85, R91) -/

/-- The first element faults where write-pins is not accessible. -/
theorem emitElements_unreached {s : State} (hw : ¬ s.Reaches s.cfg.offWritePins) (pos : Option (Nat × Nat)) (k : Nat)
    (e : Byte) (es : List Byte) :
    emitElements pos k (e :: es) s = .fault (.fatalAddress (s.portAddress s.cfg.offWritePins))
      { s.atElement pos k with fault := some (.fatalAddress (s.portAddress s.cfg.offWritePins)) } := by
  have haddr : (s.atElement pos k).portAddress (s.atElement pos k).cfg.offWritePins = s.portAddress s.cfg.offWritePins := by
    rw [State.atElement_cfg, State.portAddress_congr (s.atElement_cfg pos k) (s.atElement_ctxBasePage pos k)]
  have hmark : ¬ (s.atElement pos k).Reaches (s.atElement pos k).cfg.offWritePins := by
    rwa [State.atElement_cfg, State.reaches_congr (s.atElement_cfg pos k) (s.atElement_ctxBasePage pos k)]
  rw [emitElements, writePins_unreached hmark, Run.bind_fault, haddr]

/-- So does a frame, which is then stored and not discarded (log 21). -/
theorem emitFrame_unreached {s : State} (hw : ¬ s.Reaches s.cfg.offWritePins) (pos : Option (Nat × Nat)) (b : Byte) :
    emitFrame pos b s = .fault (.fatalAddress (s.portAddress s.cfg.offWritePins))
      { (s.encoded b).atElement pos 0 with fault := some (.fatalAddress (s.portAddress s.cfg.offWritePins)) } :=
  congrArg (Run.bind · fun _ t => .done () t.frameDropped) (emitElements_unreached (s := s.encoded b) hw pos 0 _ _)

/-- A frame is done where write-pins is accessible. -/
theorem emitFrame_reached {s : State} (hw : s.Reaches s.cfg.offWritePins) (pos : Option (Nat × Nat)) (b : Byte) :
    ∃ t, emitFrame pos b s = .done () t := by
  obtain ⟨t, -, ht, -⟩ := emitElements_done pos (frameTable s.cfg b) 0 (s.encoded b) hw
  exact ⟨_, emitFrame_done ht⟩

/-- A TRANSMIT of a byte faults at its first check where read-pins is not accessible. -/
theorem transmit_unchecked {s : State} (hr : ¬ s.Reaches s.cfg.offReadPins) (b : Byte) (bs : List Byte) :
    transmit (b :: bs) s = .fault (.fatalAddress (s.portAddress s.cfg.offReadPins))
      { s.inTx (.txCheck 0 0) with fault := some (.fatalAddress (s.portAddress s.cfg.offReadPins)) } := by
  rw [transmit, transmitLoop, ctsCheck_unreached (s := s.inTx (.txCheck 0 0)) hr]
  rfl

/-- The idle restore of a TRANSMIT faults where write-pins is not accessible. -/
theorem transmit_unrestored {buf : List Byte} {s u : State} {n : Nat} (hloop : transmitLoop buf 0 0 s = .done n u)
    (hw : ¬ u.Reaches u.cfg.offWritePins) :
    transmit buf s = .fault (.fatalAddress (u.portAddress u.cfg.offWritePins))
      { u.inTx (.txRestore n) with fault := some (.fatalAddress (u.portAddress u.cfg.offWritePins)) } := by
  rw [transmit, hloop, Run.bind_done, restoreIdle, writePins_unreached (s := u.inTx (.txRestore n)) hw]
  rfl

/-- A TRANSMIT from `s` that faulted at `t`: no pin word was recorded, the latch and the mask are as they were, nothing was
returned, and the phase is that of the access that faulted. -/
structure TransmitFault (s t : State) (r : Fault) : Prop where
  fault   : t.fault = some r
  words   : pinsEvents (newEvents s t) = []
  latch   : t.outLatch = s.outLatch
  mask    : t.dirMask = s.dirMask
  returns : t.returns = s.returns
  place   : (t.txPhase = .txCheck 0 0 ∧ r = .fatalAddress (s.portAddress s.cfg.offReadPins)) ∨
    ((t.txPhase = .txElement 0 0 0 ∨ t.txPhase = .txRestore 0) ∧
      r = .fatalAddress (s.portAddress s.cfg.offWritePins))

/-- No new event is recorded from a state to itself. -/
theorem newEvents_self (s : State) : newEvents s s = [] := newEvents_eq_of_trace (List.append_nil _).symm

/-- The check of a TRANSMIT's first byte records no pin word. -/
theorem pinsEvents_newEvents_checked (s : State) (j sent : Nat) : pinsEvents (newEvents s (s.checked j sent)) = [] :=
  congrArg pinsEvents (newEvents_complete (s.inTx (.txCheck j sent)) _ .read _)

/-- A TRANSMIT that comes to a write faults at its first one where write-pins is not accessible: that of its first byte's
first element, or of the idle restore. -/
theorem transmit_unwritten {buf : List Byte} {s : State} (hw : ¬ s.Reaches s.cfg.offWritePins)
    (hr : buf = [] ∨ s.Reaches s.cfg.offReadPins) :
    ∃ t, transmit buf s = .fault (.fatalAddress (s.portAddress s.cfg.offWritePins)) t ∧
      TransmitFault s t (.fatalAddress (s.portAddress s.cfg.offWritePins)) := by
  cases buf with
  | nil =>
    exact ⟨_, transmit_unrestored (buf := []) rfl hw,
      ⟨rfl, congrArg pinsEvents (newEvents_self s), rfl, rfl, rfl, .inr ⟨.inr rfl, rfl⟩⟩⟩
  | cons b bs =>
    have hr : s.Reaches s.cfg.offReadPins := hr.resolve_left nofun
    have hwords := pinsEvents_newEvents_checked s 0 0
    have hcts : ctsCheck (s.inTx (.txCheck 0 0)) =
        .done (ctsClear s.cfg (pinWordOf s.cfg s.readPinsWord)) (s.checked 0 0) := ctsCheck_done (s := s.inTx _) hr
    cases hc : ctsClear s.cfg (pinWordOf s.cfg s.readPinsWord) with
    | false =>
      have hloop : transmitLoop (b :: bs) 0 0 s = .done 0 (s.checked 0 0) := by
        rw [transmitLoop, hcts, Run.bind_done, hc]
        rfl
      exact ⟨_, transmit_unrestored (u := s.checked 0 0) hloop hw,
        ⟨rfl, hwords, rfl, rfl, rfl, .inr ⟨.inr rfl, rfl⟩⟩⟩
    | true =>
      refine ⟨{ ((s.checked 0 0).encoded b).inTx (.txElement 0 0 0) with
        fault := some (.fatalAddress (s.portAddress s.cfg.offWritePins)) }, ?_,
        ⟨rfl, hwords, rfl, rfl, rfl, .inr ⟨.inl rfl, rfl⟩⟩⟩
      rw [transmit, transmitLoop, hcts, Run.bind_done, if_pos hc, emitFrame_unreached (s := s.checked 0 0) hw]
      rfl

/-- A TRANSMIT is done where its accesses are accessible, and faults at its first inaccessible one. -/
theorem transmit_cases (buf : List Byte) (s : State) :
    (∃ n t, transmit buf s = .done n t) ∨ ∃ r t, transmit buf s = .fault r t ∧ TransmitFault s t r := by
  by_cases hr : buf = [] ∨ s.Reaches s.cfg.offReadPins
  · by_cases hw : s.Reaches s.cfg.offWritePins
    · obtain ⟨n, t, -, ht, -⟩ := transmit_done hw hr
      exact .inl ⟨n, t, ht⟩
    · exact .inr ⟨_, transmit_unwritten hw hr⟩
  · obtain ⟨hbuf, hread⟩ := not_or.1 hr
    obtain ⟨b, bs, rfl⟩ := List.exists_cons_of_ne_nil hbuf
    exact .inr ⟨_, _, transmit_unchecked hread b bs,
      ⟨rfl, congrArg pinsEvents (newEvents_self s), rfl, rfl, rfl, .inl ⟨rfl, rfl⟩⟩⟩

/-- Settles O46: where its accesses are accessible an emission is done, so a fault is that of its first inaccessible
access. -/
theorem emissionFaultsBeforeAnyPinChanges : Obligations.EmissionFaultsBeforeAnyPinChanges := by
  unfold Obligations.EmissionFaultsBeforeAnyPinChanges
  refine fun s t r => ⟨fun b h => ?_, fun buf h => ?_⟩
  · rw [perform_emitFrame] at h
    by_cases hw : s.Reaches s.cfg.offWritePins
    · obtain ⟨u, hu⟩ := emitFrame_reached hw none b
      rw [hu, Run.map_done] at h
      cases h
    · rw [emitFrame_unreached hw, Run.map_fault] at h
      cases h
      exact ⟨rfl, rfl, rfl, rfl, rfl, rfl⟩
  · rw [perform_transmit] at h
    obtain ⟨n, u, hu⟩ | ⟨r', u, hu, hfault⟩ := transmit_cases buf s
    · rw [hu, Run.map_done] at h
      cases h
    · rw [hu, Run.map_fault] at h
      cases h
      exact ⟨hfault.fault, hfault.words, hfault.latch, hfault.mask, hfault.returns, hfault.place⟩

/-! ### Faults inside LINE_INIT (60_exceptions.md R110, 42_line_init.md R96, R97) -/

theorem perform_lineInit (s : State) : perform .lineInit s = performLineInit s := rfl

/-- The start faults at its first pin write where write-pins is not accessible: the mask is written, at the device's page,
and recorded. -/
theorem lineInitStart_noPins {s : State} (hc : s.cfg.failing = none) (hd : s.Reaches s.cfg.offSetDirections)
    (hw : ¬ s.Reaches s.cfg.offWritePins) :
    lineInitStart s = .fault (.fatalAddress (s.portAddress s.cfg.offWritePins)) { s with
      dirMask := if s.ctxBasePage = s.devBasePage then some s.cfg.dirMask else s.dirMask
      initState := .directionsSet
      now := s.now + s.busDraw.delta
      env := Env.afterBus s.env
      trace := s.trace ++ [.access (s.now + s.busDraw.delta) .write (s.portAddress s.cfg.offSetDirections)
        (sameWord s.cfg.dirMask)]
      fault := some (.fatalAddress (s.portAddress s.cfg.offWritePins)) } := by
  let u := s.complete (s.portAddress s.cfg.offSetDirections) .write (sameWord s.cfg.dirMask)
  by_cases hp : s.ctxBasePage = s.devBasePage
  · rw [lineInitStart_eq, setDirections_hit hc hd hp, Run.bind_done, if_pos hp]
    exact lineInitWrites_unreached (s := u.setMask s.cfg.dirMask) hw
  · rw [lineInitStart_eq, setDirections_miss hd hp, Run.bind_done, if_neg hp]
    exact lineInitWrites_unreached (s := u) hw

/-- The start is done where its accesses are accessible. -/
theorem lineInitStart_done {s : State} (hc : s.cfg.failing = none) (hd : s.Reaches s.cfg.offSetDirections)
    (hw : s.Reaches s.cfg.offWritePins) : ∃ t0 t, lineInitStart s = .done t0 t := by
  let u := s.complete (s.portAddress s.cfg.offSetDirections) .write (sameWord s.cfg.dirMask)
  rw [lineInitStart_eq]
  by_cases hp : s.ctxBasePage = s.devBasePage
  · rw [setDirections_hit hc hd hp, Run.bind_done]
    exact ⟨_, _, lineInitWrites_hit (s := u.setMask s.cfg.dirMask) hp hw⟩
  · rw [setDirections_miss hd hp, Run.bind_done]
    exact ⟨_, _, lineInitWrites_miss (s := u) hp hw⟩

/-- A poll is done at the timeout, and before it where read-pins is accessible. -/
theorem pollOnce_done {s : State} {t0 : Nat}
    (h : t0 + s.cfg.hsTimeoutMs * 1000 ≤ s.clockRead.now ∨ s.Reaches s.cfg.offReadPins) :
    ∃ b t, pollOnce t0 s = .done b t := by
  by_cases hlate : t0 + s.cfg.hsTimeoutMs * 1000 ≤ s.clockRead.now
  · exact ⟨_, _, pollOnce_late hlate⟩
  · rw [pollOnce_early (not_le.1 hlate) (h.resolve_left hlate)]
    split <;> exact ⟨_, _, rfl⟩

/-- Settles O58: the start and the poll fault at their first inaccessible access, and where there is none they are done. -/
theorem lineInitFaultsKeepWhatItDid : Obligations.LineInitFaultsKeepWhatItDid := by
  unfold Obligations.LineInitFaultsKeepWhatItDid
  refine fun s hc => ⟨fun hs hd => ?_, fun hs hd hw => ?_, fun t0 hi hearly hr => ?_, fun r t h => ?_⟩
  · rw [perform_lineInit, performLineInit_start hs, lineInitStart_noMask hd, Run.map_fault]
  · rw [perform_lineInit, performLineInit_start hs, lineInitStart_noPins hc hd hw, Run.map_fault]
    rfl
  · rw [perform_lineInit, performLineInit_polling hi, pollOnce_unreached (s := s) hearly hr, Run.map_fault]
    rfl
  · rw [perform_lineInit] at h
    cases hs : s.polling with
    | false =>
      refine .inl ⟨rfl, fun ⟨hd, hw⟩ => ?_⟩
      obtain ⟨t0, u, hu⟩ := lineInitStart_done hc hd hw
      rw [performLineInit_start hs, hu, Run.map_done] at h
      cases h
    | true =>
      obtain ⟨t0, hi⟩ := s.polling_eq_true_iff.1 hs
      rw [performLineInit_polling hi] at h
      have hnot : ¬ (t0 + s.cfg.hsTimeoutMs * 1000 ≤ s.clockRead.now ∨ s.Reaches s.cfg.offReadPins) := fun hdone => by
        obtain ⟨b, u, hu⟩ := pollOnce_done hdone
        rw [hu, Run.map_done] at h
        cases h
      obtain ⟨hearly, hr⟩ := not_or.1 hnot
      exact .inr ⟨t0, hi, not_le.1 hearly, hr⟩

/-! ### Every access that is not accessible faults (60_exceptions.md R107, R114) -/

/-- An operation whose part faults faults. -/
theorem exec_of_map_fault {α : Type} {i : Instr} {s t : State} {r : Fault} {x : Run α} {v : α → Option Returned}
    (he : s.Enabled) (hi : perform i s = x.map v) (hx : x = .fault r t) : exec i s = .fault r :=
  exec_of_fault he (by rw [hi, hx, Run.map_fault])

theorem emitElement_unreached {s : State} (hw : ¬ s.Reaches s.cfg.offWritePins) (e : Byte) :
    emitElement e s = .fault (.fatalAddress (s.portAddress s.cfg.offWritePins))
      { s with fault := some (.fatalAddress (s.portAddress s.cfg.offWritePins)) } := by
  rw [emitElement, writePins_unreached hw, Run.bind_fault]

/-- A port write at an inaccessible address faults, whatever its halves are (60_exceptions.md R114). -/
theorem writePort16_unreached {s : State} {off : Half} (h : ¬ s.Reaches off) (hi lo : Half) :
    writePort16 off hi lo s = .fault (.fatalAddress (s.portAddress off))
      { s with fault := some (.fatalAddress (s.portAddress off)) } :=
  access_inaccessible (Bool.eq_false_iff.2 h) _ _

/-- SET_BASE at an inaccessible address faults, and the context does not move (40_port_ops.md R76). -/
theorem setBase_unreached {s : State} (h : ¬ s.Reaches s.cfg.offSetBase) (p : Byte) :
    setBase p s = .fault (.fatalAddress (s.portAddress s.cfg.offSetBase))
      { s with fault := some (.fatalAddress (s.portAddress s.cfg.offSetBase)) } :=
  congrArg (Run.bind · fun w t => .done w (t.setCtxPage p)) (writePort16_unreached h _ _)

/-- Settles O44: the fault of each operation's first inaccessible access is the operation's. -/
theorem inaccessibleAddressFaults : Obligations.InaccessibleAddressFaults := by
  unfold Obligations.InaccessibleAddressFaults
  refine fun s he => ⟨fun o ha => ⟨?_, fun v => ?_⟩, fun hr => ⟨?_, ?_, fun b bs => ?_, fun t0 hi hearly => ?_⟩,
    fun hw => ⟨fun d => ?_, fun hi lo => ?_, fun e => ?_, fun b => ?_, ?_, fun buf hr => ?_, fun hs hd => ?_⟩,
    fun hd => ⟨fun m => ?_, fun hs => ?_⟩, fun hb p => ?_⟩
  · exact exec_of_map_fault he (perform_regRead o s) (access_inaccessible ha .read 0)
  · exact exec_of_map_fault he (perform_regWrite o v s) (access_inaccessible ha .write v)
  · exact exec_of_map_fault he (perform_readPins s) (readPins_unreached hr)
  · exact exec_of_map_fault he (perform_ctsCheck s) (ctsCheck_unreached hr)
  · exact exec_of_map_fault he (perform_transmit (b :: bs) s) (transmit_unchecked hr b bs)
  · exact exec_of_map_fault he (performLineInit_polling hi) (pollOnce_unreached (s := s) hearly hr)
  · exact exec_of_map_fault he (perform_writePins d s) (writePins_unreached hw d)
  · exact exec_of_map_fault he (perform_writePins2 hi lo s) (writePort16_unreached hw hi lo)
  · exact exec_of_map_fault he (perform_emitElement e s) (emitElement_unreached hw e)
  · exact exec_of_map_fault he (perform_emitFrame b s) (emitFrame_unreached hw none b)
  · exact exec_of_map_fault he (perform_restoreIdle s) (writePins_unreached hw _)
  · obtain ⟨t, ht, -⟩ := transmit_unwritten hw hr
    exact exec_of_map_fault he (perform_transmit buf s) ht
  · exact exec_of_map_fault he (performLineInit_start hs) (lineInitStart_noPins he.2.2 hd hw)
  · exact exec_of_map_fault he (perform_setDirections m s) (setDirections_unreached hd m)
  · exact exec_of_map_fault he (performLineInit_start hs) (lineInitStart_noMask hd)
  · exact exec_of_map_fault he (perform_setBase p s) (setBase_unreached hb p)

/-! ### Stops in the state (60_exceptions.md R107, R108, R111, R112) -/

/-- A stop is set in the state at it, and no other is. -/
def Run.StopIsSet {α : Type} : Run α → Prop
  | .done _ _ => True
  | .fault r t => t.fault = some r
  | .refused r t => t.fault = none ∧ t.refused = some r

theorem Run.StopIsSet.map {α β : Type} {x : Run α} (hx : x.StopIsSet) (f : α → β) : (x.map f).StopIsSet := by
  cases x with
  | done a t => trivial
  | fault r t => exact hx
  | refused r t => exact hx

theorem Run.StopsAlone.stopIsSet {α : Type} {s : State} {x : Run α} (hx : x.StopsAlone s) (hf : s.fault = none) :
    x.StopIsSet := by
  cases x with
  | done a t => trivial
  | fault r t =>
    obtain rfl : t = _ := hx
    rfl
  | refused r t =>
    obtain rfl : t = _ := hx
    exact ⟨hf, rfl⟩

theorem emitFrame_stopIsSet (pos : Option (Nat × Nat)) (b : Byte) (s : State) : (emitFrame pos b s).StopIsSet := by
  by_cases hw : s.Reaches s.cfg.offWritePins
  · obtain ⟨t, ht⟩ := emitFrame_reached hw pos b
    rw [ht]
    trivial
  · rw [emitFrame_unreached hw]
    rfl

theorem transmit_stopIsSet (buf : List Byte) (s : State) : (transmit buf s).StopIsSet := by
  obtain ⟨n, t, ht⟩ | ⟨r, t, ht, hfault⟩ := transmit_cases buf s
  · rw [ht]
    trivial
  · rw [ht]
    exact hfault.fault

theorem lineInitStart_stopIsSet {s : State} (hc : s.cfg.failing = none) : (lineInitStart s).StopIsSet := by
  by_cases hd : s.Reaches s.cfg.offSetDirections
  · by_cases hw : s.Reaches s.cfg.offWritePins
    · obtain ⟨t0, t, ht⟩ := lineInitStart_done hc hd hw
      rw [ht]
      trivial
    · rw [lineInitStart_noPins hc hd hw]
      rfl
  · rw [lineInitStart_noMask hd]
    rfl

theorem pollOnce_stopIsSet (t0 : Nat) (s : State) : (pollOnce t0 s).StopIsSet := by
  by_cases h : t0 + s.cfg.hsTimeoutMs * 1000 ≤ s.clockRead.now ∨ s.Reaches s.cfg.offReadPins
  · obtain ⟨b, t, ht⟩ := pollOnce_done h
    rw [ht]
    trivial
  · obtain ⟨hearly, hr⟩ := not_or.1 h
    rw [pollOnce_unreached (not_le.1 hearly) hr]
    rfl

theorem performLineInit_stopIsSet {s : State} (hc : s.cfg.failing = none) : (performLineInit s).StopIsSet := by
  cases hs : s.polling with
  | false =>
    rw [performLineInit_start hs]
    exact (lineInitStart_stopIsSet hc).map _
  | true =>
    obtain ⟨t0, hi⟩ := s.polling_eq_true_iff.1 hs
    rw [performLineInit_polling hi]
    exact (pollOnce_stopIsSet t0 s).map _

/-- Every operation that runs sets its stop. -/
theorem perform_stopIsSet (i : Instr) {s : State} (he : s.Enabled) : (perform i s).StopIsSet := by
  cases i with
  | emitFrame b => exact (emitFrame_stopIsSet none b s).map _
  | transmit buf => exact (transmit_stopIsSet buf s).map _
  | lineInit => exact performLineInit_stopIsSet he.2.2
  | _ => exact (perform_stopsAlone (by exact trivial) s).stopIsSet he.1

/-- The guard before a step sets its own stop. -/
theorem State.entered_stopIsSet {α : Type} {s : State} {k : Run α} (hk : s.Enabled → k.StopIsSet) :
    (s.entered k).StopIsSet := by
  unfold State.entered
  split
  next r hf => exact hf
  next hf =>
    split
    next r hr => exact ⟨hf, hr⟩
    next hr =>
      split
      next c hc => exact ⟨hf, rfl⟩
      next hc => exact hk ⟨hf, hr, hc⟩

theorem performStep_stopIsSet (s : State) : (performStep s).StopIsSet := by
  refine State.entered_stopIsSet fun he => ?_
  split
  · exact perform_stopIsSet .lineInit he
  · split
    · trivial
    · exact perform_stopIsSet _ he
    · trivial
    · exact ⟨he.1, rfl⟩

/-- With no LINE_INIT under way a line that the table does not have is taken and refused (R111; log 9, log 14). -/
theorem performStep_of_hostNext_unmodelled {s : State} {name : List Byte} {rest : List (List Byte)} (he : s.Enabled)
    (hs : s.polling = false) (h : s.hostNext = .line (.unmodelled name) rest) :
    performStep s = (s.issued rest).refuse (.unmodelled name) := by
  rw [performStep, State.entered_of_enabled he]
  split
  next t0 h0 => exact absurd h0 (s.initState_ne_polling hs t0)
  next => simp only [h]

theorem State.entered_of_failing {α : Type} {s : State} {c : ConfigCheck} (hf : s.fault = none) (hr : s.refused = none)
    (hc : s.cfg.failing = some c) (k : Run α) : s.entered k = s.refuse (.badConfig c) := by
  simp only [State.entered, hf, hr, hc]

/-- Settles O57: what a step performs sets its stop, and a machine with a stop set answers it. -/
theorem stopsAreSetInTheState : Obligations.StopsAreSetInTheState := by
  unfold Obligations.StopsAreSetInTheState
  intro s
  have hset := performStep_stopIsSet s
  refine ⟨fun r t h => ?_, fun r t h => ?_, fun he hs line rest name hh hd => ?_, fun c hf hr hc => ?_⟩
  · rw [h] at hset
    exact ⟨hset, ((stoppedMachineStaysStopped t).1 r hset).1⟩
  · rw [h] at hset
    obtain ⟨hf, hr⟩ := hset
    exact ⟨hr, ((stoppedMachineStaysStopped t).2 r hf hr).1⟩
  · exact performStep_of_hostNext_unmodelled he hs (by rw [State.hostNext_of_cons hh, hd])
  · exact State.entered_of_failing hf hr hc _

end Sys2Proof.Machine
end

section
/-! SUPPORT. Family `70_reset_and_hazards.md`: the state after reset (R125), the steps that run no operation (R126) or go on
with a polling LINE_INIT (R137), and a divergence of the two pages (R131). -/

namespace Sys2Proof.Machine

/-! ### Steps without an operation (70_reset_and_hazards.md R126, R137) -/

theorem State.guarded_of_enabled {s : State} (he : s.Enabled) (k : Host.Outcome State Fault Refusal) : s.guarded k = k :=
  State.guarded_of_none he.1 he.2.1 he.2.2 k

theorem State.hostNext_of_nil {s : State} (h : s.host = []) : s.hostNext = .waits := by
  simp only [State.hostNext, h]

/-- With no LINE_INIT under way, what an enabled step answers when the host gives it no operation. -/
theorem step_of_hostNext_no_op {s : State} (he : s.Enabled) (hs : s.polling = false) :
    (s.hostNext = .waits → step s = .next s) ∧
    (∀ rest, s.hostNext = .line .blank rest → step s = .next (s.issued rest)) ∧
    (∀ rest name, s.hostNext = .line (.unmodelled name) rest → step s = .refused (.unmodelled name)) := by
  rw [step_eq_guarded, State.guarded_of_enabled he]
  split
  next t0 h0 => exact absurd h0 (s.initState_ne_polling hs t0)
  next =>
    refine ⟨fun h => ?_, fun rest h => ?_, fun rest name h => ?_⟩
    · simp only [h]
    · simp only [h]
    · simp only [h]

/-- Settles O5: an empty queue gives the step nothing, and a queued line what it decodes to. -/
theorem stepWithoutAnOperation : Obligations.StepWithoutAnOperation := by
  unfold Obligations.StepWithoutAnOperation
  intro s he hs
  obtain ⟨hwaits, hblank, hunmodelled⟩ := step_of_hostNext_no_op he hs
  refine ⟨fun hh => hwaits (State.hostNext_of_nil hh), fun line rest hh hd => hblank rest ?_,
    fun line rest name hh hd => hunmodelled rest name ?_⟩
  · rw [State.hostNext_of_cons hh, hd]
  · rw [State.hostNext_of_cons hh, hd]

/-- Settles O6: the step looks at the sequencer before it looks at the host. -/
theorem stepContinuesAPollingLineInit : Obligations.StepContinuesAPollingLineInit := by
  unfold Obligations.StepContinuesAPollingLineInit
  intro s hs
  obtain ⟨t0, hi⟩ := s.polling_eq_true_iff.1 hs
  exact step_of_polling hi

/-! ### The state after reset (70_reset_and_hazards.md R125) -/

/-- With nothing recorded, nothing stopped and both sequencers at rest, the invariant asks for nothing more. -/
theorem State.resetWith_inv (cfg : Cfg) (now : Nat) : (State.resetWith cfg now).Inv where
  latch     := rfl
  ordered   := .nil
  past      := nofun
  issued    := nofun
  runs      := ⟨rfl, rfl⟩
  txRests   := .inl rfl
  initRests := .inl rfl

/-- Settles O50: the machine's own reset is one of the resets under a configuration. -/
theorem resetMeetsTheInvariant : Obligations.ResetMeetsTheInvariant := by
  unfold Obligations.ResetMeetsTheInvariant
  exact ⟨State.resetWith_inv _ _, State.resetWith_inv⟩

/-- Settles O51: the fields are the reset's own, every line is undefined while the mask is unknown, and the board's
configuration passes every check. -/
theorem resetLeavesTheStatedValues : Obligations.ResetLeavesTheStatedValues := by
  unfold Obligations.ResetLeavesTheStatedValues
  refine ⟨fun cfg now => ⟨rfl, rfl, rfl, rfl, rfl, rfl, rfl, rfl, rfl, rfl, rfl, rfl, fun i => ?_⟩,
    Config.board.cfg, Config.nowAtReset, Config.board_failing, rfl⟩
  exact (linesFollowTheMask (State.resetWith cfg now) i).1 rfl

/-! ### A divergence of the two pages (70_reset_and_hazards.md R131) -/

/-- While the two copies of the page differ, no operation that answers a next state changes a port register. -/
theorem exec_diverged {i : Instr} {s t : State} (hd : s.ctxBasePage ≠ s.devBasePage) (h : exec i s = .next t) :
    t.devBasePage = s.devBasePage ∧ t.dirMask = s.dirMask ∧ t.outLatch = s.outLatch := by
  obtain ⟨vs, rfl⟩ := exec_eq_next_endState h
  obtain ⟨m, p, hm, he⟩ := perform_endState i s
  exact he ▸ hm.diverged hd

/-- Settles O54: the device's page stays, so the copies agree again exactly where SET_BASE, the one operation that moves the
context, moves it there. -/
theorem onlySetBaseMendsADivergence : Obligations.OnlySetBaseMendsADivergence := by
  unfold Obligations.OnlySetBaseMendsADivergence
  intro i s t hd h
  obtain ⟨hdev, hmask, hlatch⟩ := exec_diverged hd h
  refine ⟨hdev, hmask, hlatch, ?_⟩
  rw [hdev]
  obtain ⟨p, rfl, hp⟩ | ⟨hi, hctx⟩ := onlySetBaseMovesTheContext i s t h
  · rw [hp, Instr.setBase.injEq]
  · rw [hctx]
    exact iff_of_false hd (hi _)

end Sys2Proof.Machine
end
